-- ==== Sys2Proof/Word.lean ====
section
/-! DEFINITION. The word types of HEXGEN (00_scope.md R3, R5): every value is unsigned. -/

namespace Sys2Proof

/-- `BYTE`: 8 bits (R3). A character of OUT or LIN is an 8-bit code too (20_memory.md R37, R38). -/
abbrev Byte := BitVec 8

/-- A text line, or any run of characters, as its 8-bit codes. -/
abbrev Line := List Byte

end Sys2Proof
end

