-- ==== Sys2Proof/Config.lean ====
section
/-! DEFINITION. What the spec leaves open. Both constants have no body: nothing can evaluate them, so a theorem
about them holds for every value. -/

namespace Sys2Proof

/-- `DEC_LOWERCASE_OK`, `OPEN` in 00_scope.md R3: whether the decoder accepts `a` to `f` as hexadecimal digits
(41_record_decode.md R90, decision D12). Log entry 7. -/
opaque Config.decLowercaseOk : Bool

/-- The value `lineno` takes when a line is counted past 2^32 - 1, which the spec puts outside the interface
(decision D14) and gives no value. A free value: applied to the model's counter `State.freeCount`.
DESIGN CHOICE, log entry 5. -/
opaque Config.freeLineno : Nat → BitVec 32

end Sys2Proof
end

