-- ==== Sys2Proof/Syntax.lean ====
section
/-! DEFINITION. The whole instruction set: the eight CMD rows and the six REC rows of spec/opcode_table.json, the
shapes their encodings have on the ports, and what the host can present. -/

namespace Sys2Proof

/-- The six record types (30_encoding.md R54): "The enumeration is closed at six values". -/
inductive RecType where
  /-- `Data` = 0 -/
  | data
  /-- `EndOfFile` = 1 -/
  | eof
  /-- `ExtendedSegmentAddress` = 2 -/
  | esa
  /-- `StartSegmentAddress` = 3 -/
  | ssa
  /-- `ExtendedLinearAddress` = 4 -/
  | ela
  /-- `StartLinearAddress` = 5 -/
  | sla
  deriving DecidableEq, Repr

/-- A HexRecord (10_state.md R20): an immutable value, never state except for the copy in `dres`. -/
structure HexRecord where
  recordType : RecType
  address : BitVec 16
  data : List Byte
  checksum : Byte
  deriving DecidableEq, Repr

/-- A record whose type byte has not been held against the enumeration: what `MakeRecord` builds for any 8-bit
type (40_record_encode.md R73, R74: "`EncodeLine` itself accepts any 8-bit `t`"). -/
structure WireRecord where
  typeByte : Byte
  address : BitVec 16
  data : List Byte
  checksum : Byte
  deriving DecidableEq, Repr

/-- Where a record of a type that SEQ emits meets the machine. DESIGN CHOICE, log entry 4. -/
inductive RecordPort where
  /-- SEQ writes it to OUT (40_record_encode.md R78 to R81). -/
  | out
  /-- REC leaves its line in `eres` (R75). -/
  | res
  /-- DEC takes its line from LIN (41_record_decode.md R100). -/
  | lin
  deriving DecidableEq, Repr

/-- The two places a record of type 03 or 05 can meet the machine: "the codec encodes and decodes them like any
other type, but the sequencer never emits either" (40_record_encode.md R82). Log entry 4. -/
inductive CodecPort where
  /-- REC leaves its line in `eres`. -/
  | res
  /-- DEC takes its line from LIN. -/
  | lin
  deriving DecidableEq, Repr

/-- The instructions: one constructor per row of spec/opcode_table.json. -/
inductive Instr where
  /-- `GEN_START m` (42_layout_sequencer.md R110). -/
  | genStart (m : Byte)
  /-- `GEN_ENTRY la, src` (R111). -/
  | genEntry (la : BitVec 32) (src : List Byte)
  /-- `GEN_END` (R121). -/
  | genEnd
  /-- `REC_ENC rtype, raddr, data` (40_record_encode.md R75). -/
  | recEnc (rtype : Byte) (raddr : BitVec 16) (bytes : List Byte)
  /-- `DEC_OPEN` (41_record_decode.md R99). -/
  | decOpen
  /-- `DEC_LINE raw` (R100). -/
  | decLine (raw : Line)
  /-- reserved `op` 6 (30_encoding.md R60). -/
  | reservedOp6
  /-- reserved `op` 7 (30_encoding.md R60). -/
  | reservedOp7
  /-- record type 00, `DATA` (40_record_encode.md R78). -/
  | data (via : RecordPort) (raddr : BitVec 16) (bytes : List Byte)
  /-- record type 01, `EOF` (R79). -/
  | eof (via : RecordPort) (raddr : BitVec 16) (bytes : List Byte)
  /-- record type 02, `ESA` (R81). -/
  | esa (via : RecordPort) (raddr : BitVec 16) (bytes : List Byte)
  /-- record type 03, `SSA` (R82). -/
  | ssa (via : CodecPort) (raddr : BitVec 16) (bytes : List Byte)
  /-- record type 04, `ELA` (R80). -/
  | ela (via : RecordPort) (raddr : BitVec 16) (bytes : List Byte)
  /-- record type 05, `SLA` (R82). -/
  | sla (via : CodecPort) (raddr : BitVec 16) (bytes : List Byte)
  deriving DecidableEq, Repr

/-- A command as the command port carries it: the 3-bit `op`, and one lane of the stated width for each operand of
the table of 30_encoding.md R58 ("the operands travel beside `op` as separate fields of the stated widths, not
packed into a word"). A command reads the lanes of its own row only (log entry 13). -/
structure CommandWord where
  op : BitVec 3
  m : Byte
  la : BitVec 32
  src : List Byte
  rtype : Byte
  raddr : BitVec 16
  bytes : List Byte
  raw : Line
  deriving DecidableEq, Repr

/-- An encoded instruction: a command word, or a record line at one of the three places. -/
inductive Encoded where
  | command (w : CommandWord)
  | record (via : RecordPort) (line : Line)
  deriving DecidableEq, Repr

/-- Why a word is no instruction. -/
inductive DecodeReject where
  /-- REC_ENC with more than 255 data bytes: "cannot be presented" (30_encoding.md R59). -/
  | dataTooLong
  /-- DEC_LINE with more than 65535 characters: "Longer lines cannot be presented" (decision D23). -/
  | lineTooLong
  /-- A line that `DecodeLine` refuses (41_record_decode.md R98). -/
  | notARecord
  /-- A record at OUT that SEQ never emits (30_encoding.md R54, 40_record_encode.md R82). -/
  | neverEmitted
  deriving DecidableEq, Repr

/-- What the host can do to HEXGEN between two commands. -/
inductive HostInput where
  /-- assert `RST` (70_reset_and_hazards.md R160) -/
  | rst
  /-- present a command -/
  | command (w : CommandWord)
  /-- read the status register of this index (10_state.md, table after R20) -/
  | readStatus (index : Fin 11)
  /-- write to the status register of this index: "a host write has no effect" -/
  | writeStatus (index : Fin 11) (value : BitVec 33)
  deriving DecidableEq, Repr

end Sys2Proof
end

