-- ==== Sys2Proof/Machine/Codec.lean ====
section
/-! DEFINITION. The pure functions of the record codec (40_record_encode.md, 41_record_decode.md): hexadecimal
spelling, checksum, line encoding, trimming and line decoding. They read and write no state. -/

namespace Sys2Proof

/-! ### Characters and bytes (30_encoding.md R52, R53) -/

/-- `:`, 0x3A. -/
def colon : Byte := 0x3A

/-- `NEWLINE`: LF, 0x0A (decision D8). -/
def newline : Byte := 0x0A

/-- `hi8(a)` is `a[15:8]`. -/
def hi8 (a : BitVec 16) : Byte := a.extractLsb' 8 8

/-- `lo8(a)` is `a[7:0]`. -/
def lo8 (a : BitVec 16) : Byte := a.extractLsb' 0 8

/-- `digit(v)`: `0` to `9` for 0 to 9, `A` to `F` for 10 to 15 (R52). -/
def digit (v : BitVec 4) : Byte :=
  if v.toNat < 10 then BitVec.ofNat 8 (0x30 + v.toNat) else BitVec.ofNat 8 (0x41 + (v.toNat - 10))

/-- `hex2(b)`: the high nibble's digit first (R52). -/
def hex2 (b : Byte) : Line := [digit (b.extractLsb' 4 4), digit (b.extractLsb' 0 4)]

/-- `hex4(a)` is `hex2(hi8(a)) ++ hex2(lo8(a))` (R52). -/
def hex4 (a : BitVec 16) : Line := hex2 (hi8 a) ++ hex2 (lo8 a)

/-- The TT byte of a record type (30_encoding.md R54). -/
def RecType.code (t : RecType) : Byte :=
  match t with
  | .data => 0
  | .eof => 1
  | .esa => 2
  | .ssa => 3
  | .ela => 4
  | .sla => 5

/-- The record type of a TT byte; 06 to FF name none (30_encoding.md R57). -/
def RecType.ofCode (b : Byte) : Option RecType :=
  match b.toNat with
  | 0 => some .data
  | 1 => some .eof
  | 2 => some .esa
  | 3 => some .ssa
  | 4 => some .ela
  | 5 => some .sla
  | _ => none

/-! ### Checksum and encoding (40_record_encode.md R70, R73, R74, R76) -/

/-- The exact sum `s` of R70. -/
def byteSum (t : Byte) (a : BitVec 16) (bytes : List Byte) : Nat :=
  bytes.length + (hi8 a).toNat + (lo8 a).toNat + t.toNat + (bytes.map BitVec.toNat).sum

/-- `Checksum(t, a, data)` = `(0x100 - (s mod 0x100)) mod 0x100` (R70). -/
def checksum (t : Byte) (a : BitVec 16) (bytes : List Byte) : Byte :=
  BitVec.ofNat 8 ((0x100 - byteSum t a bytes % 0x100) % 0x100)

/-- `MakeRecord(t, a, data, expect)` (R73): the error outcome carries (computed, declared). -/
def makeRecord (t : Byte) (a : BitVec 16) (bytes : List Byte) (expect : Option Byte) :
    Except (Byte × Byte) WireRecord :=
  let c := checksum t a bytes
  let r : WireRecord := { typeByte := t, address := a, data := bytes, checksum := c }
  match expect with
  | none => .ok r
  | some e => if e = c then .ok r else .error (c, e)

/-- `RecordBytes(rec)` (R76), the byte string `B` of 30_encoding.md R50. -/
def recordBytes (r : WireRecord) : List Byte :=
  [BitVec.ofNat 8 r.data.length, hi8 r.address, lo8 r.address, r.typeByte] ++ r.data ++ [r.checksum]

/-- `:` and the two-digit spelling of each byte (30_encoding.md R50). -/
def spell (bs : List Byte) : Line := colon :: bs.flatMap hex2

/-- `EncodeLine(t, a, data)` (R74): "pure value construction". -/
def encodeLine (t : Byte) (a : BitVec 16) (bytes : List Byte) : Line :=
  spell (recordBytes { typeByte := t, address := a, data := bytes, checksum := checksum t a bytes })

/-- The line of a HexRecord (its checksum is recomputed from the other fields, 10_state.md R20). -/
def HexRecord.line (r : HexRecord) : Line := encodeLine r.recordType.code r.address r.data

/-! ### Decoding (41_record_decode.md R90 to R98) -/

/-- `hexval(c)` (R90); `lc` is `DEC_LOWERCASE_OK`. -/
def hexval (lc : Bool) (c : Byte) : Option (BitVec 4) :=
  if 0x30 ≤ c.toNat ∧ c.toNat ≤ 0x39 then some (BitVec.ofNat 4 (c.toNat - 0x30))
  else if 0x41 ≤ c.toNat ∧ c.toNat ≤ 0x46 then some (BitVec.ofNat 4 (c.toNat - 0x41 + 10))
  else if 0x61 ≤ c.toNat ∧ c.toNat ≤ 0x66 then
    if lc then some (BitVec.ofNat 4 (c.toNat - 0x61 + 10)) else none
  else none

/-- `byteval(c1, c2)`: the first character is the high nibble (R90, R95). -/
def byteval (lc : Bool) (c1 c2 : Byte) : Option Byte :=
  match hexval lc c1, hexval lc c2 with
  | some h, some l => some (h ++ l)
  | _, _ => none

/-- `TRIM_SET` (R91, decision D13). -/
def inTrimSet (c : Byte) : Bool :=
  c == 0x20 || c == 0x09 || c == 0x0A || c == 0x0B || c == 0x0C || c == 0x0D

/-- `Trim(raw)` (R91): the longest run of `TRIM_SET` removed from the front and from the back. -/
def trim (raw : Line) : Line := ((raw.dropWhile inTrimSet).reverse.dropWhile inTrimSet).reverse

/-- The sub-causes of a FormatError and their number in `dsub` (10_state.md R18, 60_exceptions.md R141); `none`
is `dsub` = 0. -/
inductive SubCause where
  | none
  | missingStartMarker
  | badHexDigit
  | wrongLineLength
  | reservedType
  deriving DecidableEq, Repr

/-- What `DecodeLine` returns (R98): a tagged result. `exp` and `act` are exact numbers here; `DEC_LINE` stores
them in 16 bits. -/
inductive DecodeResult where
  | ok (r : HexRecord)
  | formatError (sub : SubCause) (exp act : Nat)
  | checksumError (computed declared : Byte)
  deriving DecidableEq, Repr

/-- Index `j` of the line holds no hexadecimal digit, or lies past its end (R93, decision D15). -/
def badDigitAt (lc : Bool) (t : Line) (j : Nat) : Bool :=
  match t[j]? with
  | none => true
  | some c => (hexval lc c).isNone

/-- The leftmost of `count` indices from `start` that holds no hexadecimal digit (R93, R95, R96). -/
def firstBadDigit (lc : Bool) (t : Line) (start count : Nat) : Option Nat :=
  (List.range' start count).find? (badDigitAt lc t)

/-- The byte spelled at characters `j` and `j + 1`. Used only where `firstBadDigit` found both to be digits; the
0 of the other case reaches no result. -/
def byteAt (lc : Bool) (t : Line) (j : Nat) : Byte :=
  match t[j]?, t[j + 1]? with
  | some c1, some c2 => (byteval lc c1 c2).getD 0
  | _, _ => 0

/-- Steps 5 and 6 of `DecodeLine` (R96, R97): the declared checksum held against the computed one, then the type
against the enumeration. -/
def decodeChecked (t : Byte) (a : BitVec 16) (bytes : List Byte) (declared : Byte) : DecodeResult :=
  match makeRecord t a bytes (some declared) with
  | .error (computed, declared') => .checksumError computed declared'
  | .ok r =>
    match RecType.ofCode t with
    | none => .formatError .reservedType 5 t.toNat
    | some ty => .ok { recordType := ty, address := a, data := bytes, checksum := r.checksum }

/-- Steps 3 to 5 of `DecodeLine` up to the checksum's digits (R94, R95, R96), the header being read. -/
def decodeBody (lc : Bool) (t : Line) (n : Nat) (a : BitVec 16) (tt : Byte) : DecodeResult :=
  if t.length ≠ 11 + 2 * n then .formatError .wrongLineLength (11 + 2 * n) t.length
  else
    match firstBadDigit lc t 9 (2 * n) with
    | some j => .formatError .badHexDigit 0 j
    | none =>
      match firstBadDigit lc t (9 + 2 * n) 2 with
      | some j => .formatError .badHexDigit 0 j
      | none =>
        decodeChecked tt a ((List.range n).map fun k => byteAt lc t (9 + 2 * k)) (byteAt lc t (9 + 2 * n))

/-- `DecodeLine(t)` (R98), the checks in the order of R92 to R97, the first that fails deciding. -/
def decodeLine (lc : Bool) (t : Line) : DecodeResult :=
  match t.head? with
  | none => .formatError .missingStartMarker 0x3A 0xFFFF
  | some c =>
    if c ≠ colon then .formatError .missingStartMarker 0x3A c.toNat
    else
      match firstBadDigit lc t 1 8 with
      | some i => .formatError .badHexDigit 0 i
      | none =>
        decodeBody lc t (byteAt lc t 1).toNat (byteAt lc t 3 ++ byteAt lc t 5) (byteAt lc t 7)

end Sys2Proof
end

