-- ==== Sys2Proof/WellFormed.lean ====
section
/-! DEFINITION. Which instructions can exist: the operand ranges that widths do not already enforce
(30_encoding.md R59, 20_memory.md R38) and the shapes of the records SEQ emits (30_encoding.md R54). -/

namespace Sys2Proof

/-- "`data` length must not exceed 255 (encoded in one byte)" (R59). -/
def payloadFits (bytes : List Byte) : Bool := decide (bytes.length ≤ 255)

/-- "One line of 0 to 65535 characters" (R38, R58). -/
def lineFits (raw : Line) : Bool := decide (raw.length ≤ 65535)

/-- At OUT a record has the shape `emitted`; in the codec any payload of 0 to 255 bytes and any address
(30_encoding.md R55: no tie between type, length and address). -/
def recordFits (via : RecordPort) (bytes : List Byte) (emitted : Bool) : Bool :=
  match via with
  | .out => emitted && payloadFits bytes
  | .res | .lin => payloadFits bytes

/-- Every check on an instruction. -/
def Instr.wellFormed (i : Instr) : Bool :=
  match i with
  | .genStart _ => true
  | .genEntry _ _ => true
  | .genEnd => true
  | .recEnc _ _ bytes => payloadFits bytes
  | .decOpen => true
  | .decLine raw => lineFits raw
  | .reservedOp6 => true
  | .reservedOp7 => true
  -- SEQ emits 1 to RECLEN(mode) bytes, 32 at most (R54, R78)
  | .data via _ bytes => recordFits via bytes (decide (1 ≤ bytes.length) && decide (bytes.length ≤ 32))
  -- no payload, address 0000 (R54, R79)
  | .eof via raddr bytes => recordFits via bytes (decide (raddr = 0) && bytes.isEmpty)
  -- `segbase >> 4`, high byte first, address 0000 (R54, R81): a multiple of 0x1000 (20_memory.md R33)
  | .esa via raddr bytes =>
    recordFits via bytes (decide (raddr = 0) &&
      match bytes with
      | [h, l] => decide (h &&& 0x0F = 0) && decide (l = 0)
      | _ => false)
  | .ssa _ _ bytes => payloadFits bytes
  -- `segbase[31:16]`, high byte first, address 0000 (R54, R80)
  | .ela via raddr bytes => recordFits via bytes (decide (raddr = 0) && decide (bytes.length = 2))
  | .sla _ _ bytes => payloadFits bytes

end Sys2Proof
end

