-- ==== Sys2Proof/Decode.lean ====
section
/-! DEFINITION. From words to instructions and back. Format CMD: the 3-bit `op` selects the row and the operand
lanes it reads (30_encoding.md R58). Format REC: the line is read by `DecodeLine` and its TT byte selects the row
(R50 to R57). Decoding is total and rejects by name. -/

namespace Sys2Proof

/-! ### Format CMD -/

/-- The command a command word stands for (30_encoding.md R58, R59, R60). -/
def decodeCommand (w : CommandWord) : Except DecodeReject Instr :=
  match w.op.toNat with
  | 0 => .ok (.genStart w.m)
  | 1 => .ok (.genEntry w.la w.src)
  | 2 => .ok .genEnd
  | 3 => if payloadFits w.bytes then .ok (.recEnc w.rtype w.raddr w.bytes) else .error .dataTooLong
  | 4 => .ok .decOpen
  | 5 => if lineFits w.raw then .ok (.decLine w.raw) else .error .lineTooLong
  | 6 => .ok .reservedOp6
  | _ => .ok .reservedOp7

/-! ### Format REC -/

/-- The port of a record of type 03 or 05, as one of the three ports. -/
def CodecPort.port (via : CodecPort) : RecordPort :=
  match via with
  | .res => .res
  | .lin => .lin

/-- The codec's port, where there is one: SEQ's OUT is none. -/
def RecordPort.codec (via : RecordPort) : Option CodecPort :=
  match via with
  | .out => none
  | .res => some .res
  | .lin => some .lin

/-- A record as an instruction: TT selects the row (30_encoding.md R54). Types 03 and 05 have no row at OUT
(40_record_encode.md R82). -/
def recordInstr (via : RecordPort) (r : HexRecord) : Option Instr :=
  match r.recordType with
  | .data => some (.data via r.address r.data)
  | .eof => some (.eof via r.address r.data)
  | .esa => some (.esa via r.address r.data)
  | .ela => some (.ela via r.address r.data)
  | .ssa => via.codec.map fun c => .ssa c r.address r.data
  | .sla => via.codec.map fun c => .sla c r.address r.data

/-- The record instruction a line stands for at a port; at OUT only the shapes of 30_encoding.md R54 occur. -/
def decodeRecord (lc : Bool) (via : RecordPort) (line : Line) : Except DecodeReject Instr :=
  match decodeLine lc line with
  | .ok r =>
    match recordInstr via r with
    | some i => if i.wellFormed then .ok i else .error .neverEmitted
    | none => .error .neverEmitted
  | .formatError _ _ _ => .error .notARecord
  | .checksumError _ _ => .error .notARecord

/-- The decoder. -/
def decode (e : Encoded) : Except DecodeReject Instr :=
  match e with
  | .command w => decodeCommand w
  | .record via line => decodeRecord Config.decLowercaseOk via line

/-! ### The encoder -/

/-- A command word whose operand lanes are all zero or empty. -/
def commandWord (op : BitVec 3) : CommandWord :=
  { op := op, m := 0, la := 0, src := [], rtype := 0, raddr := 0, bytes := [], raw := [] }

/-- The words of an instruction (30_encoding.md R58 for the commands, R50 for the records). -/
def encode (i : Instr) : Encoded :=
  match i with
  | .genStart m => .command { commandWord 0 with m := m }
  | .genEntry la src => .command { commandWord 1 with la := la, src := src }
  | .genEnd => .command (commandWord 2)
  | .recEnc rtype raddr bytes => .command { commandWord 3 with rtype := rtype, raddr := raddr, bytes := bytes }
  | .decOpen => .command (commandWord 4)
  | .decLine raw => .command { commandWord 5 with raw := raw }
  | .reservedOp6 => .command (commandWord 6)
  | .reservedOp7 => .command (commandWord 7)
  | .data via a d => .record via (encodeLine 0 a d)
  | .eof via a d => .record via (encodeLine 1 a d)
  | .esa via a d => .record via (encodeLine 2 a d)
  | .ssa via a d => .record via.port (encodeLine 3 a d)
  | .ela via a d => .record via (encodeLine 4 a d)
  | .sla via a d => .record via.port (encodeLine 5 a d)

/-! ### Words as spec/opcode_table.json numbers them (log entry 2) -/

/-- `count` characters of a number, the first in its low byte. -/
def charsOfNat (count w : Nat) : Line := (List.range count).map fun j => BitVec.ofNat 8 (w >>> (8 * j))

/-- A word of the table. Up to one byte it is a command's `op` with every operand lane zero or empty (a CMD row and
a REC row share the words 0 to 5, and the command port is what the host drives). From 11 bytes on it is a record
line on LIN, its first character in bits 7..0. Nothing else is a word. -/
def tableEncoded (nbits w : Nat) : Option Encoded :=
  if nbits ≤ 8 then
    if w < 8 then some (.command (commandWord (BitVec.ofNat 3 w))) else none
  else if nbits % 8 = 0 ∧ 11 ≤ nbits / 8 then some (.record .lin (charsOfNat (nbits / 8) w))
  else none

/-- What the decoder reads from a word of the table. -/
def decodeTableWord (nbits w : Nat) : Option Instr :=
  match tableEncoded nbits w with
  | none => none
  | some e =>
    match decode e with
    | .ok i => some i
    | .error _ => none

/-- The command that brings an encoded instruction to the command port: a record line on LIN comes with DEC_LINE,
a record in REC or at OUT is not the host's to present. -/
def presentingCommand (e : Encoded) : Option CommandWord :=
  match e with
  | .command w => some w
  | .record .lin line => some { commandWord 5 with raw := line }
  | .record .res _ => none
  | .record .out _ => none

end Sys2Proof
end

