-- ==== Sys2Proof/Machine/State.lean ====
section
/-! DEFINITION. The whole state of one HEXGEN instance (10_state.md R10) with its reset values (R22), and the
reasons a step can stop. -/

namespace Sys2Proof.Machine

/-- The generator's phase (10_state.md R14). -/
inductive GPhase where
  /-- `G_IDLE` = 0: no run since reset -/
  | idle
  /-- `G_RUN` = 1: a run is open -/
  | run
  /-- `G_DONE` = 2: the run ended with its End-Of-File record -/
  | done
  /-- `G_FAULT` = 3: the run failed -/
  | fault
  deriving DecidableEq, Repr

/-- The decoder's phase (10_state.md R17). -/
inductive DPhase where
  /-- `D_READY` = 0: the next `DEC_LINE` will be decoded -/
  | ready
  /-- `D_EOS` = 1: a blank line ended the stream -/
  | eos
  /-- `D_FAULT` = 2: a line failed -/
  | fault
  deriving DecidableEq, Repr

/-- The error kinds of 60_exceptions.md R140, in the order of their codes 0 to 8. `gerr` and `derr` are 4 bits wide
and hold these codes only (log entry 14); the result buffers report them by their tags, `DecodeBuffer.error` and
`EncodeBuffer.error`. -/
inductive ErrorKind where
  | none
  | formatError
  | checksumError
  | unsupportedMode
  | orderingFault
  | addressRangeFault
  | sequenceFault
  | illegalCommand
  | illegalOperand
  deriving DecidableEq, Repr

/-- `dres` (10_state.md R19). -/
inductive DecodeBuffer where
  /-- `DR_NONE` -/
  | none
  /-- `DR_OK(rec)` -/
  | ok (r : HexRecord)
  /-- `DR_EOS`: the line was blank -/
  | eos
  /-- `DR_ERR(FormatError, sub)` -/
  | formatError (sub : SubCause)
  /-- `DR_ERR(ChecksumError)` -/
  | checksumError
  /-- `DR_ERR(SequenceFault)` -/
  | sequenceFault
  deriving DecidableEq, Repr

/-- `eres` (10_state.md R19). -/
inductive EncodeBuffer where
  /-- `E_NONE`: no `REC_ENC` since reset -/
  | none
  /-- `E_OK(line)` -/
  | ok (line : Line)
  /-- `E_ERR(IllegalOperand)` -/
  | illegalOperand
  deriving DecidableEq, Repr

/-- The state: the elements of the table of 10_state.md R10, then the two fields that are the model's own. -/
structure State where
  /-- generator phase (R14) -/
  gphase : GPhase
  /-- mode operand of the last `GEN_START` (R13) -/
  mode : Byte
  /-- `currentAddress` (R11) -/
  cur : BitVec 32
  /-- `segmentBase` (R11) -/
  segbase : BitVec 32
  /-- every character emitted in the current run (R16) -/
  out : Line
  /-- generator error code (R15) -/
  gerr : ErrorKind
  /-- generator error context A (R15) -/
  gea : BitVec 32
  /-- generator error context B (R15) -/
  geb : BitVec 33
  /-- decoder phase (R17) -/
  dphase : DPhase
  /-- lines consumed since the last `DEC_OPEN` or reset (R17) -/
  lineno : BitVec 32
  /-- decoder error code (R18) -/
  derr : ErrorKind
  /-- FormatError sub-cause (R18) -/
  dsub : SubCause
  /-- line number of the failing line (R18) -/
  dline : BitVec 32
  /-- expected value of the failed check (R18) -/
  dexp : BitVec 16
  /-- actual value of the failed check (R18) -/
  dact : BitVec 16
  /-- result of the last `DEC_LINE` (R19) -/
  dres : DecodeBuffer
  /-- result of the last `REC_ENC` (R19) -/
  eres : EncodeBuffer
  /-- the model's own: what the host will present, first to come first. DESIGN CHOICE, log entry 1 -/
  port : List HostInput
  /-- the model's own: how many free values were taken. DESIGN CHOICE, log entry 5 -/
  freeCount : Nat
  deriving DecidableEq, Repr

/-- Why the machine stops. The spec's own errors are no stop: they are next states (60_exceptions.md R146, R147). -/
inductive Fault where
  /-- Raised by `execGenEntry` when a byte is to be placed in phase `G_RUN` with a `mode` other than 2 or 4:
  RECLEN(mode) has no value (10_state.md R13). `GEN_START` never leaves that combination, so no state with
  `Safety.Inv` raises it. Safe. Log entry 8. -/
  | unsupportedModeInRun
  deriving DecidableEq, Repr

/-- Why a step has no meaning. -/
inductive Refusal where
  /-- An instruction without a meaning; raised by no arm of this model. Safe. -/
  | notModelled (mnemonic : String)
  /-- More than 255 data bytes: "cannot be presented" (30_encoding.md R59). Raised by step when the command does not
  decode, and by the meanings of REC_ENC and of the record rows. Safe. Log entry 9. -/
  | dataTooLong
  /-- More than 65535 characters: "Longer lines cannot be presented" (decision D23). Raised by step when the command
  does not decode, and by DEC_LINE's meaning. Safe. Log entry 9. -/
  | lineTooLong
  /-- A word that is no command. `decodeCommand` never gives the rejects it stands for (`decodeCommand_rejects`),
  so no step raises it. Safe. -/
  | notACommand
  deriving DecidableEq, Repr

/-- The outcome of an instruction or a step. -/
abbrev Result := Host.Outcome State Fault Refusal

/-- The state after reset (10_state.md R22, 70_reset_and_hazards.md R160). `port` and `freeCount` are the model's
own: nothing is pending, no free value was taken (log entries 1 and 5). -/
def State.reset : State :=
  { gphase := .idle, mode := 0, cur := 0, segbase := 0, out := [], gerr := .none, gea := 0, geb := 0,
    dphase := .ready, lineno := 0, derr := .none, dsub := .none, dline := 0, dexp := 0, dact := 0,
    dres := .none, eres := .none, port := [], freeCount := 0 }

end Sys2Proof.Machine
end

