-- ==== Sys2Proof/Machine/Operands.lean ====
section
/-! DEFINITION. What the commands read: parameters of the mode, the source stream, the running address, the line
counter. -/

namespace Sys2Proof.Machine

/-! ### The mode (10_state.md R13, 30_encoding.md R61) -/

/-- "no other mode is implemented": 2 (segmented) and 4 (linear). -/
def modeSupported (m : Byte) : Bool := m == 2 || m == 4

/-- `RECLEN(2) = 16`, `RECLEN(4) = 32` (R13); other modes have none. -/
def recLen (m : Byte) : Option Nat :=
  if m = 2 then some 16 else if m = 4 then some 32 else none

/-- `MAXADDR(mode)` (00_scope.md R3): 0xFFFFF in mode 2, 0xFFFFFFFF in mode 4. -/
def maxAddr (m : Byte) : Option Nat :=
  if m = 2 then some 0xFFFFF else if m = 4 then some 0xFFFFFFFF else none

/-- The greatest window base whose extension value fits 16 bits (42_layout_sequencer.md R117). -/
def baseUnrepresentable (m : Byte) (nsb : BitVec 33) : Bool :=
  (m == 4 && decide (nsb.toNat > 0xFFFF0000)) || (m == 2 && decide (nsb.toNat > 0x000F0000))

/-! ### The source stream SRC (20_memory.md R36): the unread bytes, in order -/

/-- `SrcRemain()`: at least one byte is unread. -/
def srcRemain (unread : List Byte) : Bool := !unread.isEmpty

/-- `SrcRead(n)`: the next `n` bytes and what is left. -/
def srcRead (n : Nat) (unread : List Byte) : List Byte × List Byte := (unread.take n, unread.drop n)

/-! ### Addresses (42_layout_sequencer.md R112, R116, R118) -/

/-- The running address `cur + segbase`, an exact 33-bit sum (R112). -/
def State.runAddr (s : State) : BitVec 33 := s.cur.setWidth 33 + s.segbase.setWidth 33

/-- `cur & 0xFFFF0000`: the part of `cur` above the window offset (R116). -/
def State.windowPart (s : State) : BitVec 32 := s.cur &&& 0xFFFF0000

/-- `segbase + (cur & 0xFFFF0000)`, an exact 33-bit sum (R116). -/
def State.nextBase (s : State) : BitVec 33 := s.segbase.setWidth 33 + s.windowPart.setWidth 33

/-- `n = min(RECLEN(mode), 0x10000 - cur, unread)` (R118, R119). -/
def chunkSize (len : Nat) (cur : BitVec 32) (unread : List Byte) : Nat :=
  min (min len (0x10000 - cur.toNat)) unread.length

/-! ### The line counter (10_state.md R17) -/

/-- `lineno <- lineno + 1`. Past 2^32 - 1 the spec gives no value (decision D14): a free value (log entry 5). -/
def countLine (s : State) : State :=
  if s.lineno = 0xFFFFFFFF then
    { s with lineno := Config.freeLineno s.freeCount, freeCount := s.freeCount + 1 }
  else { s with lineno := s.lineno + 1 }

end Sys2Proof.Machine
end

