-- ==== Sys2Proof/Machine/Flags.lean ====
section
/-! DEFINITION. HEXGEN has no condition codes (10_state.md R15). In their place: the numeric codes of the enumerated
elements and the eleven read-only status registers (10_state.md, table after R20). -/

namespace Sys2Proof.Machine

/-- `gphase`, 2 bits (R14). -/
def GPhase.code (p : GPhase) : BitVec 2 :=
  match p with
  | .idle => 0
  | .run => 1
  | .done => 2
  | .fault => 3

/-- `dphase`, 2 bits (R17). -/
def DPhase.code (p : DPhase) : BitVec 2 :=
  match p with
  | .ready => 0
  | .eos => 1
  | .fault => 2

/-- The error codes (60_exceptions.md R140), 4 bits. -/
def ErrorKind.code (e : ErrorKind) : BitVec 4 :=
  match e with
  | .none => 0
  | .formatError => 1
  | .checksumError => 2
  | .unsupportedMode => 3
  | .orderingFault => 4
  | .addressRangeFault => 5
  | .sequenceFault => 6
  | .illegalCommand => 7
  | .illegalOperand => 8

/-- The error a `dres` reports (60_exceptions.md R140, "the result buffers"; R148): 1, 2 and 6 of the codes. -/
def DecodeBuffer.error (b : DecodeBuffer) : ErrorKind :=
  match b with
  | .none => .none
  | .ok _ => .none
  | .eos => .none
  | .formatError _ => .formatError
  | .checksumError => .checksumError
  | .sequenceFault => .sequenceFault

/-- The error an `eres` reports (60_exceptions.md R140, R148): 8 of the codes, IllegalOperand, which no error register
ever holds. -/
def EncodeBuffer.error (b : EncodeBuffer) : ErrorKind :=
  match b with
  | .none => .none
  | .ok _ => .none
  | .illegalOperand => .illegalOperand

/-- `dsub`, 3 bits (R18). -/
def subCode (c : SubCause) : BitVec 3 :=
  match c with
  | .none => 0
  | .missingStartMarker => 1
  | .badHexDigit => 2
  | .wrongLineLength => 3
  | .reservedType => 4

/-- `GSTAT`: bits 1:0 `gphase`, bits 5:2 `gerr`, bits 7:6 read 0. -/
def State.gstat (s : State) : BitVec 8 := (0 : BitVec 2) ++ s.gerr.code ++ s.gphase.code

/-- `DSTAT`: bits 1:0 `dphase`, bits 5:2 `derr`, bits 8:6 `dsub`, bits 15:9 read 0. -/
def State.dstat (s : State) : BitVec 16 := (0 : BitVec 7) ++ subCode s.dsub ++ s.derr.code ++ s.dphase.code

/-- The width of the status register of an index. -/
def statusWidth (index : Fin 11) : Nat :=
  match index.val with
  | 0 => 8
  | 1 => 8
  | 5 => 33
  | 6 => 16
  | 9 => 16
  | 10 => 16
  | _ => 32

/-- What a read of the status register of an index gives, zero-extended to the widest of them, 33 bits. -/
def State.status (s : State) (index : Fin 11) : BitVec 33 :=
  match index.val with
  | 0 => s.gstat.setWidth 33
  | 1 => s.mode.setWidth 33
  | 2 => s.cur.setWidth 33
  | 3 => s.segbase.setWidth 33
  | 4 => s.gea.setWidth 33
  | 5 => s.geb
  | 6 => s.dstat.setWidth 33
  | 7 => s.lineno.setWidth 33
  | 8 => s.dline.setWidth 33
  | 9 => s.dexp.setWidth 33
  | _ => s.dact.setWidth 33

end Sys2Proof.Machine
end

