-- ==== Sys2Proof/Machine/Ops.lean ====
section
/-! DEFINITION. The operations the meanings share: writing to OUT, the four emissions, taking a generator error,
taking a decoder error, leaving them, and the codec's two result buffers. -/

namespace Sys2Proof.Machine

/-! ### OUT (40_record_encode.md R77 to R81) -/

/-- `WriteLine(line)`: `out <- out ++ line ++ [NEWLINE]` (R77). -/
def writeLine (line : Line) (s : State) : State := { s with out := s.out ++ (line ++ [newline]) }

/-- `EmitData(a16, chunk)` (R78). -/
def emitData (a16 : BitVec 16) (chunk : List Byte) (s : State) : State := writeLine (encodeLine 0 a16 chunk) s

/-- `EmitEOF()` (R79). -/
def emitEOF (s : State) : State := writeLine (encodeLine 1 0 []) s

/-- The two data bytes of an ELA record: `[sb[31:24], sb[23:16]]` (R80). -/
def elaPayload (sb : BitVec 32) : List Byte := [sb.extractLsb' 24 8, sb.extractLsb' 16 8]

/-- `EmitELA(sb)`; the address field 0x0000 is the spec's decision D7 (R80). -/
def emitELA (sb : BitVec 32) (s : State) : State := writeLine (encodeLine 4 0 (elaPayload sb)) s

/-- The two data bytes of an ESA record: `S = sb >> 4`, `[S[15:8], S[7:0]]` (R81). -/
def esaPayload (sb : BitVec 32) : List Byte := [(sb >>> 4).extractLsb' 8 8, (sb >>> 4).extractLsb' 0 8]

/-- `EmitESA(sb)`; the address field 0x0000 is the spec's decision D7 (R81). -/
def emitESA (sb : BitVec 32) (s : State) : State := writeLine (encodeLine 2 0 (esaPayload sb)) s

/-! ### Errors: entry and recovery (60_exceptions.md R146, R147, R151) -/

/-- Generator fault entry, for `raise E(a, b)` (R146): the error is recorded and the phase is `G_FAULT`, nothing else
changes; in `G_FAULT` the first error is kept (R149). -/
def raiseGen (e : ErrorKind) (a : BitVec 32) (b : BitVec 33) (s : State) : State :=
  if s.gphase = .fault then s else { s with gerr := e, gea := a, geb := b, gphase := .fault }

/-- Leaving a generator error: `GEN_START` opens a run, "a new, empty run" that "overwrites all generator error
registers" (R151, 42_layout_sequencer.md R110). -/
def openRun (m : Byte) (s : State) : State :=
  { s with
    out := [], cur := 0, segbase := 0, mode := m, gea := 0, geb := 0,
    gerr := if modeSupported m then .none else .unsupportedMode,
    gphase := if modeSupported m then .run else .fault }

/-- Decoder fault entry (R147, 41_record_decode.md R100). -/
def raiseDec (e : ErrorKind) (sub : SubCause) (exp act : BitVec 16) (res : DecodeBuffer) (s : State) : State :=
  { s with
    dphase := .fault, derr := e, dsub := sub, dline := s.lineno, dexp := exp, dact := act, dres := res }

/-- Leaving `D_EOS` and `D_FAULT` (R151): `DEC_OPEN` starts a new line stream (41_record_decode.md R99). -/
def openStream (s : State) : State :=
  { s with
    dphase := .ready, lineno := 0, derr := .none, dsub := .none, dline := 0, dexp := 0, dact := 0, dres := .none }

/-- A reserved `op` code (30_encoding.md R60): IllegalCommand with `gea` the code. -/
def illegalCommand (op : BitVec 3) (s : State) : State := raiseGen .illegalCommand (op.setWidth 32) 0 s

/-! ### The codec -/

/-- What `REC_ENC` leaves in `eres` (40_record_encode.md R75). -/
def encodeResult (rtype : Byte) (raddr : BitVec 16) (bytes : List Byte) : EncodeBuffer :=
  if rtype.toNat > 5 then .illegalOperand else .ok (encodeLine rtype raddr bytes)

/-- One line through the decoder (41_record_decode.md R100); `lc` is `DEC_LOWERCASE_OK`. -/
def consumeLine (lc : Bool) (raw : Line) (s : State) : State :=
  if s.dphase = .ready then
    let s1 := countLine s
    if trim raw = [] then { s1 with dphase := .eos, dres := .eos }
    else
      match decodeLine lc (trim raw) with
      | .ok r => { s1 with dres := .ok r }
      | .formatError sub exp act =>
        raiseDec .formatError sub (BitVec.ofNat 16 exp) (BitVec.ofNat 16 act) (.formatError sub) s1
      | .checksumError computed declared =>
        raiseDec .checksumError .none (computed.setWidth 16) (declared.setWidth 16) .checksumError s1
  else { s with dres := .sequenceFault }

/-- A meaning over a data payload: more than 255 bytes cannot be presented (30_encoding.md R59). -/
def withPayload (bytes : List Byte) (s : State) : Result :=
  if payloadFits bytes then .next s else .refused .dataTooLong

end Sys2Proof.Machine
end

