-- ==== Sys2Proof/Machine/CodecUnits.lean ====
section
/-! DEFINITION. Units REC and DEC: `REC_ENC`, `DEC_OPEN`, `DEC_LINE`. -/

namespace Sys2Proof.Machine

/-- `REC_ENC rtype, raddr, data` (40_record_encode.md R75): writes `eres` only. -/
def execRecEnc (rtype : Byte) (raddr : BitVec 16) (bytes : List Byte) (s : State) : Result :=
  withPayload bytes { s with eres := encodeResult rtype raddr bytes }

/-- `DEC_OPEN` (41_record_decode.md R99). -/
def execDecOpen (s : State) : Result := .next (openStream s)

/-- `DEC_LINE raw` (41_record_decode.md R100); a line of more than 65535 characters cannot be presented (D23). -/
def execDecLine (raw : Line) (s : State) : Result :=
  if lineFits raw then .next (consumeLine Config.decLowercaseOk raw s) else .refused .lineTooLong

end Sys2Proof.Machine
end

