-- ==== Sys2Proof/Machine/Records.lean ====
section
/-! DEFINITION. The six record types (30_encoding.md R54) as instructions: what one record does at the place where it
meets the machine. SEQ writes it to OUT; REC leaves its line in `eres`; DEC takes its line from LIN (log entry 4).
"The codec treats all six types alike" (R55). -/

namespace Sys2Proof.Machine

/-- A record in the codec: encoded by REC (40_record_encode.md R75) or decoded by DEC (41_record_decode.md R100). -/
def recordInCodec (via : CodecPort) (t : RecType) (raddr : BitVec 16) (bytes : List Byte) (s : State) : State :=
  match via with
  | .res => { s with eres := encodeResult t.code raddr bytes }
  | .lin => consumeLine Config.decLowercaseOk (encodeLine t.code raddr bytes) s

/-- A record at any of the three places; at OUT its line is written (40_record_encode.md R77). -/
def recordAt (via : RecordPort) (t : RecType) (raddr : BitVec 16) (bytes : List Byte) (s : State) : State :=
  match via with
  | .out => writeLine (encodeLine t.code raddr bytes) s
  | .res => recordInCodec .res t raddr bytes s
  | .lin => recordInCodec .lin t raddr bytes s

/-- `DATA`, TT 00 (R78). -/
def execData (via : RecordPort) (raddr : BitVec 16) (bytes : List Byte) (s : State) : Result :=
  withPayload bytes (recordAt via .data raddr bytes s)

/-- `EOF`, TT 01 (R79). -/
def execEof (via : RecordPort) (raddr : BitVec 16) (bytes : List Byte) (s : State) : Result :=
  withPayload bytes (recordAt via .eof raddr bytes s)

/-- `ESA`, TT 02 (R81). -/
def execEsa (via : RecordPort) (raddr : BitVec 16) (bytes : List Byte) (s : State) : Result :=
  withPayload bytes (recordAt via .esa raddr bytes s)

/-- `SSA`, TT 03 (R82): the codec only; the spec gives it no payload format and no meaning beyond the record. -/
def execSsa (via : CodecPort) (raddr : BitVec 16) (bytes : List Byte) (s : State) : Result :=
  withPayload bytes (recordInCodec via .ssa raddr bytes s)

/-- `ELA`, TT 04 (R80). -/
def execEla (via : RecordPort) (raddr : BitVec 16) (bytes : List Byte) (s : State) : Result :=
  withPayload bytes (recordAt via .ela raddr bytes s)

/-- `SLA`, TT 05 (R82): the codec only. -/
def execSla (via : CodecPort) (raddr : BitVec 16) (bytes : List Byte) (s : State) : Result :=
  withPayload bytes (recordInCodec via .sla raddr bytes s)

end Sys2Proof.Machine
end

