-- ==== Sys2Proof/Machine/Sequencer.lean ====
section
/-! DEFINITION. Unit SEQ (42_layout_sequencer.md): `GEN_START`, `GEN_ENTRY`, `GEN_END`. -/

namespace Sys2Proof.Machine

/-- `GEN_START m` (R110): legal in every phase. -/
def execGenStart (m : Byte) (s : State) : Result := .next (openRun m s)

/-- Step 2a of `GEN_ENTRY` (R116, R117): nothing when `cur` is a window offset; otherwise the new base `nsb` is
checked, and either it is the error, or the extension record is emitted and `cur` masked. -/
def windowAdvance (s : State) : Except (BitVec 33) State :=
  if s.windowPart = 0 then .ok s
  else if baseUnrepresentable s.mode s.nextBase then .error s.nextBase
  else
    let sb := s.nextBase.setWidth 32
    let s1 := { s with segbase := sb }
    let s2 := if s.mode = 4 then emitELA sb s1 else emitESA sb s1
    .ok { s2 with cur := s.cur &&& 0x0000FFFF }

/-- Step 2d of `GEN_ENTRY` (R120): the Data record of the chunk, and `cur <- cur + n`. -/
def placeChunk (chunk : List Byte) (s : State) : State :=
  { emitData (s.cur.extractLsb' 0 16) chunk s with cur := s.cur + BitVec.ofNat 32 chunk.length }

/-- Step 2 of `GEN_ENTRY` (R111, R115): one pass per Data record. `passes` bounds the passes; `len(src)` suffice,
since every pass reads a byte (R115, R171). -/
def placeBytes (passes : Nat) (la : BitVec 32) (unread : List Byte) (s : State) : Result :=
  match passes with
  | 0 => .next s
  | passes + 1 =>
    if srcRemain unread then
      match recLen s.mode with
      | none => .fault .unsupportedModeInRun
      | some len =>
        match windowAdvance s with
        | .error nsb => .next (raiseGen .addressRangeFault la nsb s)
        | .ok s1 =>
          let r := srcRead (chunkSize len s1.cur unread) unread
          placeBytes passes la r.2 (placeChunk r.1 s1)
    else .next s

/-- Steps 1 and 2 of `GEN_ENTRY` in a run: the order check (R113), the address assignment (R114), the bytes. -/
def enterSource (la : BitVec 32) (src : List Byte) (s : State) : Result :=
  if la.toNat < s.runAddr.toNat then .next (raiseGen .orderingFault la s.runAddr s)
  else placeBytes src.length la src { s with cur := la - s.segbase }

/-- `GEN_ENTRY la, src` (R111, phases of R124). -/
def execGenEntry (la : BitVec 32) (src : List Byte) (s : State) : Result :=
  match s.gphase with
  | .fault => .next s
  | .run => enterSource la src s
  | .idle => .next (raiseGen .sequenceFault 1 0 s)
  | .done => .next (raiseGen .sequenceFault 1 0 s)

/-- `GEN_END` (R121, phases of R124). -/
def execGenEnd (s : State) : Result :=
  match s.gphase with
  | .fault => .next s
  | .run => .next { emitEOF s with gphase := .done }
  | .idle => .next (raiseGen .sequenceFault 2 0 s)
  | .done => .next (raiseGen .sequenceFault 2 0 s)

/-- Reserved `op` 6 (30_encoding.md R60). -/
def execReservedOp6 (s : State) : Result := .next (illegalCommand 6 s)

/-- Reserved `op` 7 (30_encoding.md R60). -/
def execReservedOp7 (s : State) : Result := .next (illegalCommand 7 s)

end Sys2Proof.Machine
end

