-- ==== Sys2Proof/Machine/Dispatch.lean ====
section
/-! DEFINITION. One arm per constructor of Instr: each calls its instruction's meaning. -/

namespace Sys2Proof.Machine

def exec (i : Instr) (s : State) : Host.Outcome State Fault Refusal :=
  match i with
  | .genStart m => Sys2Proof.Machine.execGenStart m s
  | .genEntry la src => Sys2Proof.Machine.execGenEntry la src s
  | .genEnd => Sys2Proof.Machine.execGenEnd s
  | .recEnc rtype raddr bytes => Sys2Proof.Machine.execRecEnc rtype raddr bytes s
  | .decOpen => Sys2Proof.Machine.execDecOpen s
  | .decLine raw => Sys2Proof.Machine.execDecLine raw s
  | .reservedOp6 => Sys2Proof.Machine.execReservedOp6 s
  | .reservedOp7 => Sys2Proof.Machine.execReservedOp7 s
  | .data via raddr bytes => Sys2Proof.Machine.execData via raddr bytes s
  | .eof via raddr bytes => Sys2Proof.Machine.execEof via raddr bytes s
  | .esa via raddr bytes => Sys2Proof.Machine.execEsa via raddr bytes s
  | .ssa via raddr bytes => Sys2Proof.Machine.execSsa via raddr bytes s
  | .ela via raddr bytes => Sys2Proof.Machine.execEla via raddr bytes s
  | .sla via raddr bytes => Sys2Proof.Machine.execSla via raddr bytes s

end Sys2Proof.Machine
end

