-- ==== Sys2Proof/Machine/Port.lean ====
section
/-! DEFINITION. The host's side of the machine: what the next pending input is, and what the inputs that are not
commands do (log entries 1, 6 and 15). -/

namespace Sys2Proof.Machine

/-- What waits at the ports: nothing, or an input and the state in which it has been taken off. -/
inductive Fetched where
  | nothing
  | input (x : HostInput) (s : State)
  deriving DecidableEq, Repr

/-- The next input in the host's order (20_memory.md R41, 70_reset_and_hazards.md R166). -/
def fetch (s : State) : Fetched :=
  match s.port with
  | [] => .nothing
  | x :: rest => .input x { s with port := rest }

/-- `RST` (70_reset_and_hazards.md R160): every state element takes its reset value; what the host has still to
present, and the model's count of free values, are no elements of the spec's state. -/
def applyReset (s : State) : State := { State.reset with port := s.port, freeCount := s.freeCount }

/-- "reading a status register changes nothing" (20_memory.md R39); what is read is `State.status`. -/
def afterStatusRead (_index : Fin 11) (s : State) : State := s

/-- "All eleven are read-only to the host; a host write has no effect" (10_state.md). -/
def afterStatusWrite (_index : Fin 11) (_value : BitVec 33) (s : State) : State := s

/-- The refusal of a command word that decodes to no instruction. -/
def refusalOf (e : DecodeReject) : Refusal :=
  match e with
  | .dataTooLong => .dataTooLong
  | .lineTooLong => .lineTooLong
  | .notARecord => .notACommand
  | .neverEmitted => .notACommand

end Sys2Proof.Machine
end

