-- ==== Sys2Proof/Machine/Step.lean ====
section
/-! DEFINITION. One step: the next host input. With nothing pending HEXGEN waits (70_reset_and_hazards.md R160). -/

namespace Sys2Proof.Machine

/-- One step of the machine. -/
def step (s : State) : Host.Outcome State Fault Refusal :=
  match fetch s with
  | .nothing => .next s
  | .input .rst s1 => .next (applyReset s1)
  | .input (.readStatus index) s1 => .next (afterStatusRead index s1)
  | .input (.writeStatus index value) s1 => .next (afterStatusWrite index value s1)
  | .input (.command w) s1 =>
    match decodeCommand w with
    | .ok i => exec i s1
    | .error e => .refused (refusalOf e)

/-- `s` with the word of the table presented as the next input (log entries 2 and 3). A record line on LIN is
presented with `DEC_LINE`. -/
def State.withFetchWord (s : State) (nbits w : Nat) : State :=
  match (tableEncoded nbits w).bind presentingCommand with
  | none => s
  | some c => { s with port := .command c :: s.port }

end Sys2Proof.Machine
end

