-- ==== Sys2Proof/Machine/Pseudo.lean ====
section
/-! DEFINITION. The two pseudo-operations (30_encoding.md R63): each an expansion into commands. -/

namespace Sys2Proof.Machine

/-- Commands one after the other, each on the state the one before it left. -/
def runCommands (is : List Instr) (s : State) : Result :=
  match is with
  | [] => .next s
  | i :: rest =>
    match exec i s with
    | .next t => runCommands rest t
    | .fault r => .fault r
    | .refused r => .refused r

/-- `GENERATE m, [(la0, src0), ...]` (42_layout_sequencer.md R123). -/
def generateCommands (m : Byte) (entries : List (BitVec 32 × List Byte)) : List Instr :=
  .genStart m :: (entries.map fun e => .genEntry e.1 e.2) ++ [.genEnd]

/-- `GENERATE` as a whole. -/
def generate (m : Byte) (entries : List (BitVec 32 × List Byte)) (s : State) : Result :=
  runCommands (generateCommands m entries) s

/-- "Its result is `out` if it ends in `G_DONE`; otherwise it is the error in `gerr`" (R123). -/
def generateResult (t : State) : Except ErrorKind Line :=
  if t.gphase = .done then .ok t.out else .error t.gerr

/-- The lines of `DECODE_FILE` after its `DEC_OPEN`, "until a `DEC_LINE` leaves `dphase != D_READY`" or none is left
(41_record_decode.md R101), with the records of the `DR_OK` results in line order. -/
def decodeLines (lines : List Line) (done : List HexRecord) (s : State) :
    Host.Outcome (State × List HexRecord) Fault Refusal :=
  match lines with
  | [] => .next (s, done)
  | line :: rest =>
    match exec (.decLine line) s with
    | .next t =>
      if t.dphase = .ready then
        match t.dres with
        | .ok r => decodeLines rest (done ++ [r]) t
        | _ => decodeLines rest done t
      else .next (t, done)
    | .fault r => .fault r
    | .refused r => .refused r

/-- `DECODE_FILE [line1, ..., linek]` (R101): the final state and the records decoded on the way. -/
def decodeFile (lines : List Line) (s : State) : Host.Outcome (State × List HexRecord) Fault Refusal :=
  match exec .decOpen s with
  | .next t => decodeLines lines [] t
  | .fault r => .fault r
  | .refused r => .refused r

/-- "it is the error if it ended in `D_FAULT`", else the records (R101). -/
def decodeFileResult (t : State) (done : List HexRecord) : Except ErrorKind (List HexRecord) :=
  if t.dphase = .fault then .error t.derr else .ok done

end Sys2Proof.Machine
end

