-- ==== Sys2Proof/Safety.lean ====
section
/-! DEFINITION. What claims about HEXGEN are stated in: which parts of two states agree, what a reader of the emitted
text places where (20_memory.md R31 to R33), the layout of an entry in absolute addresses, and the invariant. -/

namespace Sys2Proof.Safety

open Sys2Proof.Machine

/-! ### Parts of the state (10_state.md R10: units SEQ, DEC, REC) -/

/-- The elements of unit SEQ but `out`. -/
abbrev SameLayout (s t : State) : Prop :=
  t.gphase = s.gphase ∧ t.mode = s.mode ∧ t.cur = s.cur ∧ t.segbase = s.segbase ∧
    t.gerr = s.gerr ∧ t.gea = s.gea ∧ t.geb = s.geb

/-- Every element of unit SEQ. -/
abbrev SameGenerator (s t : State) : Prop := SameLayout s t ∧ t.out = s.out

/-- Every element of unit DEC. -/
abbrev SameDecoder (s t : State) : Prop :=
  t.dphase = s.dphase ∧ t.lineno = s.lineno ∧ t.derr = s.derr ∧ t.dsub = s.dsub ∧ t.dline = s.dline ∧
    t.dexp = s.dexp ∧ t.dact = s.dact ∧ t.dres = s.dres

/-- The model's own fields. -/
abbrev SameHost (s t : State) : Prop := t.port = s.port ∧ t.freeCount = s.freeCount

/-- Two results end in the same way: in next states that agree as `same` says, in one fault, or in one refusal. What
an instruction does not read cannot make its results differ. -/
def SameOutcome (same : State → State → Prop) (x y : Result) : Prop :=
  match x, y with
  | .next t, .next t' => same t t'
  | .fault r, .fault r' => r = r'
  | .refused r, .refused r' => r = r'
  | _, _ => False

/-! ### Texts -/

/-- The text of a sequence of records: each line and its NEWLINE (40_record_encode.md R77). -/
def textOf (rs : List HexRecord) : Line := rs.flatMap fun r => r.line ++ [newline]

/-- The lines of a text, split at NEWLINE. -/
def splitLines (text : Line) : List Line :=
  match text with
  | [] => []
  | c :: rest =>
    if c = newline then [] :: splitLines rest
    else
      match splitLines rest with
      | [] => [[c]]
      | l :: ls => (c :: l) :: ls

/-- The record a line decodes to, if it does. -/
def lineRecord (line : Line) : Option HexRecord :=
  match decodeLine false line with
  | .ok r => some r
  | _ => none

/-- The records of a text, if every line decodes. -/
def readText (text : Line) : Option (List HexRecord) := (splitLines text).mapM lineRecord

/-- The uppercase spelling of a hexadecimal digit character; every other character is itself (30_encoding.md R53). -/
def upperDigit (c : Byte) : Byte := if 0x61 ≤ c.toNat ∧ c.toNat ≤ 0x66 then c - 0x20 else c

/-- The 18 characters of OUT (20_memory.md R37). -/
def isOutChar (c : Byte) : Bool := c == newline || c == colon || (hexval false c).isSome

/-! ### What a reader of the text places (20_memory.md R31, R32, R33) -/

/-- Bytes at consecutive addresses from `a`. -/
def cells (a : Nat) (bytes : List Byte) : List Host.Cell :=
  match bytes with
  | [] => []
  | b :: rest => (a, b) :: cells (a + 1) rest

/-- `base` after a record: an ELA record with value `E` sets `E << 16` (R32), an ESA record with value `S` sets
`S << 4` (R33), any other leaves it. -/
def baseAfter (base : Nat) (r : HexRecord) : Nat :=
  match r.recordType, r.data with
  | .ela, [h, l] => (h ++ l).toNat * 0x10000
  | .esa, [h, l] => (h ++ l).toNat * 0x10
  | _, _ => base

/-- `base` after a sequence of records. -/
def finalBase (base : Nat) (rs : List HexRecord) : Nat := rs.foldl baseAfter base

/-- The bytes a sequence of records places: data byte `i` of a Data record at `base + AAAA + i` (R31). -/
def image (base : Nat) (rs : List HexRecord) : List Host.Cell :=
  match rs with
  | [] => []
  | r :: rest =>
    (if r.recordType = .data then cells (base + r.address.toNat) r.data else []) ++ image (baseAfter base r) rest

/-! ### The layout of an entry, in absolute addresses (42_layout_sequencer.md, the source's §4.2) -/

/-- The base of the window an address lies in: windows are 0x10000 bytes at multiples of 0x10000 (20_memory.md R40). -/
def windowOf (a : Nat) : Nat := a / 0x10000 * 0x10000

/-- A record with its computed checksum (10_state.md R20). -/
def mkRecord (t : RecType) (a : BitVec 16) (bytes : List Byte) : HexRecord :=
  { recordType := t, address := a, data := bytes, checksum := checksum t.code a bytes }

/-- The End-Of-File record (40_record_encode.md R79). -/
def eofRecord : HexRecord := mkRecord .eof 0 []

/-- The two bytes of a 16-bit extension value, high byte first (20_memory.md R34). -/
def valueBytes (v : BitVec 16) : List Byte := [hi8 v, lo8 v]

/-- The extension record of a window base: mode 4 carries `base >> 16` (R32), mode 2 carries `base >> 4` (R33). -/
def extRecord (m : Byte) (base : Nat) : HexRecord :=
  if m = 4 then mkRecord .ela 0 (valueBytes (BitVec.ofNat 16 (base / 0x10000)))
  else mkRecord .esa 0 (valueBytes (BitVec.ofNat 16 (base / 0x10)))

/-- The records of `bytes` placed at the absolute address `a` when the reader's base is `base`: at each point as many
bytes as `len`, the window's end and the source allow (R118, R119); an extension record first when the byte's window
is not `base` (R116); bytes at consecutive addresses. `passes` bounds the recursion, one record each. -/
def layout (passes : Nat) (m : Byte) (len base a : Nat) (bytes : List Byte) : List HexRecord :=
  match passes, bytes with
  | 0, _ => []
  | _ + 1, [] => []
  | passes + 1, b :: rest =>
    let w := windowOf a
    let n := min (min len (w + 0x10000 - a)) (rest.length + 1)
    (if w = base then [] else [extRecord m w]) ++
      mkRecord .data (BitVec.ofNat 16 (a - w)) ((b :: rest).take n) ::
        layout passes m len w (a + n) ((b :: rest).drop n)

/-- The layout of a whole source. -/
def layoutOf (m : Byte) (len base a : Nat) (bytes : List Byte) : List HexRecord :=
  layout bytes.length m len base a bytes

/-- The shape of every record SEQ emits in a run of mode `m` (30_encoding.md R54): Data of 1 to RECLEN bytes inside
one window, ELA in mode 4 or ESA in mode 2 with two bytes at address 0, End-Of-File empty at address 0. -/
def emittedShape (m : Byte) (r : HexRecord) : Bool :=
  decide (r.checksum = checksum r.recordType.code r.address r.data) &&
  match r.recordType with
  | .data =>
    decide (1 ≤ r.data.length) && decide (r.data.length ≤ (recLen m).getD 0) &&
      decide (r.address.toNat + r.data.length ≤ 0x10000)
  | .ela => decide (m = 4) && decide (r.address = 0) && decide (r.data.length = 2)
  | .esa => decide (m = 2) && decide (r.address = 0) && decide (r.data.length = 2)
  | .eof => decide (r = eofRecord)
  | .ssa => false
  | .sla => false

/-! ### What the host may present -/

/-- An input the interface allows: any but a command with operands "that cannot be presented" (30_encoding.md R59,
decision D23). -/
def presentable (x : HostInput) : Bool :=
  match x with
  | .command w =>
    match decodeCommand w with
    | .ok _ => true
    | .error _ => false
  | .rst => true
  | .readStatus _ => true
  | .writeStatus _ _ => true

/-- The next input opens a run: `GEN_START`. -/
def opensRun (x : HostInput) : Bool :=
  match x with
  | .command w => w.op == 0
  | _ => false

/-- The next input opens a line stream: `DEC_OPEN`. -/
def opensStream (x : HostInput) : Bool :=
  match x with
  | .command w => w.op == 4
  | _ => false

/-! ### The invariant -/

/-- Unit SEQ's registers: 42_layout_sequencer.md R112 (a), (b), R117, 10_state.md R13, R15. -/
structure LayoutInv (s : State) : Prop where
  base_aligned : s.segbase.toNat % 0x10000 = 0
  run_bound : s.cur.toNat + s.segbase.toNat ≤ 0x100000000
  segmented_base : s.mode = 2 → s.segbase.toNat ≤ 0xF0000
  mode_supported : s.gphase = .run ∨ s.gphase = .done → modeSupported s.mode = true
  error_iff_fault : s.gerr = .none ↔ s.gphase ≠ .fault
  error_kind : s.gerr ∈ [ErrorKind.none, .unsupportedMode, .orderingFault, .addressRangeFault, .sequenceFault, .illegalCommand]
  context_clear : s.gphase ≠ .fault → s.gea = 0 ∧ s.geb = 0

/-- The emitted text (10_state.md R16, 20_memory.md R37, 40_record_encode.md R83, 42_layout_sequencer.md R122): it is
the lines of a sequence of records of the shapes SEQ emits, at most the last of them an End-Of-File record, which is
there in `G_DONE`; a reader of it is in window `segbase`, and has placed every byte once, in ascending address order,
below the running address. -/
def TextInv (s : State) : Prop :=
  ∃ body : List HexRecord,
    (∀ r ∈ body, emittedShape s.mode r = true ∧ r.recordType ≠ .eof) ∧
    (s.out = textOf body ∧ s.gphase ≠ .done ∨
      s.out = textOf (body ++ [eofRecord]) ∧ (s.gphase = .done ∨ s.gphase = .fault)) ∧
    finalBase 0 body = s.segbase.toNat ∧
    (image 0 body).Pairwise (fun c d => c.1 < d.1) ∧
    (∀ c ∈ image 0 body, c.1 < s.cur.toNat + s.segbase.toNat)

/-- Unit DEC's registers (10_state.md R17, R18), and the error `dres` reports (60_exceptions.md R140, R147, R148): the
one in `derr` and its sub-cause, or the SequenceFault of a line given after the stream ended. -/
structure DecoderInv (s : State) : Prop where
  error_iff_fault : s.derr = .none ↔ s.dphase ≠ .fault
  error_kind : s.derr ∈ [ErrorKind.none, .formatError, .checksumError]
  sub_iff_format : s.dsub ≠ .none ↔ s.derr = .formatError
  context_clear : s.dphase ≠ .fault → s.dline = 0 ∧ s.dexp = 0 ∧ s.dact = 0
  failing_line : s.dphase = .fault → s.dline = s.lineno
  result_error : s.dres.error = s.derr ∨ s.dphase ≠ .ready ∧ s.dres = .sequenceFault
  result_sub : ∀ sub, s.dres = .formatError sub → s.dsub = sub

/-- The result buffers (10_state.md R19, R20): a record in `dres` carries its computed checksum, a line in `eres` is
the encoding of a record of one of the six types. -/
structure BufferInv (s : State) : Prop where
  record_checked : ∀ r, s.dres = .ok r →
    r.data.length ≤ 255 ∧ r.checksum = checksum r.recordType.code r.address r.data
  line_encoded : ∀ line, s.eres = .ok line →
    ∃ (t : RecType) (a : BitVec 16) (bytes : List Byte), bytes.length ≤ 255 ∧ line = encodeLine t.code a bytes

/-- The invariant of the machine. -/
structure Inv (s : State) : Prop where
  layout : LayoutInv s
  text : TextInv s
  decoder : DecoderInv s
  buffers : BufferInv s

end Sys2Proof.Safety
end

