-- ==== Sys2Proof/Certificates/Slice0/Obligations.lean ====
section
/-! DEFINITION. The statements for the provers. Each says which rule of spec/ it formalises. Where a statement gives
the whole next state (`s with ...`), every element not named is unchanged: that is the instruction's frame. -/

open Sys2Proof Sys2Proof.Machine Sys2Proof.Safety

/-! ### Reset, the step, the ports -/

/-- 10_state.md R22, the table of reset values (the reset itself is the spec's decision D4). -/
def Obligations.ResetStateIsAsTabled : Prop :=
  State.reset.gphase = .idle ∧ State.reset.gphase.code = 0 ∧ State.reset.mode = 0 ∧ State.reset.cur = 0 ∧
    State.reset.segbase = 0 ∧ State.reset.out = [] ∧ State.reset.gerr = .none ∧ State.reset.gerr.code = 0 ∧
    State.reset.gea = 0 ∧ State.reset.geb = 0 ∧ State.reset.dphase = .ready ∧ State.reset.dphase.code = 0 ∧
    State.reset.lineno = 0 ∧ State.reset.derr = .none ∧ State.reset.derr.code = 0 ∧ State.reset.dsub = .none ∧
    subCode State.reset.dsub = 0 ∧ State.reset.dline = 0 ∧
    State.reset.dexp = 0 ∧ State.reset.dact = 0 ∧ State.reset.dres = .none ∧ State.reset.eres = .none

/-- 70_reset_and_hazards.md R160 (decision D4): RST gives every element its reset value and has no other effect
(inputs still pending and the model's count of free values are the host's and the model's, log entries 1 and 5); reset
then `GEN_START m` is `GEN_START m` alone, reset is `DEC_OPEN` as far as the decoder goes; with nothing presented
HEXGEN waits. -/
def Obligations.ResetInputAppliesResetValues : Prop :=
  (∀ (s : State) (rest : List HostInput), s.port = .rst :: rest →
      step s = .next { State.reset with port := rest, freeCount := s.freeCount }) ∧
    (∀ (s : State) (m : Byte), ∃ t u, exec (.genStart m) (applyReset s) = .next t ∧ exec (.genStart m) s = .next u ∧
      SameGenerator t u) ∧
    (∀ s : State, ∃ t, exec .decOpen s = .next t ∧ SameDecoder t (applyReset s)) ∧
    (∀ s : State, s.port = [] → step s = .next s)

/-- A step runs the command the word decodes to, on the state in which the command has been taken off the port; it
adds nothing else. -/
def Obligations.StepRunsTheDecodedCommand : Prop :=
  ∀ (s : State) (w : CommandWord) (rest : List HostInput) (i : Instr),
    s.port = .command w :: rest → decodeCommand w = .ok i → step s = exec i { s with port := rest }

/-- 30_encoding.md R59 and decision D23: what "cannot be presented" is refused by name (log entry 9), nothing else
is rejected. 30_encoding.md R58, R60 (decisions D2, D3): every other command word decodes to the instruction of its
`op`, with the operands in the lanes of that row, whatever stands in the other lanes (log entry 13). -/
def Obligations.OnlyUnpresentableCommandsAreRejected : Prop :=
  (∀ (s : State) (w : CommandWord) (rest : List HostInput), s.port = .command w :: rest →
    (w.op = 3 → 255 < w.bytes.length → step s = .refused .dataTooLong) ∧
    (w.op = 5 → 65535 < w.raw.length → step s = .refused .lineTooLong)) ∧
  (∀ w : CommandWord,
    (w.op = 0 → decodeCommand w = .ok (.genStart w.m)) ∧
    (w.op = 1 → decodeCommand w = .ok (.genEntry w.la w.src)) ∧
    (w.op = 2 → decodeCommand w = .ok .genEnd) ∧
    (w.op = 3 → w.bytes.length ≤ 255 → decodeCommand w = .ok (.recEnc w.rtype w.raddr w.bytes)) ∧
    (w.op = 4 → decodeCommand w = .ok .decOpen) ∧
    (w.op = 5 → w.raw.length ≤ 65535 → decodeCommand w = .ok (.decLine w.raw)) ∧
    (w.op = 6 → decodeCommand w = .ok .reservedOp6) ∧
    (w.op = 7 → decodeCommand w = .ok .reservedOp7)) ∧
  (∀ w : CommandWord, (w.op = 3 → w.bytes.length ≤ 255) → (w.op = 5 → w.raw.length ≤ 65535) →
    ∃ i, decodeCommand w = .ok i)

/-- 20_memory.md R39 ("reading a status register changes nothing") and 10_state.md ("a host write has no effect"). -/
def Obligations.StatusAccessChangesNothing : Prop :=
  (∀ (s : State) (index : Fin 11) (rest : List HostInput),
      s.port = .readStatus index :: rest → step s = .next { s with port := rest }) ∧
    (∀ (s : State) (index : Fin 11) (value : BitVec 33) (rest : List HostInput),
      s.port = .writeStatus index value :: rest → step s = .next { s with port := rest })

/-- The status register table of 10_state.md (decision D10): contents, widths, and the fields of GSTAT and DSTAT. -/
def Obligations.StatusRegisterFields : Prop :=
  (∀ s : State,
      s.gstat.extractLsb' 0 2 = s.gphase.code ∧ s.gstat.extractLsb' 2 4 = s.gerr.code ∧
        s.gstat.extractLsb' 6 2 = 0 ∧
        s.dstat.extractLsb' 0 2 = s.dphase.code ∧ s.dstat.extractLsb' 2 4 = s.derr.code ∧
        s.dstat.extractLsb' 6 3 = subCode s.dsub ∧ s.dstat.extractLsb' 9 7 = 0) ∧
    (∀ s : State,
      (s.status 0).toNat = s.gstat.toNat ∧ (s.status 1).toNat = s.mode.toNat ∧ (s.status 2).toNat = s.cur.toNat ∧
        (s.status 3).toNat = s.segbase.toNat ∧ (s.status 4).toNat = s.gea.toNat ∧
        (s.status 5).toNat = s.geb.toNat ∧ (s.status 6).toNat = s.dstat.toNat ∧
        (s.status 7).toNat = s.lineno.toNat ∧ (s.status 8).toNat = s.dline.toNat ∧
        (s.status 9).toNat = s.dexp.toNat ∧ (s.status 10).toNat = s.dact.toNat) ∧
    (∀ (s : State) (index : Fin 11), (s.status index).toNat < 2 ^ statusWidth index)

/-- The numbers of the enumerated elements: 10_state.md R14, R17, R18, 60_exceptions.md R140; and the codes the result
buffers report (R140: `dres` 1, 2 and 6, `eres` 8, 0 where there is no error). -/
def Obligations.CodesOfTheEnumeratedElements : Prop :=
  [GPhase.idle, .run, .done, .fault].map GPhase.code = [0, 1, 2, 3] ∧
    [DPhase.ready, .eos, .fault].map DPhase.code = [0, 1, 2] ∧
    [ErrorKind.none, .formatError, .checksumError, .unsupportedMode, .orderingFault, .addressRangeFault,
      .sequenceFault, .illegalCommand, .illegalOperand].map ErrorKind.code = [0, 1, 2, 3, 4, 5, 6, 7, 8] ∧
    [SubCause.none, .missingStartMarker, .badHexDigit, .wrongLineLength, .reservedType].map subCode = [0, 1, 2, 3, 4] ∧
    (∀ (r : HexRecord) (sub : SubCause),
      [DecodeBuffer.none, .ok r, .eos, .formatError sub, .checksumError, .sequenceFault].map (fun b => b.error.code) =
        [0, 0, 0, 1, 2, 6]) ∧
    (∀ line : Line, [EncodeBuffer.none, .ok line, .illegalOperand].map (fun b => b.error.code) = [0, 0, 8])

/-! ### Encodings -/

/-- Words written out from 30_encoding.md: the eight `op` codes (R58, R60), two record lines, one of type 01 and one of
type 00 (R50, R54), and a line of type 06, which names none (R57). The ASCII codes are log entry 10. The places OUT
and LIN at which the lines are read, and so the first operand of the two record instructions, are the MODEL'S CHOICE of
log entry 4. -/
def Obligations.WrittenOutWordsDecode : Prop :=
  (decodeCommand { commandWord 0b000 with m := 4 } = .ok (.genStart 4) ∧
      decodeCommand { commandWord 0b001 with la := 0xFFFE, src := [1, 2] } = .ok (.genEntry 0xFFFE [1, 2]) ∧
      decodeCommand (commandWord 0b010) = .ok .genEnd ∧
      decodeCommand { commandWord 0b011 with rtype := 5, raddr := 0x30, bytes := [9] } = .ok (.recEnc 5 0x30 [9]) ∧
      decodeCommand (commandWord 0b100) = .ok .decOpen ∧
      decodeCommand { commandWord 0b101 with raw := [0x3A] } = .ok (.decLine [0x3A]) ∧
      decodeCommand (commandWord 0b110) = .ok .reservedOp6 ∧
      decodeCommand (commandWord 0b111) = .ok .reservedOp7) ∧
    -- ":00000001FF", ":0300300002337A1E", ":00000006FA"
    (decode (.record .out [0x3A, 0x30, 0x30, 0x30, 0x30, 0x30, 0x30, 0x30, 0x31, 0x46, 0x46]) = .ok (.eof .out 0 []) ∧
      decode (.record .lin [0x3A, 0x30, 0x33, 0x30, 0x30, 0x33, 0x30, 0x30, 0x30, 0x30, 0x32, 0x33, 0x33, 0x37, 0x41,
        0x31, 0x45]) = .ok (.data .lin 0x30 [0x02, 0x33, 0x7A]) ∧
      decode (.record .lin [0x3A, 0x30, 0x30, 0x30, 0x30, 0x30, 0x30, 0x30, 0x36, 0x46, 0x41]) = .error .notARecord)

/-- Every well-formed instruction, every operand at every value, is read back from its encoding. -/
def Obligations.DecodeEncodeRoundTrip : Prop :=
  ∀ i : Instr, i.wellFormed = true → decode (encode i) = .ok i

/-- Where a record line spells its digits in uppercase, as every encoder does (30_encoding.md R50), the instruction it
decodes to has that very line as its encoding: each such line has one reading and each record one spelling. -/
def Obligations.EncodeDecodeRoundTripForRecords : Prop :=
  ∀ (via : RecordPort) (line : Line) (i : Instr),
    (∀ c ∈ line, ¬(0x61 ≤ c.toNat ∧ c.toNat ≤ 0x66)) →
    decode (.record via line) = .ok i → encode i = .record via line

/-- What decodes is well-formed. -/
def Obligations.DecodedInstructionsAreWellFormed : Prop :=
  ∀ (e : Encoded) (i : Instr), decode e = .ok i → i.wellFormed = true

/-- A word of the opcode table, presented, is what the very next step runs (log entries 2 and 3). -/
def Obligations.TableWordRunsAsTheNextStep : Prop :=
  ∀ (s : State) (nbits w : Nat) (i : Instr),
    decodeTableWord nbits w = some i → step (s.withFetchWord nbits w) = exec i s

/-- The two instruction layers meet in `DEC_LINE`: bringing a line that is a record is running that record on LIN,
whatever its type (30_encoding.md R55) and whatever surrounds it (41_record_decode.md R91). -/
def Obligations.DecLineRunsTheRecordItBrings : Prop :=
  ∀ (s : State) (raw : Line) (r : HexRecord) (i : Instr), raw.length ≤ 65535 →
    decodeLine Config.decLowercaseOk (trim raw) = .ok r → recordInstr .lin r = some i →
    exec (.decLine raw) s = exec i s

/-! ### The record codec -/

/-- 40_record_encode.md R70: the exact sum, its bound, the checksum, the corner cases and the worked example. -/
def Obligations.ChecksumIsTheNegatedByteSum : Prop :=
  (∀ (t : Byte) (a : BitVec 16) (bytes : List Byte), bytes.length ≤ 255 →
      byteSum t a bytes =
        bytes.length + a.toNat / 0x100 + a.toNat % 0x100 + t.toNat + (bytes.map BitVec.toNat).sum ∧
        byteSum t a bytes ≤ 66045 ∧
        (checksum t a bytes).toNat = (0x100 - byteSum t a bytes % 0x100) % 0x100) ∧
    checksum 0 0 [] = 0 ∧ byteSum 0 0x0030 [0x02, 0x33, 0x7A] = 0xE2 ∧ checksum 0 0x0030 [0x02, 0x33, 0x7A] = 0x1E ∧
    byteSum 0xFF 0xFFFF (List.replicate 255 0xFF) = 0x101FD ∧ checksum 0xFF 0xFFFF (List.replicate 255 0xFF) = 0x03

/-- 40_record_encode.md R71: every record's bytes sum to 0 mod 256, and no other checksum has that property (the last
clause is the spec's derivation from R70). -/
def Obligations.RecordBytesSumToZero : Prop :=
  ∀ (t : Byte) (a : BitVec 16) (bytes : List Byte), bytes.length ≤ 255 → ∀ c : Byte,
    (((recordBytes { typeByte := t, address := a, data := bytes, checksum := c }).map BitVec.toNat).sum % 0x100 = 0 ↔
      c = checksum t a bytes)

/-- 40_record_encode.md R73 with its worked examples. -/
def Obligations.MakeRecordChecksTheExpectedChecksum : Prop :=
  (∀ (t : Byte) (a : BitVec 16) (bytes : List Byte),
      makeRecord t a bytes none =
          .ok { typeByte := t, address := a, data := bytes, checksum := checksum t a bytes } ∧
        makeRecord t a bytes (some (checksum t a bytes)) = makeRecord t a bytes none ∧
        ∀ e : Byte, e ≠ checksum t a bytes → makeRecord t a bytes (some e) = .error (checksum t a bytes, e)) ∧
    makeRecord 1 0 [] none = .ok { typeByte := 1, address := 0, data := [], checksum := 0xFF } ∧
    makeRecord 1 0 [] (some 0xFE) = .error (0xFF, 0xFE)

/-- 30_encoding.md R50, R51 and 40_record_encode.md R74, R76; the digit order and the character codes are R52 and R53,
which the spec takes from general knowledge (PRESUMED, log entry 10): the line is `:` and then, byte by byte of
`B = [LL, hi8(A), lo8(A), TT, D.., CC]`, the uppercase digit of the high nibble and of the low nibble; it has
`11 + 2n` characters. -/
def Obligations.EncodeLineSpellsTheRecordBytes : Prop :=
  ∀ (t : Byte) (a : BitVec 16) (bytes : List Byte), bytes.length ≤ 255 →
    let B := [BitVec.ofNat 8 bytes.length, hi8 a, lo8 a, t] ++ bytes ++ [checksum t a bytes]
    (encodeLine t a bytes).length = 11 + 2 * bytes.length ∧
      (encodeLine t a bytes)[0]? = some 0x3A ∧
      (∀ k, k < B.length → ∀ h l : Byte,
        (encodeLine t a bytes)[1 + 2 * k]? = some h → (encodeLine t a bytes)[2 + 2 * k]? = some l →
          ∃ b, B[k]? = some b ∧
            (h.toNat = 0x30 + b.toNat / 16 ∧ b.toNat / 16 < 10 ∨ h.toNat = 0x37 + b.toNat / 16 ∧ 10 ≤ b.toNat / 16) ∧
            (l.toNat = 0x30 + b.toNat % 16 ∧ b.toNat % 16 < 10 ∨ l.toNat = 0x37 + b.toNat % 16 ∧ 10 ≤ b.toNat % 16))

/-- 41_record_decode.md R90: exactly the ASCII digit characters are accepted, lowercase ones if and only if
`DEC_LOWERCASE_OK` (left open, decision D12: the statement holds for both values); `byteval` is
`16*hexval(c1) + hexval(c2)` when both are digits and none otherwise. -/
def Obligations.HexvalAcceptsExactlyTheDigits : Prop :=
  (∀ (lc : Bool) (c : Byte) (v : BitVec 4), hexval lc c = some v ↔
    (c.toNat = 0x30 + v.toNat ∧ v.toNat ≤ 9) ∨ (c.toNat + 10 = 0x41 + v.toNat ∧ 10 ≤ v.toNat) ∨
      (lc = true ∧ c.toNat + 10 = 0x61 + v.toNat ∧ 10 ≤ v.toNat)) ∧
    (∀ (lc : Bool) (c1 c2 b : Byte), byteval lc c1 c2 = some b ↔
      ∃ h l, hexval lc c1 = some h ∧ hexval lc c2 = some l ∧ b.toNat = 16 * h.toNat + l.toNat)

/-- 41_record_decode.md R91: the longest runs of `TRIM_SET` (decision D13) go from both ends, the rest is kept; a line
that ends in CR LF or LF trims to the same as the bare line. -/
def Obligations.TrimStripsTheOuterRuns : Prop :=
  ∀ raw : Line, trim (raw ++ [0x0D, 0x0A]) = trim raw ∧ trim (raw ++ [0x0A]) = trim raw ∧ ∃ front back : Line,
    raw = front ++ trim raw ++ back ∧
      (∀ c ∈ front ++ back, c ∈ ([0x20, 0x09, 0x0A, 0x0B, 0x0C, 0x0D] : Line)) ∧
      (∀ c, (trim raw).head? = some c ∨ (trim raw).getLast? = some c →
        c ∉ ([0x20, 0x09, 0x0A, 0x0B, 0x0C, 0x0D] : Line))

/-- 41_record_decode.md R91, the consequence a host can rely on: a line that ends in CR LF or LF decodes the same as
the bare line. -/
def Obligations.LineTerminatorsDoNotMatter : Prop :=
  ∀ (s : State) (raw : Line), raw.length + 2 ≤ 65535 →
    exec (.decLine (raw ++ [0x0D, 0x0A])) s = exec (.decLine raw) s ∧
      exec (.decLine (raw ++ [0x0A])) s = exec (.decLine raw) s

/-- 41_record_decode.md R102: the round-trip law for all six types, whatever `DEC_LOWERCASE_OK` is; and, for a
completed run, `DECODE_FILE` of the lines of `out` returns one record per line and never fails. -/
def Obligations.RoundTripLaw : Prop :=
  (∀ (lc : Bool) (t : RecType) (a : BitVec 16) (bytes : List Byte), bytes.length ≤ 255 →
      decodeLine lc (encodeLine t.code a bytes) =
        .ok { recordType := t, address := a, data := bytes, checksum := checksum t.code a bytes }) ∧
    (∀ s u : State, Inv s → s.gphase = .done → (splitLines s.out).length < 0x100000000 →
      ∃ t rs, decodeFile (splitLines s.out) u = .next (t, rs) ∧ t.dphase = .ready ∧
        rs.map HexRecord.line = splitLines s.out)

/-- The decoder accepts a line if and only if it is the encoding of the record it returns, letter for letter where
lowercase digits are refused, and up to the case of its digits where they are accepted: nothing else passes, and no
record is misread (41_record_decode.md R98, R104). With lowercase digits accepted, a line after its start marker is
read as its uppercase spelling, whatever the result (R90, and R103: "Replacing `A` by `a` changes nothing when
`DEC_LOWERCASE_OK` holds"). -/
def Obligations.DecoderAcceptsExactlyTheEncodedLines : Prop :=
  (∀ (t : Line) (r : HexRecord), decodeLine false t = .ok r ↔
    r.data.length ≤ 255 ∧ r.checksum = checksum r.recordType.code r.address r.data ∧
      t = encodeLine r.recordType.code r.address r.data) ∧
  (∀ (t : Line) (r : HexRecord), decodeLine true t = .ok r ↔
    r.data.length ≤ 255 ∧ r.checksum = checksum r.recordType.code r.address r.data ∧
      t.map upperDigit = encodeLine r.recordType.code r.address r.data) ∧
  (∀ t : Line, t.head? = some 0x3A → decodeLine true t = decodeLine false (t.map upperDigit))

/-- 41_record_decode.md R103, for a valid line: another digit value in the checksum, the address, the type or a data
byte gives ChecksumError; another digit value in `LL`, or a missing piece of the data portion, gives WrongLineLength; a
non-digit gives BadHexDigit at its index. -/
def Obligations.CorruptedLinesAreRejected : Prop :=
  ∀ (lc : Bool) (t : RecType) (a : BitVec 16) (bytes : List Byte), bytes.length ≤ 255 →
    let text := encodeLine t.code a bytes
    -- one digit of `AAAA`, `TT`, a data byte or `CC` replaced by a digit of another value
    (∀ (j : Nat) (c c' : Byte), 3 ≤ j → text[j]? = some c → (hexval lc c').isSome → hexval lc c' ≠ hexval lc c →
      ∃ computed declared, decodeLine lc (text.set j c') = .checksumError computed declared ∧ computed ≠ declared ∧
        (11 + 2 * bytes.length ≤ j + 2 → computed = checksum t.code a bytes)) ∧
    -- one digit of `LL` replaced by a digit of another value
    (∀ (j : Nat) (c c' : Byte), 1 ≤ j → j ≤ 2 → text[j]? = some c → (hexval lc c').isSome →
      hexval lc c' ≠ hexval lc c →
      ∃ e, decodeLine lc (text.set j c') = .formatError .wrongLineLength e (11 + 2 * bytes.length) ∧
        e ≠ 11 + 2 * bytes.length) ∧
    -- characters missing after the header
    (∀ rest : Line, rest.length < 2 * bytes.length + 2 →
      decodeLine lc (text.take 9 ++ rest) =
        .formatError .wrongLineLength (11 + 2 * bytes.length) (9 + rest.length)) ∧
    -- a digit replaced by a character that is none
    (∀ (j : Nat) (c' : Byte), 1 ≤ j → j < text.length → hexval lc c' = none →
      decodeLine lc (text.set j c') = .formatError .badHexDigit 0 j)

/-! ### The decoder's checks in their order (41_record_decode.md R92 to R98, 60_exceptions.md R149) -/

/-- Step 1, R92 (`dexp`, `dact` of this cause are decision D10). -/
def Obligations.MissingStartMarkerIsReportedFirst : Prop :=
  (∀ lc : Bool, decodeLine lc [] = .formatError .missingStartMarker 0x3A 0xFFFF) ∧
    (∀ (lc : Bool) (c : Byte) (rest : Line), c ≠ 0x3A →
      decodeLine lc (c :: rest) = .formatError .missingStartMarker 0x3A c.toNat)

/-- Step 2, R93: the leftmost of indices 1 to 8 that is no digit, or past the line's end (decision D15). -/
def Obligations.HeaderDigitErrorsAreReportedLeftmost : Prop :=
  ∀ (lc : Bool) (t : Line) (i : Nat), t[0]? = some 0x3A → 1 ≤ i → i ≤ 8 →
    (∀ j c, 1 ≤ j → j < i → t[j]? = some c → (hexval lc c).isSome) → (i ≤ t.length) →
    (∀ c, t[i]? = some c → hexval lc c = none) →
    decodeLine lc t = .formatError .badHexDigit 0 i

/-- Step 3, R94: with a good header `LL`, the line must have `11 + 2*LL` characters, no fewer and no more; it comes
before every check of the data and of the checksum. -/
def Obligations.WrongLengthIsReportedBeforeTheBody : Prop :=
  ∀ (lc : Bool) (t : Line) (c1 c2 : Byte) (n : Byte), t[0]? = some 0x3A → 9 ≤ t.length →
    (∀ j c, 1 ≤ j → j ≤ 8 → t[j]? = some c → (hexval lc c).isSome) →
    t[1]? = some c1 → t[2]? = some c2 → byteval lc c1 c2 = some n → t.length ≠ 11 + 2 * n.toNat →
    decodeLine lc t = .formatError .wrongLineLength (11 + 2 * n.toNat) t.length

/-- Steps 4 and 5, R95 and R96: in a line of the right length the leftmost character after the header that is no digit,
in the data or in the checksum, is a BadHexDigit, never a ChecksumError. -/
def Obligations.BodyDigitErrorsAreReportedLeftmost : Prop :=
  ∀ (lc : Bool) (t : Line) (c1 c2 : Byte) (n : Byte) (i : Nat), t[0]? = some 0x3A →
    t[1]? = some c1 → t[2]? = some c2 → byteval lc c1 c2 = some n → t.length = 11 + 2 * n.toNat →
    9 ≤ i → i < t.length → (∀ j c, 1 ≤ j → j < i → t[j]? = some c → (hexval lc c).isSome) →
    (∀ c, t[i]? = some c → hexval lc c = none) →
    decodeLine lc t = .formatError .badHexDigit 0 i

/-- Steps 5 and 6, R96 and R97: of a line whose digits and length are right, spelling the bytes `B`, a declared
checksum other than the computed one is a ChecksumError with both values; otherwise a type above 05 is ReservedType
(decision D11), checked last; otherwise the record is returned. -/
def Obligations.ChecksumThenTypeDecideTheResult : Prop :=
  ∀ (lc : Bool) (tt : Byte) (a : BitVec 16) (bytes : List Byte) (declared : Byte), bytes.length ≤ 255 →
    let t := spell ([BitVec.ofNat 8 bytes.length, hi8 a, lo8 a, tt] ++ bytes ++ [declared])
    (declared ≠ checksum tt a bytes → decodeLine lc t = .checksumError (checksum tt a bytes) declared) ∧
      (declared = checksum tt a bytes → 5 < tt.toNat → decodeLine lc t = .formatError .reservedType 5 tt.toNat) ∧
      (declared = checksum tt a bytes → tt.toNat ≤ 5 → ∃ ty : RecType, ty.code = tt ∧
        decodeLine lc t = .ok { recordType := ty, address := a, data := bytes, checksum := declared })

/-! ### The sequencer -/

/-- 42_layout_sequencer.md R110, R143: in every phase; a mode other than 2 and 4 is UnsupportedModeError with an empty
`out`. -/
def Obligations.GenStartOpensARun : Prop :=
  ∀ (s : State) (m : Byte),
    (m = 2 ∨ m = 4 → exec (.genStart m) s = .next
      { s with out := [], cur := 0, segbase := 0, mode := m, gea := 0, geb := 0, gerr := .none, gphase := .run }) ∧
    (m ≠ 2 ∧ m ≠ 4 → exec (.genStart m) s = .next
      { s with
        out := [], cur := 0, segbase := 0, mode := m, gea := 0, geb := 0, gerr := .unsupportedMode, gphase := .fault })

/-- 42_layout_sequencer.md R124, the column GEN_ENTRY outside a run: SequenceFault with the `op` code in `G_IDLE` and
`G_DONE`, nothing at all in `G_FAULT` (decision D3); no byte of the source is read. -/
def Obligations.GenEntryOutsideARun : Prop :=
  ∀ (s : State) (la : BitVec 32) (src : List Byte),
    (s.gphase = .idle ∨ s.gphase = .done →
      exec (.genEntry la src) s = .next { s with gerr := .sequenceFault, gea := 1, geb := 0, gphase := .fault }) ∧
    (s.gphase = .fault → exec (.genEntry la src) s = .next s)

/-- 42_layout_sequencer.md R113: the order check is strict, on the exact sum, and before anything else happens; an
entry at or above the running address never raises it. -/
def Obligations.OutOfOrderEntryRaisesOrderingFault : Prop :=
  ∀ (s : State) (la : BitVec 32) (src : List Byte), s.gphase = .run →
    (la.toNat < s.cur.toNat + s.segbase.toNat →
      exec (.genEntry la src) s = .next
        { s with
          gerr := .orderingFault, gea := la, geb := BitVec.ofNat 33 (s.cur.toNat + s.segbase.toNat),
          gphase := .fault }) ∧
    (LayoutInv s → s.cur.toNat + s.segbase.toNat ≤ la.toNat →
      ∃ t, exec (.genEntry la src) s = .next t ∧ t.gerr ≠ .orderingFault)

/-- 42_layout_sequencer.md R114, R115, R125 (j): an empty source only assigns `cur`. -/
def Obligations.EmptySourceOnlyMovesTheAddress : Prop :=
  ∀ (s : State) (la : BitVec 32), s.gphase = .run → s.cur.toNat + s.segbase.toNat ≤ la.toNat →
    exec (.genEntry la []) s = .next { s with cur := la - s.segbase } ∧
      (la - s.segbase).toNat = la.toNat - s.segbase.toNat

/-- 42_layout_sequencer.md R127 with R114, R116, R118, R119, R120: a source of `L >= 1` bytes inside one window gives
`ceil(L / RECLEN)` Data records, record `k` at offset `off + k * RECLEN` with the next RECLEN bytes, all full but the
last, after at most one extension record, which is emitted if and only if the window is not the current one. The address
field 0000 of that record (`extRecord`) is decision D7 (PRESUMED, log entry 10). The whole next state is given. -/
def Obligations.SourceInsideOneWindowIsCutIntoFullRecords : Prop :=
  ∀ (s : State) (la : BitVec 32) (src : List Byte) (len : Nat), LayoutInv s → s.gphase = .run →
    recLen s.mode = some len → s.cur.toNat + s.segbase.toNat ≤ la.toNat → src ≠ [] →
    la.toNat % 0x10000 + src.length ≤ 0x10000 → (s.mode = 2 → la.toNat ≤ 0xFFFFF) →
    exec (.genEntry la src) s = .next
      { s with
        cur := BitVec.ofNat 32 (la.toNat % 0x10000 + src.length)
        segbase := BitVec.ofNat 32 (windowOf la.toNat)
        out := s.out ++ textOf
          ((if windowOf la.toNat = s.segbase.toNat then [] else [extRecord s.mode (windowOf la.toNat)]) ++
            (List.range ((src.length + len - 1) / len)).map fun k =>
              mkRecord .data (BitVec.ofNat 16 (la.toNat % 0x10000 + k * len)) ((src.drop (k * len)).take len)) }

/-- The registers `cur` and `segbase` implement the layout in absolute addresses: for every source that ends at or
below `MAXADDR(mode)`, GEN_ENTRY completes, appends exactly the records of `layoutOf`, and leaves the running address
just past the source (42_layout_sequencer.md R111 to R120, R122). The address field 0000 of the extension records in
`layoutOf` is decision D7 (PRESUMED, log entry 10). The whole next state is given. -/
def Obligations.GenEntryEmitsTheLayout : Prop :=
  ∀ (s : State) (la : BitVec 32) (src : List Byte) (len top : Nat), LayoutInv s → s.gphase = .run →
    recLen s.mode = some len → maxAddr s.mode = some top → s.cur.toNat + s.segbase.toNat ≤ la.toNat →
    src ≠ [] → la.toNat + src.length ≤ top + 1 →
    exec (.genEntry la src) s = .next
      { s with
        cur := BitVec.ofNat 32 (la.toNat + src.length - windowOf (la.toNat + src.length - 1))
        segbase := BitVec.ofNat 32 (windowOf (la.toNat + src.length - 1))
        out := s.out ++ textOf (layoutOf s.mode len s.segbase.toNat la.toNat src) }

/-- 20_memory.md R31 to R33, R41 (b): a reader of the records that a completed GEN_ENTRY appends places the source's
bytes, in order, at `la`, `la + 1`, ..., each once, and nothing else; no record crosses a window or exceeds RECLEN. The
address field 0000 that `emittedShape` asks of an extension record is decision D7 (PRESUMED, log entry 10). -/
def Obligations.GenEntryPlacesEveryByteAtItsAddress : Prop :=
  ∀ (s : State) (la : BitVec 32) (src : List Byte) (top : Nat), LayoutInv s → s.gphase = .run →
    maxAddr s.mode = some top → s.cur.toNat + s.segbase.toNat ≤ la.toNat → la.toNat + src.length ≤ top + 1 →
    ∃ t rs, exec (.genEntry la src) s = .next t ∧ t.gphase = .run ∧ t.out = s.out ++ textOf rs ∧
      image s.segbase.toNat rs = cells la.toNat src ∧
      finalBase s.segbase.toNat rs = t.segbase.toNat ∧
      t.cur.toNat + t.segbase.toNat = la.toNat + src.length ∧
      ∀ r ∈ rs, emittedShape s.mode r = true ∧ r.recordType ≠ .eof

/-- 42_layout_sequencer.md R117 (decision D6), 60_exceptions.md R146: a byte past the last window raises
AddressRangeFault, with the base that could not be represented; what fits has been emitted, and the fault is precise:
where a byte was placed, `segbase` is the last window and `cur` 0x10000; where none was, `segbase` is unchanged and
`cur` is `la - segbase` (R114). The address field 0000 of the extension records in `layoutOf` is decision D7 (PRESUMED,
log entry 10). The whole next state is given. -/
def Obligations.SourcePastTheLastWindowRaisesAddressRangeFault : Prop :=
  ∀ (s : State) (la : BitVec 32) (src : List Byte) (len top : Nat), LayoutInv s → s.gphase = .run →
    recLen s.mode = some len → maxAddr s.mode = some top → s.cur.toNat + s.segbase.toNat ≤ la.toNat →
    src ≠ [] → top + 1 < la.toNat + src.length →
    exec (.genEntry la src) s = .next
      { s with
        gphase := .fault
        gerr := .addressRangeFault
        gea := la
        geb := BitVec.ofNat 33 (max (top + 1) (windowOf la.toNat))
        out := s.out ++ textOf (layoutOf s.mode len s.segbase.toNat la.toNat (src.take (top + 1 - la.toNat)))
        cur := if la.toNat ≤ top then 0x10000 else la - s.segbase
        segbase := if la.toNat ≤ top then BitVec.ofNat 32 (windowOf top) else s.segbase }

/-- 42_layout_sequencer.md R121 and 40_record_encode.md R79: in a run, the End-Of-File record `:00000001FF`, NEWLINE
(decision D8), `G_DONE`, nothing else; outside a run SequenceFault with the `op` code, in `G_FAULT` nothing (decision
D3). -/
def Obligations.GenEndWritesEndOfFile : Prop :=
  ∀ s : State,
    (s.gphase = .run → exec .genEnd s = .next
      { s with
        gphase := .done
        out := s.out ++ [0x3A, 0x30, 0x30, 0x30, 0x30, 0x30, 0x30, 0x30, 0x31, 0x46, 0x46, 0x0A] }) ∧
    (s.gphase = .idle ∨ s.gphase = .done →
      exec .genEnd s = .next { s with gerr := .sequenceFault, gea := 2, geb := 0, gphase := .fault }) ∧
    (s.gphase = .fault → exec .genEnd s = .next s)

/-- 42_layout_sequencer.md R123: a whole generation call on a sorted, non-overlapping list of entries inside the
mode's range completes from every state; the text it leaves reads back as records of which the last, and only the
last, is End-Of-File, and a reader places every source at its address, in order, and nothing else. -/
def Obligations.GenerateWritesTheWholeImage : Prop :=
  ∀ (s : State) (m : Byte) (top : Nat) (entries : List (BitVec 32 × List Byte)), maxAddr m = some top →
    entries.Pairwise (fun e f => e.1.toNat + e.2.length ≤ f.1.toNat) →
    (∀ e ∈ entries, e.1.toNat + e.2.length ≤ top + 1) →
    ∃ t body, generate m entries s = .next t ∧ generateResult t = .ok t.out ∧
      readText t.out = some (body ++ [eofRecord]) ∧ (∀ r ∈ body, r.recordType ≠ .eof) ∧
      image 0 body = entries.flatMap fun e => cells e.1.toNat e.2

/-- 42_layout_sequencer.md R113, R123, R126: a list in which an entry begins below the end of the one before it
yields no text; the result is OrderingFault, whatever follows. -/
def Obligations.GenerateRejectsOverlappingEntries : Prop :=
  ∀ (s : State) (m : Byte) (top : Nat) (good : List (BitVec 32 × List Byte)) (e f : BitVec 32 × List Byte)
    (rest : List (BitVec 32 × List Byte)), maxAddr m = some top →
    (good ++ [e]).Pairwise (fun x y => x.1.toNat + x.2.length ≤ y.1.toNat) →
    (∀ x ∈ good ++ [e], x.1.toNat + x.2.length ≤ top + 1) → f.1.toNat < e.1.toNat + e.2.length →
    ∃ t, generate m (good ++ e :: f :: rest) s = .next t ∧ generateResult t = .error .orderingFault ∧
      t.gea = f.1 ∧ t.geb.toNat = e.1.toNat + e.2.length

/-! ### The codec commands and the reserved codes -/

/-- 40_record_encode.md R75, in every phase: `eres` alone is written. -/
def Obligations.RecEncLeavesTheLineInEres : Prop :=
  ∀ (s : State) (rtype : Byte) (raddr : BitVec 16) (bytes : List Byte), bytes.length ≤ 255 →
    (rtype.toNat ≤ 5 →
      exec (.recEnc rtype raddr bytes) s = .next { s with eres := .ok (encodeLine rtype raddr bytes) }) ∧
    (5 < rtype.toNat → exec (.recEnc rtype raddr bytes) s = .next { s with eres := .illegalOperand })

/-- 41_record_decode.md R99: the whole next state; and no other instruction leaves `D_EOS` or `D_FAULT`. -/
def Obligations.DecOpenStartsAStream : Prop :=
  (∀ s : State, exec .decOpen s = .next
    { s with
      dphase := .ready, lineno := 0, derr := .none, dsub := .none, dline := 0, dexp := 0, dact := 0, dres := .none }) ∧
    (∀ (s t : State) (i : Instr), s.dphase ≠ .ready → exec i s = .next t → t.dphase ≠ s.dphase → i = .decOpen)

/-- 41_record_decode.md R100 and 60_exceptions.md R147: the whole next state in each of the five cases, for a
line counter that has not run out (the other case is `LineCounterPastItsWidthIsFree`). -/
def Obligations.DecLineConsumesOneLine : Prop :=
  ∀ (s : State) (raw : Line), raw.length ≤ 65535 →
    (s.dphase ≠ .ready → exec (.decLine raw) s = .next { s with dres := .sequenceFault }) ∧
    (s.dphase = .ready → s.lineno ≠ 0xFFFFFFFF →
      (trim raw = [] → exec (.decLine raw) s = .next { s with lineno := s.lineno + 1, dphase := .eos, dres := .eos }) ∧
      (trim raw ≠ [] → ∀ r, decodeLine Config.decLowercaseOk (trim raw) = .ok r →
        exec (.decLine raw) s = .next { s with lineno := s.lineno + 1, dres := .ok r }) ∧
      (trim raw ≠ [] → ∀ sub e a, decodeLine Config.decLowercaseOk (trim raw) = .formatError sub e a →
        exec (.decLine raw) s = .next
          { s with
            lineno := s.lineno + 1, dphase := .fault, derr := .formatError, dsub := sub, dline := s.lineno + 1,
            dexp := BitVec.ofNat 16 e, dact := BitVec.ofNat 16 a, dres := .formatError sub }) ∧
      (trim raw ≠ [] → ∀ c d, decodeLine Config.decLowercaseOk (trim raw) = .checksumError c d →
        exec (.decLine raw) s = .next
          { s with
            lineno := s.lineno + 1, dphase := .fault, derr := .checksumError, dsub := .none, dline := s.lineno + 1,
            dexp := c.setWidth 16, dact := d.setWidth 16, dres := .checksumError }))

/-- What `DecodeLine` reports fits the 16-bit registers `dexp` and `dact` (10_state.md R18, decision D23), so `DEC_LINE`
stores it unchanged. -/
def Obligations.FormatErrorContextFitsSixteenBits : Prop :=
  ∀ (lc : Bool) (t : Line) (sub : SubCause) (e a : Nat), t.length ≤ 65535 →
    decodeLine lc t = .formatError sub e a → e < 0x10000 ∧ a < 0x10000 ∧ sub ≠ .none ∧
      (sub = .wrongLineLength → a = t.length ∧ e ≤ 521 ∧ e ≠ a)

/-- The MODEL'S CHOICE of log entry 5: a line counted past 2^32 - 1, which decision D14 puts outside the interface,
runs like any other, with a free value in `lineno`, and in `dline` where the line fails: the four cases of
`DecLineConsumesOneLine`, and a record on LIN. -/
def Obligations.LineCounterPastItsWidthIsFree : Prop :=
  ∀ s : State, s.dphase = .ready → s.lineno = 0xFFFFFFFF →
    let n := Config.freeLineno s.freeCount
    (∀ raw : Line, raw.length ≤ 65535 →
      (trim raw = [] → exec (.decLine raw) s = .next
        { s with lineno := n, freeCount := s.freeCount + 1, dphase := .eos, dres := .eos }) ∧
      (trim raw ≠ [] → ∀ r, decodeLine Config.decLowercaseOk (trim raw) = .ok r →
        exec (.decLine raw) s = .next { s with lineno := n, freeCount := s.freeCount + 1, dres := .ok r }) ∧
      (trim raw ≠ [] → ∀ sub e a, decodeLine Config.decLowercaseOk (trim raw) = .formatError sub e a →
        exec (.decLine raw) s = .next
          { s with
            lineno := n, freeCount := s.freeCount + 1, dphase := .fault, derr := .formatError, dsub := sub, dline := n,
            dexp := BitVec.ofNat 16 e, dact := BitVec.ofNat 16 a, dres := .formatError sub }) ∧
      (trim raw ≠ [] → ∀ c d, decodeLine Config.decLowercaseOk (trim raw) = .checksumError c d →
        exec (.decLine raw) s = .next
          { s with
            lineno := n, freeCount := s.freeCount + 1, dphase := .fault, derr := .checksumError, dsub := .none,
            dline := n, dexp := c.setWidth 16, dact := d.setWidth 16, dres := .checksumError })) ∧
    (∀ (t : RecType) (a : BitVec 16) (bytes : List Byte) (i : Instr), bytes.length ≤ 255 →
      recordInstr .lin (mkRecord t a bytes) = some i →
      exec i s = .next { s with lineno := n, freeCount := s.freeCount + 1, dres := .ok (mkRecord t a bytes) })

/-- 30_encoding.md R60 (decision D3): IllegalCommand with the code in `gea`; in `G_FAULT` nothing changes. -/
def Obligations.ReservedCodesRaiseIllegalCommand : Prop :=
  ∀ s : State,
    (s.gphase ≠ .fault →
      exec .reservedOp6 s = .next { s with gphase := .fault, gerr := .illegalCommand, gea := 6, geb := 0 } ∧
        exec .reservedOp7 s = .next { s with gphase := .fault, gerr := .illegalCommand, gea := 7, geb := 0 }) ∧
    (s.gphase = .fault → exec .reservedOp6 s = .next s ∧ exec .reservedOp7 s = .next s)

/-! ### The record rows (log entry 4 for the place a record stands at) -/

/-- 40_record_encode.md R77 to R81: a record SEQ emits appends its line and one NEWLINE to `out`, and changes nothing
else; DATA with any payload that can be presented, the others in the shape SEQ gives them (address field 0000 of ELA and
ESA: decision D7, PRESUMED, log entry 10). -/
def Obligations.EmittedRecordsAppendTheirLine : Prop :=
  (∀ (s : State) (a16 : BitVec 16) (chunk : List Byte), chunk.length ≤ 255 →
      exec (.data .out a16 chunk) s = .next { s with out := s.out ++ (encodeLine 0 a16 chunk ++ [0x0A]) }) ∧
    (∀ s : State, exec (.eof .out 0 []) s = .next
      { s with out := s.out ++ [0x3A, 0x30, 0x30, 0x30, 0x30, 0x30, 0x30, 0x30, 0x31, 0x46, 0x46, 0x0A] }) ∧
    (∀ (s : State) (sb : BitVec 32), sb.toNat % 0x10000 = 0 →
      exec (.ela .out 0 [sb.extractLsb' 24 8, sb.extractLsb' 16 8]) s = .next
        { s with out := s.out ++ (encodeLine 4 0 [sb.extractLsb' 24 8, sb.extractLsb' 16 8] ++ [0x0A]) }) ∧
    (∀ (s : State) (sb : BitVec 32), sb.toNat % 0x10000 = 0 → sb.toNat ≤ 0xF0000 →
      exec (.esa .out 0 [(sb >>> 4).extractLsb' 8 8, (sb >>> 4).extractLsb' 0 8]) s = .next
        { s with
          out := s.out ++ (encodeLine 2 0 [(sb >>> 4).extractLsb' 8 8, (sb >>> 4).extractLsb' 0 8] ++ [0x0A]) })

/-- 30_encoding.md R55, 40_record_encode.md R82: in the encoder all six types are alike, and do what REC_ENC does with
their code. -/
def Obligations.RecordsInTheEncoderAreAlike : Prop :=
  ∀ (s : State) (a : BitVec 16) (bytes : List Byte), bytes.length ≤ 255 →
    exec (.data .res a bytes) s = .next { s with eres := .ok (encodeLine 0 a bytes) } ∧
      exec (.eof .res a bytes) s = .next { s with eres := .ok (encodeLine 1 a bytes) } ∧
      exec (.esa .res a bytes) s = .next { s with eres := .ok (encodeLine 2 a bytes) } ∧
      exec (.ssa .res a bytes) s = .next { s with eres := .ok (encodeLine 3 a bytes) } ∧
      exec (.ela .res a bytes) s = .next { s with eres := .ok (encodeLine 4 a bytes) } ∧
      exec (.sla .res a bytes) s = .next { s with eres := .ok (encodeLine 5 a bytes) }

/-- 30_encoding.md R55, 40_record_encode.md R82, 41_record_decode.md R100: on LIN a record of any of the six types, any
address, any payload, is consumed as one line and returned whole in `dres`; nothing else changes. -/
def Obligations.RecordsOnLinAreReturnedWhole : Prop :=
  ∀ (s : State) (a : BitVec 16) (bytes : List Byte), bytes.length ≤ 255 → s.dphase = .ready →
    s.lineno ≠ 0xFFFFFFFF →
    exec (.data .lin a bytes) s = .next { s with lineno := s.lineno + 1, dres := .ok (mkRecord .data a bytes) } ∧
      exec (.eof .lin a bytes) s = .next { s with lineno := s.lineno + 1, dres := .ok (mkRecord .eof a bytes) } ∧
      exec (.esa .lin a bytes) s = .next { s with lineno := s.lineno + 1, dres := .ok (mkRecord .esa a bytes) } ∧
      exec (.ssa .lin a bytes) s = .next { s with lineno := s.lineno + 1, dres := .ok (mkRecord .ssa a bytes) } ∧
      exec (.ela .lin a bytes) s = .next { s with lineno := s.lineno + 1, dres := .ok (mkRecord .ela a bytes) } ∧
      exec (.sla .lin a bytes) s = .next { s with lineno := s.lineno + 1, dres := .ok (mkRecord .sla a bytes) }

/-- 30_encoding.md R59, decision D23: an operand that "cannot be presented" is refused by name at every meaning that
takes it (log entry 9). -/
def Obligations.OverlongOperandsAreRefused : Prop :=
  ∀ s : State,
    (∀ (rtype : Byte) (raddr : BitVec 16) (bytes : List Byte), 255 < bytes.length →
      exec (.recEnc rtype raddr bytes) s = .refused .dataTooLong) ∧
    (∀ (via : RecordPort) (raddr : BitVec 16) (bytes : List Byte), 255 < bytes.length →
      exec (.data via raddr bytes) s = .refused .dataTooLong ∧ exec (.eof via raddr bytes) s = .refused .dataTooLong ∧
        exec (.esa via raddr bytes) s = .refused .dataTooLong ∧
        exec (.ela via raddr bytes) s = .refused .dataTooLong) ∧
    (∀ (via : CodecPort) (raddr : BitVec 16) (bytes : List Byte), 255 < bytes.length →
      exec (.ssa via raddr bytes) s = .refused .dataTooLong ∧
        exec (.sla via raddr bytes) s = .refused .dataTooLong) ∧
    (∀ raw : Line, 65535 < raw.length → exec (.decLine raw) s = .refused .lineTooLong)

/-- 41_record_decode.md R101: a file of lines that decode returns their records in line order, whether it ends by
running out of lines or by a blank line, after which nothing is decoded; a line that fails aborts the whole decode: the
result is the error `DecodeLine` answers for that line, with its number and its context (R100). -/
def Obligations.DecodeFileReturnsAllOrFails : Prop :=
  ∀ (s : State) (good : List Line) (rs : List HexRecord) (rest : List Line), rs.length + 1 < 0x100000000 →
    List.Forall₂ (fun (l : Line) (r : HexRecord) =>
      l.length ≤ 65535 ∧ decodeLine Config.decLowercaseOk (trim l) = .ok r) good rs →
    (∃ t, decodeFile good s = .next (t, rs) ∧ decodeFileResult t rs = .ok rs ∧
      t.dphase = .ready ∧ t.lineno.toNat = rs.length) ∧
    (∀ blank : Line, blank.length ≤ 65535 → trim blank = [] →
      ∃ t, decodeFile (good ++ blank :: rest) s = .next (t, rs) ∧ decodeFileResult t rs = .ok rs ∧
        t.dphase = .eos ∧ t.lineno.toNat = rs.length + 1) ∧
    (∀ bad : Line, bad.length ≤ 65535 → trim bad ≠ [] →
      (∀ r, decodeLine Config.decLowercaseOk (trim bad) ≠ .ok r) →
      ∃ t, decodeFile (good ++ bad :: rest) s = .next (t, rs) ∧
        t.dphase = .fault ∧ t.dline.toNat = rs.length + 1 ∧ t.lineno = t.dline ∧
        (∀ sub e a, decodeLine Config.decLowercaseOk (trim bad) = .formatError sub e a →
          decodeFileResult t rs = .error .formatError ∧ t.dsub = sub ∧
            t.dexp = BitVec.ofNat 16 e ∧ t.dact = BitVec.ofNat 16 a ∧ t.dres = .formatError sub) ∧
        (∀ c d, decodeLine Config.decLowercaseOk (trim bad) = .checksumError c d →
          decodeFileResult t rs = .error .checksumError ∧ t.dsub = .none ∧
            t.dexp = c.setWidth 16 ∧ t.dact = d.setWidth 16 ∧ t.dres = .checksumError))

/-! ### Rules of the whole machine -/

/-- 10_state.md R17, decision D17: no generator command reads or writes decoder state or a result buffer: it leaves
them as they are, and from two states that agree on unit SEQ it ends in the same way, with unit SEQ the same again. -/
def Obligations.GeneratorCommandsLeaveTheCodecAlone : Prop :=
  ∀ i : Instr,
    ((∃ m, i = .genStart m) ∨ (∃ la src, i = .genEntry la src) ∨ i = .genEnd ∨ i = .reservedOp6 ∨ i = .reservedOp7) →
    (∀ s t : State, exec i s = .next t → SameDecoder s t ∧ t.eres = s.eres ∧ SameHost s t) ∧
    (∀ s s' : State, SameGenerator s s' → SameOutcome SameGenerator (exec i s) (exec i s'))

/-- 10_state.md R17, 40_record_encode.md R75, 70_reset_and_hazards.md R169: REC_ENC writes `eres` only, DEC_OPEN and
DEC_LINE write decoder state and `dres` only, and a record in the codec does no more; none disturbs a run. None reads
generator state: from any two states REC_ENC, and a record in REC, ends in the same way with the same `eres`; from two
states that agree on unit DEC (and on the model's count of free values, log entry 5) DEC_OPEN and DEC_LINE, and a record
on LIN, end in the same way with unit DEC the same again. -/
def Obligations.CodecCommandsLeaveTheGeneratorAlone : Prop :=
  (∀ (s s' : State) (i : Instr),
    ((∃ rtype raddr bytes, i = .recEnc rtype raddr bytes) ∨ ∃ r : HexRecord, recordInstr .res r = some i) →
    SameOutcome (fun t t' => t'.eres = t.eres) (exec i s) (exec i s')) ∧
  (∀ (s s' : State) (i : Instr), SameDecoder s s' → s'.freeCount = s.freeCount →
    (i = .decOpen ∨ (∃ raw, i = .decLine raw) ∨ ∃ r : HexRecord, recordInstr .lin r = some i) →
    SameOutcome (fun t t' => SameDecoder t t' ∧ t'.freeCount = t.freeCount) (exec i s) (exec i s')) ∧
  ∀ (s t : State),
    (∀ rtype raddr bytes, exec (.recEnc rtype raddr bytes) s = .next t →
      SameGenerator s t ∧ SameDecoder s t ∧ SameHost s t) ∧
    (exec .decOpen s = .next t → SameGenerator s t ∧ t.eres = s.eres ∧ SameHost s t) ∧
    (∀ raw, exec (.decLine raw) s = .next t → SameGenerator s t ∧ t.eres = s.eres ∧ t.port = s.port) ∧
    (∀ (i : Instr) (via : CodecPort) (r : HexRecord), recordInstr via.port r = some i → exec i s = .next t →
      SameGenerator s t ∧ t.port = s.port ∧ (via = .res → SameDecoder s t) ∧ (via = .lin → t.eres = s.eres))

/-- 20_memory.md R37, 10_state.md R16: only GEN_START and RST take anything away from `out`; every other step appends
to it, by whole record lines, each followed by one NEWLINE, in the 18 characters, and never of type 03 or 05
(40_record_encode.md R82). -/
def Obligations.OutOnlyGrows : Prop :=
  ∀ (s t : State), step s = .next t →
    (∀ x rest, s.port = x :: rest → x ≠ .rst ∧ opensRun x = false) →
    ∃ rs : List HexRecord, t.out = s.out ++ rs.flatMap (fun r => r.line ++ [newline]) ∧
      ∀ r ∈ rs, r.recordType ≠ .ssa ∧ r.recordType ≠ .sla ∧ r.data.length ≤ 255 ∧
        r.checksum = checksum r.recordType.code r.address r.data ∧ ∀ c ∈ r.line, isOutChar c = true ∧ c ≠ newline

/-- 60_exceptions.md R151, R149: the generator leaves `G_FAULT` only by GEN_START or reset; until then its state, its
first error and `out` stay as they are. -/
def Obligations.GeneratorFaultIsSticky : Prop :=
  ∀ (s t : State), s.gphase = .fault → step s = .next t →
    (∀ x rest, s.port = x :: rest → x ≠ .rst ∧ opensRun x = false) → SameGenerator s t

/-- 60_exceptions.md R151, 41_record_decode.md R99, R100: the decoder leaves `D_EOS` and `D_FAULT` only by DEC_OPEN or
reset; until then only `dres` can change, to SequenceFault. -/
def Obligations.EndedDecodeIsSticky : Prop :=
  ∀ (s t : State), s.dphase ≠ .ready → step s = .next t →
    (∀ x rest, s.port = x :: rest → x ≠ .rst ∧ opensStream x = false) →
    t.dphase = s.dphase ∧ t.lineno = s.lineno ∧ t.derr = s.derr ∧ t.dsub = s.dsub ∧ t.dline = s.dline ∧
      t.dexp = s.dexp ∧ t.dact = s.dact ∧ (t.dres = s.dres ∨ t.dres = .sequenceFault)

/-- The invariant holds after reset. -/
def Obligations.ResetMeetsTheInvariant : Prop := Inv State.reset

/-- Every step keeps the invariant: 42_layout_sequencer.md R112 (a) and (b), 10_state.md R15 to R20, 20_memory.md R31,
R37, 60_exceptions.md R140, 70_reset_and_hazards.md R164 ("it never emits a record with a backwards address"). The
address field 0000 that `emittedShape` asks of an extension record is decision D7 (PRESUMED, log entry 10). -/
def Obligations.StepKeepsTheInvariant : Prop :=
  ∀ s t : State, Inv s → step s = .next t → Inv t

/-- 70_reset_and_hazards.md R171, 60_exceptions.md R140: in the states of the invariant every input the interface
allows leads to a next state; no command, error or data ends the machine. -/
def Obligations.InvariantStatesNeverStop : Prop :=
  ∀ s : State, Inv s → (∀ x rest, s.port = x :: rest → presentable x = true) → ∃ t, step s = .next t

/-- 40_record_encode.md R83, 10_state.md R16: the lines of a completed run are Data lines of 13 to 75 characters (43 in
mode 2), extension lines of 15 and one End-Of-File line of 11, the last. -/
def Obligations.LinesOfACompletedRun : Prop :=
  ∀ s : State, Inv s → s.gphase = .done →
    ∃ lines : List Line, splitLines s.out = lines ++ [encodeLine 1 0 []] ∧
      ∀ l ∈ lines, ∃ r, lineRecord l = some r ∧ l = r.line ∧
        (r.recordType = .data ∧ 13 ≤ l.length ∧ l.length ≤ (if s.mode = 2 then 43 else 75) ∨
          (r.recordType = .ela ∧ s.mode = 4 ∨ r.recordType = .esa ∧ s.mode = 2) ∧ l.length = 15)

/-- 42_layout_sequencer.md R112 (c): while a run lasts the running address never decreases. -/
def Obligations.RunningAddressNeverDecreases : Prop :=
  ∀ (s t : State), LayoutInv s → s.gphase = .run → step s = .next t →
    (∀ x rest, s.port = x :: rest → x ≠ .rst ∧ opensRun x = false) →
    s.cur.toNat + s.segbase.toNat ≤ t.cur.toNat + t.segbase.toNat ∧ t.mode = s.mode
end

