-- ==== Sys2Proof/Laws/Codec.lean ====
section
/-! SUPPORT. The laws of the record codec: spelling and reading bytes, the leftmost character that is no digit, what
`DecodeLine` gives on a spelled line, what an accepted line looks like, trimming. -/

namespace Sys2Proof

theorem hexval_digit (lc : Bool) (v : BitVec 4) : hexval lc (digit v) = some v := by
  revert lc v; decide

theorem hexval_lt (lc : Bool) (c : Byte) : hexval lc c = some v → c.toNat < 0x67 := by
  unfold hexval; split_ifs <;> simp <;> omega

theorem hex2_length (b : Byte) : (hex2 b).length = 2 := rfl

theorem nibbles_append (b : Byte) : b.extractLsb' 4 4 ++ b.extractLsb' 0 4 = b := by
  revert b; decide

theorem byteval_digits (lc : Bool) (b : Byte) :
    byteval lc (digit (b.extractLsb' 4 4)) (digit (b.extractLsb' 0 4)) = some b := by
  simp [byteval, hexval_digit, nibbles_append]

/-- character `2k` and `2k+1` of spelled bytes -/
theorem flatMap_hex2_even (bs : List Byte) (k : Nat) :
    (bs.flatMap hex2)[2 * k]? = bs[k]?.map fun b => digit (b.extractLsb' 4 4) := by
  induction bs generalizing k with
  | nil => simp
  | cons b bs ih =>
    cases k with
    | zero => simp [hex2]
    | succ k =>
      have : 2 * (k + 1) = 2 * k + 1 + 1 := by omega
      simp [hex2, this, ih]

theorem flatMap_hex2_odd (bs : List Byte) (k : Nat) :
    (bs.flatMap hex2)[2 * k + 1]? = bs[k]?.map fun b => digit (b.extractLsb' 0 4) := by
  induction bs generalizing k with
  | nil => simp
  | cons b bs ih =>
    cases k with
    | zero => simp [hex2]
    | succ k =>
      have : 2 * (k + 1) + 1 = 2 * k + 1 + 1 + 1 := by omega
      simp [hex2, this, ih]

theorem flatMap_hex2_length (bs : List Byte) : (bs.flatMap hex2).length = 2 * bs.length := by
  induction bs with
  | nil => rfl
  | cons b bs ih => simp [hex2, ih]; omega

theorem spell_length (bs : List Byte) : (spell bs).length = 1 + 2 * bs.length := by
  rw [spell, List.length_cons, flatMap_hex2_length]; omega

theorem spell_high (bs : List Byte) (k : Nat) :
    (spell bs)[1 + 2 * k]? = bs[k]?.map fun b => digit (b.extractLsb' 4 4) := by
  rw [spell, Nat.add_comm, List.getElem?_cons_succ, flatMap_hex2_even]

theorem spell_low (bs : List Byte) (k : Nat) :
    (spell bs)[1 + 2 * k + 1]? = bs[k]?.map fun b => digit (b.extractLsb' 0 4) := by
  rw [spell, List.getElem?_cons_succ, Nat.add_comm 1, flatMap_hex2_odd]

theorem byteAt_spell (lc : Bool) (bs : List Byte) (k : Nat) (b : Byte) (h : bs[k]? = some b) :
    byteAt lc (spell bs) (1 + 2 * k) = b := by
  simp [byteAt, spell_high, spell_low, h, byteval_digits]

/-- every character after the marker is a digit -/
theorem spell_isDigit (bs : List Byte) (j : Nat) (c : Byte) (hj : 1 ≤ j) (h : (spell bs)[j]? = some c) :
    ∃ v, c = digit v := by
  obtain ⟨k, rfl | rfl⟩ : ∃ k, j = 1 + 2 * k ∨ j = 1 + 2 * k + 1 := ⟨(j - 1) / 2, by omega⟩
  · rw [spell_high] at h
    obtain ⟨b, -, rfl⟩ := Option.map_eq_some_iff.1 h
    exact ⟨_, rfl⟩
  · rw [spell_low] at h
    obtain ⟨b, -, rfl⟩ := Option.map_eq_some_iff.1 h
    exact ⟨_, rfl⟩

theorem firstBadDigit_eq_none_iff (lc : Bool) (t : Line) (start count : Nat) :
    firstBadDigit lc t start count = none ↔
      ∀ j, start ≤ j → j < start + count → ∃ c, t[j]? = some c ∧ (hexval lc c).isSome := by
  simp only [firstBadDigit, List.find?_eq_none, List.mem_range'_1, badDigitAt]
  constructor
  · intro h j h1 h2
    have := h j ⟨h1, h2⟩
    cases hc : t[j]? with
    | none => simp [hc] at this
    | some c => simp [hc] at this; exact ⟨c, rfl, by cases hv : hexval lc c <;> simp_all⟩
  · rintro h j ⟨h1, h2⟩
    obtain ⟨c, hc, hv⟩ := h j h1 h2
    cases hx : hexval lc c <;> simp_all

theorem firstBadDigit_spell (lc : Bool) (bs : List Byte) (start count : Nat) (h1 : 1 ≤ start)
    (h2 : start + count ≤ 1 + 2 * bs.length) : firstBadDigit lc (spell bs) start count = none := by
  rw [firstBadDigit_eq_none_iff]
  intro j hj hj'
  have hlt : j < (spell bs).length := by rw [spell_length]; omega
  obtain ⟨v, hv⟩ := spell_isDigit bs j _ (by omega) (List.getElem?_eq_getElem hlt)
  exact ⟨_, List.getElem?_eq_getElem hlt, by simp [hv, hexval_digit]⟩

/-- the leftmost bad digit -/
theorem firstBadDigit_eq_some_iff (lc : Bool) (t : Line) (start count i : Nat) :
    firstBadDigit lc t start count = some i ↔
      start ≤ i ∧ i < start + count ∧ (∀ c, t[i]? = some c → hexval lc c = none) ∧
        ∀ j, start ≤ j → j < i → ∃ c, t[j]? = some c ∧ (hexval lc c).isSome := by
  have key : ∀ j, badDigitAt lc t j = true ↔ ∀ c, t[j]? = some c → hexval lc c = none := by
    intro j
    unfold badDigitAt
    cases t[j]? <;> simp
  have key2 : ∀ j, badDigitAt lc t j = false ↔ ∃ c, t[j]? = some c ∧ (hexval lc c).isSome := by
    intro j
    unfold badDigitAt
    cases t[j]? <;> simp [Option.isSome_iff_ne_none]
  induction count generalizing start with
  | zero => simp [firstBadDigit]; omega
  | succ n ih =>
    unfold firstBadDigit at ih ⊢
    rw [List.range'_succ, List.find?_cons]
    cases hb : badDigitAt lc t start with
    | true =>
      simp only [Option.some.injEq]
      constructor
      · rintro rfl
        exact ⟨le_refl _, by omega, (key _).1 hb, by omega⟩
      · rintro ⟨h1, h2, h3, h4⟩
        by_contra hne
        obtain ⟨c, hc, hv⟩ := h4 start (le_refl _) (by omega)
        have := (key _).1 hb c hc
        simp [this] at hv
    | false =>
      refine (ih (start + 1)).trans ?_
      have hs := (key2 _).1 hb
      constructor
      · rintro ⟨h1, h2, h3, h4⟩
        refine ⟨by omega, by omega, h3, fun j hj hj' => ?_⟩
        rcases Nat.eq_or_lt_of_le hj with rfl | h
        · exact hs
        · exact h4 j h hj'
      · rintro ⟨h1, h2, h3, h4⟩
        have hne : start ≠ i := by
          rintro rfl
          have := (key _).2 h3
          simp [this] at hb
        exact ⟨by omega, by omega, h3, fun j hj hj' => h4 j (by omega) hj'⟩


theorem hi8_append_lo8 (a : BitVec 16) : hi8 a ++ lo8 a = a := by
  unfold hi8 lo8
  ext i hi
  simp only [BitVec.getElem_append, BitVec.getElem_extractLsb']
  split <;> rename_i h <;> simp <;> rw [BitVec.getLsbD_eq_getElem (by omega)]
  congr 1; omega

theorem RecType.ofCode_code (t : RecType) : RecType.ofCode t.code = some t := by cases t <;> rfl

theorem RecType.code_of_ofCode (b : Byte) (t : RecType) : RecType.ofCode b = some t → t.code = b := by
  revert b t
  intro b
  have : ∀ b : Byte, ∀ t ∈ [RecType.data, .eof, .esa, .ssa, .ela, .sla], RecType.ofCode b = some t → t.code = b := by decide
  intro t
  exact this b t (by cases t <;> simp)

theorem RecType.ofCode_isSome (b : Byte) : (RecType.ofCode b).isSome ↔ b.toNat ≤ 5 := by
  revert b; decide

theorem map_byteAt_spell (lc : Bool) (pre bytes post : List Byte) :
    ((List.range bytes.length).map fun k => byteAt lc (spell (pre ++ bytes ++ post)) (1 + 2 * pre.length + 2 * k)) = bytes := by
  apply List.ext_getElem?
  intro k
  by_cases hk : k < bytes.length
  · rw [List.getElem?_map, List.getElem?_range hk, Option.map_some]
    rw [show 1 + 2 * pre.length + 2 * k = 1 + 2 * (pre.length + k) by omega]
    rw [byteAt_spell lc _ (pre.length + k) bytes[k]]
    · simp
    · simp [List.getElem?_append, hk]
  · rw [List.getElem?_eq_none (by simpa using hk), List.getElem?_eq_none (by simpa using hk)]

/-- decoding spelled bytes with the right length byte -/
theorem decodeLine_spell (lc : Bool) (tt : Byte) (a : BitVec 16) (bytes : List Byte) (declared : Byte)
    (hlen : bytes.length ≤ 255) :
    decodeLine lc (spell ([BitVec.ofNat 8 bytes.length, hi8 a, lo8 a, tt] ++ bytes ++ [declared])) =
      decodeChecked tt a bytes declared := by
  set B := [BitVec.ofNat 8 bytes.length, hi8 a, lo8 a, tt] ++ bytes ++ [declared] with hB
  have hBl : B.length = 5 + bytes.length := by simp [hB]; omega
  have h0 : byteAt lc (spell B) 1 = BitVec.ofNat 8 bytes.length := byteAt_spell lc B 0 _ (by simp [hB])
  have h1 : byteAt lc (spell B) 3 = hi8 a := byteAt_spell lc B 1 _ (by simp [hB])
  have h2 : byteAt lc (spell B) 5 = lo8 a := byteAt_spell lc B 2 _ (by simp [hB])
  have h3 : byteAt lc (spell B) 7 = tt := byteAt_spell lc B 3 _ (by simp [hB])
  have hn : (BitVec.ofNat 8 bytes.length).toNat = bytes.length := by simp; omega
  have hd : ((List.range bytes.length).map fun k => byteAt lc (spell B) (9 + 2 * k)) = bytes :=
    map_byteAt_spell lc [BitVec.ofNat 8 bytes.length, hi8 a, lo8 a, tt] bytes [declared]
  have hc : byteAt lc (spell B) (9 + 2 * bytes.length) = declared := by
    rw [show 9 + 2 * bytes.length = 1 + 2 * (4 + bytes.length) by omega]
    refine byteAt_spell lc B _ _ ?_
    rw [hB, List.getElem?_append_right (by simp; omega)]
    simp [Nat.add_comm 4]
  have hhead : (spell B).head? = some colon := rfl
  unfold decodeLine
  simp only [hhead, ne_eq, not_true_eq_false, if_false, firstBadDigit_spell lc B 1 8 (by omega) (by omega),
    h0, h1, h2, h3, hn, hi8_append_lo8]
  unfold decodeBody
  rw [spell_length, hBl, if_neg (by omega), firstBadDigit_spell lc B _ _ (by omega) (by omega),
    firstBadDigit_spell lc B _ _ (by omega) (by omega)]
  simp only [hd, hc]

theorem decodeChecked_eq (tt : Byte) (a : BitVec 16) (bytes : List Byte) (declared : Byte) :
    decodeChecked tt a bytes declared =
      if declared = checksum tt a bytes then
        match RecType.ofCode tt with
        | none => .formatError .reservedType 5 tt.toNat
        | some ty => .ok { recordType := ty, address := a, data := bytes, checksum := checksum tt a bytes }
      else .checksumError (checksum tt a bytes) declared := by
  unfold decodeChecked makeRecord
  by_cases h : declared = checksum tt a bytes
  · cases hty : RecType.ofCode tt <;> simp [h]
  · simp [h]

theorem decodeLine_encodeLine (lc : Bool) (t : RecType) (a : BitVec 16) (bytes : List Byte) (h : bytes.length ≤ 255) :
    decodeLine lc (encodeLine t.code a bytes) =
      .ok { recordType := t, address := a, data := bytes, checksum := checksum t.code a bytes } := by
  rw [encodeLine, recordBytes, decodeLine_spell lc _ _ _ _ h, decodeChecked_eq, if_pos rfl, RecType.ofCode_code]

/-- a byte pair of uppercase digits is the spelling of its value -/
theorem hexval_false_eq (c : Byte) (v : BitVec 4) (h : hexval false c = some v) : c = digit v := by
  have key : ∀ c : Byte, ∀ w ∈ hexval false c, c = digit w := by decide
  exact key c v h

theorem hexval_of_not_lower (lc : Bool) (c : Byte) (h : ¬(0x61 ≤ c.toNat ∧ c.toNat ≤ 0x66)) :
    hexval lc c = hexval false c := by
  revert lc c; decide

theorem hex2_append (h l : BitVec 4) : hex2 (h ++ l) = [digit h, digit l] := by
  revert h l; decide

/-- a line whose characters after the marker are uppercase digits is the spelling of its byte pairs -/
theorem eq_flatMap_hex2 (lc : Bool) (m : Nat) (u : Line) (hu : u.length = 2 * m)
    (hd : ∀ j, j < 2 * m → ∃ v, u[j]? = some (digit v)) :
    u = ((List.range m).map fun k => byteAt lc u (2 * k)).flatMap hex2 := by
  induction m generalizing u with
  | zero => simpa using hu
  | succ m ih =>
    obtain ⟨c1, c2, u, rfl⟩ : ∃ c1 c2 w, u = c1 :: c2 :: w := by
      rcases u with _ | ⟨c1, _ | ⟨c2, u⟩⟩
      · rw [List.length_nil] at hu; omega
      · rw [List.length_singleton] at hu; omega
      · exact ⟨c1, c2, u, rfl⟩
    obtain ⟨v1, h1⟩ := hd 0 (by omega)
    obtain ⟨v2, h2⟩ := hd 1 (by omega)
    simp at h1 h2
    subst h1 h2
    have hu' : u.length = 2 * m := by simp at hu; omega
    have := ih u hu' (fun j hj => hd (j + 2) (by omega))
    rw [List.range_succ_eq_map, List.map_cons, List.flatMap_cons, List.map_map]
    have hb : byteAt lc (digit v1 :: digit v2 :: u) (2 * 0) = v1 ++ v2 := by
      simp [byteAt, byteval, hexval_digit]
    rw [hb, hex2_append]
    simp only [List.cons_append, List.nil_append]
    congr 2

theorem eq_spell (lc : Bool) (m : Nat) (t : Line) (h0 : t.head? = some colon) (ht : t.length = 1 + 2 * m)
    (hd : ∀ j, 1 ≤ j → j < t.length → ∃ v, t[j]? = some (digit v)) :
    t = spell ((List.range m).map fun k => byteAt lc t (1 + 2 * k)) := by
  obtain ⟨u, rfl⟩ : ∃ u, t = colon :: u := by cases t <;> simp_all
  have hu : u.length = 2 * m := by simp at ht; omega
  have := eq_flatMap_hex2 lc m u hu (fun j hj => hd (j + 1) (by omega) (by simp; omega))
  unfold spell
  congr 1
  refine this.trans ?_
  congr 2
  funext k
  simp [byteAt, Nat.add_comm 1]

/-! ### Accepted lines -/

theorem hi8_append (x y : Byte) : hi8 (x ++ y) = x := by
  unfold hi8
  ext i hi
  have := @BitVec.getLsbD_append 8 8 (8 + i) x y
  rw [BitVec.getElem_extractLsb']
  refine this.trans ?_
  simp [hi]

theorem lo8_append (x y : Byte) : lo8 (x ++ y) = y := by
  unfold lo8
  ext i hi
  have := @BitVec.getLsbD_append 8 8 (0 + i) x y
  rw [BitVec.getElem_extractLsb']
  refine this.trans ?_
  simp [hi]

/-- The whole of `DecodeLine` on a line of the right form. -/
theorem decodeLine_of_digits (lc : Bool) (t : Line) (n : Nat) (h0 : t.head? = some colon)
    (hd : ∀ j, 1 ≤ j → j < t.length → ∃ c, t[j]? = some c ∧ (hexval lc c).isSome)
    (hn : (byteAt lc t 1).toNat = n) (hl : t.length = 11 + 2 * n) :
    decodeLine lc t = decodeChecked (byteAt lc t 7) (byteAt lc t 3 ++ byteAt lc t 5)
      ((List.range n).map fun k => byteAt lc t (9 + 2 * k)) (byteAt lc t (9 + 2 * n)) := by
  have hf : ∀ start count, 1 ≤ start → start + count ≤ t.length → firstBadDigit lc t start count = none := by
    intro start count h1 h2
    rw [firstBadDigit_eq_none_iff]
    exact fun j hj hj' => hd j (by omega) (by omega)
  subst hn
  unfold decodeLine
  simp only [h0, ne_eq, not_true_eq_false, if_false, hf 1 8 (by omega) (by omega)]
  unfold decodeBody
  rw [if_neg (by omega), hf _ _ (by omega) (by omega), hf _ _ (by omega) (by omega)]

theorem decodeChecked_eq_ok (tt : Byte) (a : BitVec 16) (bytes : List Byte) (declared : Byte) (r : HexRecord)
    (h : decodeChecked tt a bytes declared = .ok r) :
    declared = checksum tt a bytes ∧ r.recordType.code = tt ∧ r.address = a ∧ r.data = bytes ∧
      r.checksum = declared := by
  rw [decodeChecked_eq] at h
  split at h
  · rename_i hc
    cases hty : RecType.ofCode tt with
    | none => simp [hty] at h
    | some ty =>
      simp only [hty, DecodeResult.ok.injEq] at h
      subst h
      exact ⟨hc, RecType.code_of_ofCode _ _ hty, rfl, rfl, hc.symm⟩
  · simp at h

/-- What an accepted line looks like. -/
theorem decodeLine_eq_ok (lc : Bool) (t : Line) (r : HexRecord) (h : decodeLine lc t = .ok r) :
    t.head? = some colon ∧ t.length = 11 + 2 * r.data.length ∧ r.data.length ≤ 255 ∧
      r.checksum = checksum r.recordType.code r.address r.data ∧
      (∀ j, 1 ≤ j → j < t.length → ∃ c, t[j]? = some c ∧ (hexval lc c).isSome) ∧
      ((List.range (5 + r.data.length)).map fun k => byteAt lc t (1 + 2 * k)) =
        recordBytes { typeByte := r.recordType.code, address := r.address, data := r.data, checksum := r.checksum } := by
  unfold decodeLine at h
  split at h
  · simp at h
  rename_i c h0
  split at h
  · simp at h
  rename_i hc
  have hc : c = colon := by simpa using hc
  subst hc
  split at h
  · simp at h
  rename_i hhead
  unfold decodeBody at h
  split at h
  · simp at h
  rename_i hl
  split at h
  · simp at h
  rename_i hdata
  split at h
  · simp at h
  rename_i hsum
  obtain ⟨h1, h2, h3, h4, h5⟩ := decodeChecked_eq_ok _ _ _ _ _ h
  set n := (byteAt lc t 1).toNat with hn
  have hl : t.length = 11 + 2 * n := by simpa using hl
  have hlen : r.data.length = n := by rw [h4]; simp
  have hn255 : n ≤ 255 := by rw [hn]; have := (byteAt lc t 1).isLt; omega
  rw [firstBadDigit_eq_none_iff] at hhead hdata hsum
  refine ⟨h0, by omega, by omega, ?_, ?_, ?_⟩
  · rw [h2, h3, h4, h5, h1]
  · intro j hj hj'
    rcases Nat.lt_or_ge j 9 with hlt | hge
    · exact hhead j hj (by omega)
    rcases Nat.lt_or_ge j (9 + 2 * n) with hlt | hge
    · exact hdata j hge (by omega)
    · exact hsum j hge (by omega)
  · have hb1 : byteAt lc t 1 = BitVec.ofNat 8 r.data.length := by
      rw [hlen, hn, BitVec.ofNat_toNat, BitVec.setWidth_eq]
    have hb3 : byteAt lc t 3 = hi8 r.address := by rw [h3, hi8_append]
    have hb5 : byteAt lc t 5 = lo8 r.address := by rw [h3, lo8_append]
    have hr : List.range (5 + r.data.length) = [0, 1, 2, 3] ++ (List.range n).map (4 + ·) ++ [4 + n] := by
      rw [hlen, show 5 + n = 4 + n + 1 by omega, List.range_succ, List.range_add]
      rfl
    rw [hr]
    simp only [recordBytes, List.map_append, List.map_cons, List.map_nil, List.map_map]
    rw [← hb1, ← hb3, ← hb5, h2, h5, h4]
    congr 2
    · apply List.map_congr_left
      intro k _
      simp only [Function.comp]
      congr 1; omega
    · rw [show 1 + 2 * (4 + n) = 9 + 2 * n by omega]

/-- An accepted line with no lowercase digit is the encoding of its record. -/
theorem line_eq_of_decodeLine (lc : Bool) (t : Line) (r : HexRecord) (h : decodeLine lc t = .ok r)
    (hu : ∀ c ∈ t, hexval lc c = hexval false c) : t = encodeLine r.recordType.code r.address r.data := by
  obtain ⟨h0, hl, hle, hc, hd, hb⟩ := decodeLine_eq_ok lc t r h
  have := eq_spell lc (5 + r.data.length) t h0 (by omega) (fun j h1 h2 => by
    obtain ⟨c, hc1, hc2⟩ := hd j h1 h2
    rw [hu c (List.mem_of_getElem? hc1)] at hc2
    obtain ⟨v, hv⟩ := Option.isSome_iff_exists.1 hc2
    exact ⟨v, by rw [hc1, hexval_false_eq c v hv]⟩)
  rw [this, hb, encodeLine, hc]

/-- trimming -/
theorem inTrimSet_colon : inTrimSet colon = false := by decide

theorem inTrimSet_of_hexval (lc : Bool) (c : Byte) (h : (hexval lc c).isSome) : inTrimSet c = false := by
  revert lc c; decide

theorem trim_eq_self (t : Line) (h1 : ∀ c, t.head? = some c → inTrimSet c = false)
    (h2 : ∀ c, t.getLast? = some c → inTrimSet c = false) : trim t = t := by
  have hd : ∀ l : Line, (∀ c, l.head? = some c → inTrimSet c = false) → l.dropWhile inTrimSet = l := by
    intro l hl
    cases l with
    | nil => rfl
    | cons c l => simp [hl c rfl]
  unfold trim
  rw [hd t h1, hd t.reverse (fun c hc => h2 c (by simpa using hc)), List.reverse_reverse]

theorem trim_of_decodes (lc : Bool) (t : Line) (r : HexRecord) (h : decodeLine lc t = .ok r) : trim t = t := by
  obtain ⟨h0, hl, hle, hc, hd, hb⟩ := decodeLine_eq_ok lc t r h
  apply trim_eq_self
  · intro c hc; rw [h0] at hc; cases hc; exact inTrimSet_colon
  · intro c hc
    rw [List.getLast?_eq_getElem?] at hc
    obtain ⟨c', hc1, hc2⟩ := hd (t.length - 1) (by omega) (by omega)
    rw [hc] at hc1; cases hc1
    exact inTrimSet_of_hexval lc _ hc2

theorem encodeLine_length (t : Byte) (a : BitVec 16) (bytes : List Byte) :
    (encodeLine t a bytes).length = 11 + 2 * bytes.length := by
  rw [encodeLine, spell_length, recordBytes]; simp; omega

theorem trim_encodeLine (t : RecType) (a : BitVec 16) (bytes : List Byte) (h : bytes.length ≤ 255) :
    trim (encodeLine t.code a bytes) = encodeLine t.code a bytes :=
  trim_of_decodes false _ _ (decodeLine_encodeLine false t a bytes h)

end Sys2Proof
end

