-- ==== Sys2Proof/Laws/State.lean ====
section
/-! SUPPORT. What each shared operation leaves in each field of the state: one lemma per field per operation. -/

namespace Sys2Proof.Machine

variable (s : State)

/-! ### `WriteLine` -/

@[simp] theorem writeLine_gphase (line : Line) : (writeLine line s).gphase = s.gphase := rfl
@[simp] theorem writeLine_mode (line : Line) : (writeLine line s).mode = s.mode := rfl
@[simp] theorem writeLine_cur (line : Line) : (writeLine line s).cur = s.cur := rfl
@[simp] theorem writeLine_segbase (line : Line) : (writeLine line s).segbase = s.segbase := rfl
@[simp] theorem writeLine_out (line : Line) : (writeLine line s).out = s.out ++ (line ++ [newline]) := rfl
@[simp] theorem writeLine_gerr (line : Line) : (writeLine line s).gerr = s.gerr := rfl
@[simp] theorem writeLine_gea (line : Line) : (writeLine line s).gea = s.gea := rfl
@[simp] theorem writeLine_geb (line : Line) : (writeLine line s).geb = s.geb := rfl
@[simp] theorem writeLine_dphase (line : Line) : (writeLine line s).dphase = s.dphase := rfl
@[simp] theorem writeLine_lineno (line : Line) : (writeLine line s).lineno = s.lineno := rfl
@[simp] theorem writeLine_derr (line : Line) : (writeLine line s).derr = s.derr := rfl
@[simp] theorem writeLine_dsub (line : Line) : (writeLine line s).dsub = s.dsub := rfl
@[simp] theorem writeLine_dline (line : Line) : (writeLine line s).dline = s.dline := rfl
@[simp] theorem writeLine_dexp (line : Line) : (writeLine line s).dexp = s.dexp := rfl
@[simp] theorem writeLine_dact (line : Line) : (writeLine line s).dact = s.dact := rfl
@[simp] theorem writeLine_dres (line : Line) : (writeLine line s).dres = s.dres := rfl
@[simp] theorem writeLine_eres (line : Line) : (writeLine line s).eres = s.eres := rfl
@[simp] theorem writeLine_port (line : Line) : (writeLine line s).port = s.port := rfl
@[simp] theorem writeLine_freeCount (line : Line) : (writeLine line s).freeCount = s.freeCount := rfl

/-! ### `GEN_START` and leaving a generator error -/

@[simp] theorem openRun_gphase (m : Byte) : (openRun m s).gphase = if modeSupported m then .run else .fault := rfl
@[simp] theorem openRun_mode (m : Byte) : (openRun m s).mode = m := rfl
@[simp] theorem openRun_cur (m : Byte) : (openRun m s).cur = 0 := rfl
@[simp] theorem openRun_segbase (m : Byte) : (openRun m s).segbase = 0 := rfl
@[simp] theorem openRun_out (m : Byte) : (openRun m s).out = [] := rfl
@[simp] theorem openRun_gerr (m : Byte) : (openRun m s).gerr = if modeSupported m then .none else .unsupportedMode := rfl
@[simp] theorem openRun_gea (m : Byte) : (openRun m s).gea = 0 := rfl
@[simp] theorem openRun_geb (m : Byte) : (openRun m s).geb = 0 := rfl
@[simp] theorem openRun_dphase (m : Byte) : (openRun m s).dphase = s.dphase := rfl
@[simp] theorem openRun_lineno (m : Byte) : (openRun m s).lineno = s.lineno := rfl
@[simp] theorem openRun_derr (m : Byte) : (openRun m s).derr = s.derr := rfl
@[simp] theorem openRun_dsub (m : Byte) : (openRun m s).dsub = s.dsub := rfl
@[simp] theorem openRun_dline (m : Byte) : (openRun m s).dline = s.dline := rfl
@[simp] theorem openRun_dexp (m : Byte) : (openRun m s).dexp = s.dexp := rfl
@[simp] theorem openRun_dact (m : Byte) : (openRun m s).dact = s.dact := rfl
@[simp] theorem openRun_dres (m : Byte) : (openRun m s).dres = s.dres := rfl
@[simp] theorem openRun_eres (m : Byte) : (openRun m s).eres = s.eres := rfl
@[simp] theorem openRun_port (m : Byte) : (openRun m s).port = s.port := rfl
@[simp] theorem openRun_freeCount (m : Byte) : (openRun m s).freeCount = s.freeCount := rfl

/-! ### `DEC_OPEN` and leaving a decoder error -/

@[simp] theorem openStream_gphase : (openStream s).gphase = s.gphase := rfl
@[simp] theorem openStream_mode : (openStream s).mode = s.mode := rfl
@[simp] theorem openStream_cur : (openStream s).cur = s.cur := rfl
@[simp] theorem openStream_segbase : (openStream s).segbase = s.segbase := rfl
@[simp] theorem openStream_out : (openStream s).out = s.out := rfl
@[simp] theorem openStream_gerr : (openStream s).gerr = s.gerr := rfl
@[simp] theorem openStream_gea : (openStream s).gea = s.gea := rfl
@[simp] theorem openStream_geb : (openStream s).geb = s.geb := rfl
@[simp] theorem openStream_dphase : (openStream s).dphase = .ready := rfl
@[simp] theorem openStream_lineno : (openStream s).lineno = 0 := rfl
@[simp] theorem openStream_derr : (openStream s).derr = .none := rfl
@[simp] theorem openStream_dsub : (openStream s).dsub = .none := rfl
@[simp] theorem openStream_dline : (openStream s).dline = 0 := rfl
@[simp] theorem openStream_dexp : (openStream s).dexp = 0 := rfl
@[simp] theorem openStream_dact : (openStream s).dact = 0 := rfl
@[simp] theorem openStream_dres : (openStream s).dres = .none := rfl
@[simp] theorem openStream_eres : (openStream s).eres = s.eres := rfl
@[simp] theorem openStream_port : (openStream s).port = s.port := rfl
@[simp] theorem openStream_freeCount : (openStream s).freeCount = s.freeCount := rfl

/-! ### Decoder fault entry -/

@[simp] theorem raiseDec_gphase (e : ErrorKind) (sub : SubCause) (exp act : BitVec 16) (res : DecodeBuffer) : (raiseDec e sub exp act res s).gphase = s.gphase := rfl
@[simp] theorem raiseDec_mode (e : ErrorKind) (sub : SubCause) (exp act : BitVec 16) (res : DecodeBuffer) : (raiseDec e sub exp act res s).mode = s.mode := rfl
@[simp] theorem raiseDec_cur (e : ErrorKind) (sub : SubCause) (exp act : BitVec 16) (res : DecodeBuffer) : (raiseDec e sub exp act res s).cur = s.cur := rfl
@[simp] theorem raiseDec_segbase (e : ErrorKind) (sub : SubCause) (exp act : BitVec 16) (res : DecodeBuffer) : (raiseDec e sub exp act res s).segbase = s.segbase := rfl
@[simp] theorem raiseDec_out (e : ErrorKind) (sub : SubCause) (exp act : BitVec 16) (res : DecodeBuffer) : (raiseDec e sub exp act res s).out = s.out := rfl
@[simp] theorem raiseDec_gerr (e : ErrorKind) (sub : SubCause) (exp act : BitVec 16) (res : DecodeBuffer) : (raiseDec e sub exp act res s).gerr = s.gerr := rfl
@[simp] theorem raiseDec_gea (e : ErrorKind) (sub : SubCause) (exp act : BitVec 16) (res : DecodeBuffer) : (raiseDec e sub exp act res s).gea = s.gea := rfl
@[simp] theorem raiseDec_geb (e : ErrorKind) (sub : SubCause) (exp act : BitVec 16) (res : DecodeBuffer) : (raiseDec e sub exp act res s).geb = s.geb := rfl
@[simp] theorem raiseDec_dphase (e : ErrorKind) (sub : SubCause) (exp act : BitVec 16) (res : DecodeBuffer) : (raiseDec e sub exp act res s).dphase = .fault := rfl
@[simp] theorem raiseDec_lineno (e : ErrorKind) (sub : SubCause) (exp act : BitVec 16) (res : DecodeBuffer) : (raiseDec e sub exp act res s).lineno = s.lineno := rfl
@[simp] theorem raiseDec_derr (e : ErrorKind) (sub : SubCause) (exp act : BitVec 16) (res : DecodeBuffer) : (raiseDec e sub exp act res s).derr = e := rfl
@[simp] theorem raiseDec_dsub (e : ErrorKind) (sub : SubCause) (exp act : BitVec 16) (res : DecodeBuffer) : (raiseDec e sub exp act res s).dsub = sub := rfl
@[simp] theorem raiseDec_dline (e : ErrorKind) (sub : SubCause) (exp act : BitVec 16) (res : DecodeBuffer) : (raiseDec e sub exp act res s).dline = s.lineno := rfl
@[simp] theorem raiseDec_dexp (e : ErrorKind) (sub : SubCause) (exp act : BitVec 16) (res : DecodeBuffer) : (raiseDec e sub exp act res s).dexp = exp := rfl
@[simp] theorem raiseDec_dact (e : ErrorKind) (sub : SubCause) (exp act : BitVec 16) (res : DecodeBuffer) : (raiseDec e sub exp act res s).dact = act := rfl
@[simp] theorem raiseDec_dres (e : ErrorKind) (sub : SubCause) (exp act : BitVec 16) (res : DecodeBuffer) : (raiseDec e sub exp act res s).dres = res := rfl
@[simp] theorem raiseDec_eres (e : ErrorKind) (sub : SubCause) (exp act : BitVec 16) (res : DecodeBuffer) : (raiseDec e sub exp act res s).eres = s.eres := rfl
@[simp] theorem raiseDec_port (e : ErrorKind) (sub : SubCause) (exp act : BitVec 16) (res : DecodeBuffer) : (raiseDec e sub exp act res s).port = s.port := rfl
@[simp] theorem raiseDec_freeCount (e : ErrorKind) (sub : SubCause) (exp act : BitVec 16) (res : DecodeBuffer) : (raiseDec e sub exp act res s).freeCount = s.freeCount := rfl

/-! ### Generator fault entry -/

@[simp] theorem raiseGen_gphase (e : ErrorKind) (a : BitVec 32) (b : BitVec 33) : (raiseGen e a b s).gphase = .fault := by unfold raiseGen; split <;> simp_all
@[simp] theorem raiseGen_mode (e : ErrorKind) (a : BitVec 32) (b : BitVec 33) : (raiseGen e a b s).mode = s.mode := by unfold raiseGen; split <;> simp_all
@[simp] theorem raiseGen_cur (e : ErrorKind) (a : BitVec 32) (b : BitVec 33) : (raiseGen e a b s).cur = s.cur := by unfold raiseGen; split <;> simp_all
@[simp] theorem raiseGen_segbase (e : ErrorKind) (a : BitVec 32) (b : BitVec 33) : (raiseGen e a b s).segbase = s.segbase := by unfold raiseGen; split <;> simp_all
@[simp] theorem raiseGen_out (e : ErrorKind) (a : BitVec 32) (b : BitVec 33) : (raiseGen e a b s).out = s.out := by unfold raiseGen; split <;> simp_all
@[simp] theorem raiseGen_gerr (e : ErrorKind) (a : BitVec 32) (b : BitVec 33) : (raiseGen e a b s).gerr = if s.gphase = .fault then s.gerr else e := by unfold raiseGen; split <;> simp_all
@[simp] theorem raiseGen_gea (e : ErrorKind) (a : BitVec 32) (b : BitVec 33) : (raiseGen e a b s).gea = if s.gphase = .fault then s.gea else a := by unfold raiseGen; split <;> simp_all
@[simp] theorem raiseGen_geb (e : ErrorKind) (a : BitVec 32) (b : BitVec 33) : (raiseGen e a b s).geb = if s.gphase = .fault then s.geb else b := by unfold raiseGen; split <;> simp_all
@[simp] theorem raiseGen_dphase (e : ErrorKind) (a : BitVec 32) (b : BitVec 33) : (raiseGen e a b s).dphase = s.dphase := by unfold raiseGen; split <;> simp_all
@[simp] theorem raiseGen_lineno (e : ErrorKind) (a : BitVec 32) (b : BitVec 33) : (raiseGen e a b s).lineno = s.lineno := by unfold raiseGen; split <;> simp_all
@[simp] theorem raiseGen_derr (e : ErrorKind) (a : BitVec 32) (b : BitVec 33) : (raiseGen e a b s).derr = s.derr := by unfold raiseGen; split <;> simp_all
@[simp] theorem raiseGen_dsub (e : ErrorKind) (a : BitVec 32) (b : BitVec 33) : (raiseGen e a b s).dsub = s.dsub := by unfold raiseGen; split <;> simp_all
@[simp] theorem raiseGen_dline (e : ErrorKind) (a : BitVec 32) (b : BitVec 33) : (raiseGen e a b s).dline = s.dline := by unfold raiseGen; split <;> simp_all
@[simp] theorem raiseGen_dexp (e : ErrorKind) (a : BitVec 32) (b : BitVec 33) : (raiseGen e a b s).dexp = s.dexp := by unfold raiseGen; split <;> simp_all
@[simp] theorem raiseGen_dact (e : ErrorKind) (a : BitVec 32) (b : BitVec 33) : (raiseGen e a b s).dact = s.dact := by unfold raiseGen; split <;> simp_all
@[simp] theorem raiseGen_dres (e : ErrorKind) (a : BitVec 32) (b : BitVec 33) : (raiseGen e a b s).dres = s.dres := by unfold raiseGen; split <;> simp_all
@[simp] theorem raiseGen_eres (e : ErrorKind) (a : BitVec 32) (b : BitVec 33) : (raiseGen e a b s).eres = s.eres := by unfold raiseGen; split <;> simp_all
@[simp] theorem raiseGen_port (e : ErrorKind) (a : BitVec 32) (b : BitVec 33) : (raiseGen e a b s).port = s.port := by unfold raiseGen; split <;> simp_all
@[simp] theorem raiseGen_freeCount (e : ErrorKind) (a : BitVec 32) (b : BitVec 33) : (raiseGen e a b s).freeCount = s.freeCount := by unfold raiseGen; split <;> simp_all

/-! ### The Data record of a chunk -/

@[simp] theorem placeChunk_gphase (chunk : List Byte) : (placeChunk chunk s).gphase = s.gphase := rfl
@[simp] theorem placeChunk_mode (chunk : List Byte) : (placeChunk chunk s).mode = s.mode := rfl
@[simp] theorem placeChunk_cur (chunk : List Byte) : (placeChunk chunk s).cur = s.cur + BitVec.ofNat 32 chunk.length := rfl
@[simp] theorem placeChunk_segbase (chunk : List Byte) : (placeChunk chunk s).segbase = s.segbase := rfl
@[simp] theorem placeChunk_out (chunk : List Byte) : (placeChunk chunk s).out = s.out ++ (encodeLine 0 (s.cur.extractLsb' 0 16) chunk ++ [newline]) := rfl
@[simp] theorem placeChunk_gerr (chunk : List Byte) : (placeChunk chunk s).gerr = s.gerr := rfl
@[simp] theorem placeChunk_gea (chunk : List Byte) : (placeChunk chunk s).gea = s.gea := rfl
@[simp] theorem placeChunk_geb (chunk : List Byte) : (placeChunk chunk s).geb = s.geb := rfl
@[simp] theorem placeChunk_dphase (chunk : List Byte) : (placeChunk chunk s).dphase = s.dphase := rfl
@[simp] theorem placeChunk_lineno (chunk : List Byte) : (placeChunk chunk s).lineno = s.lineno := rfl
@[simp] theorem placeChunk_derr (chunk : List Byte) : (placeChunk chunk s).derr = s.derr := rfl
@[simp] theorem placeChunk_dsub (chunk : List Byte) : (placeChunk chunk s).dsub = s.dsub := rfl
@[simp] theorem placeChunk_dline (chunk : List Byte) : (placeChunk chunk s).dline = s.dline := rfl
@[simp] theorem placeChunk_dexp (chunk : List Byte) : (placeChunk chunk s).dexp = s.dexp := rfl
@[simp] theorem placeChunk_dact (chunk : List Byte) : (placeChunk chunk s).dact = s.dact := rfl
@[simp] theorem placeChunk_dres (chunk : List Byte) : (placeChunk chunk s).dres = s.dres := rfl
@[simp] theorem placeChunk_eres (chunk : List Byte) : (placeChunk chunk s).eres = s.eres := rfl
@[simp] theorem placeChunk_port (chunk : List Byte) : (placeChunk chunk s).port = s.port := rfl
@[simp] theorem placeChunk_freeCount (chunk : List Byte) : (placeChunk chunk s).freeCount = s.freeCount := rfl

/-! ### Reset -/

@[simp] theorem applyReset_gphase : (applyReset s).gphase = State.reset.gphase := rfl
@[simp] theorem applyReset_mode : (applyReset s).mode = State.reset.mode := rfl
@[simp] theorem applyReset_cur : (applyReset s).cur = State.reset.cur := rfl
@[simp] theorem applyReset_segbase : (applyReset s).segbase = State.reset.segbase := rfl
@[simp] theorem applyReset_out : (applyReset s).out = State.reset.out := rfl
@[simp] theorem applyReset_gerr : (applyReset s).gerr = State.reset.gerr := rfl
@[simp] theorem applyReset_gea : (applyReset s).gea = State.reset.gea := rfl
@[simp] theorem applyReset_geb : (applyReset s).geb = State.reset.geb := rfl
@[simp] theorem applyReset_dphase : (applyReset s).dphase = State.reset.dphase := rfl
@[simp] theorem applyReset_lineno : (applyReset s).lineno = State.reset.lineno := rfl
@[simp] theorem applyReset_derr : (applyReset s).derr = State.reset.derr := rfl
@[simp] theorem applyReset_dsub : (applyReset s).dsub = State.reset.dsub := rfl
@[simp] theorem applyReset_dline : (applyReset s).dline = State.reset.dline := rfl
@[simp] theorem applyReset_dexp : (applyReset s).dexp = State.reset.dexp := rfl
@[simp] theorem applyReset_dact : (applyReset s).dact = State.reset.dact := rfl
@[simp] theorem applyReset_dres : (applyReset s).dres = State.reset.dres := rfl
@[simp] theorem applyReset_eres : (applyReset s).eres = State.reset.eres := rfl
@[simp] theorem applyReset_port : (applyReset s).port = s.port := rfl
@[simp] theorem applyReset_freeCount : (applyReset s).freeCount = s.freeCount := rfl

/-! ### The line counter -/

@[simp] theorem countLine_gphase : (countLine s).gphase = s.gphase := by unfold countLine; split <;> rfl
@[simp] theorem countLine_mode : (countLine s).mode = s.mode := by unfold countLine; split <;> rfl
@[simp] theorem countLine_cur : (countLine s).cur = s.cur := by unfold countLine; split <;> rfl
@[simp] theorem countLine_segbase : (countLine s).segbase = s.segbase := by unfold countLine; split <;> rfl
@[simp] theorem countLine_out : (countLine s).out = s.out := by unfold countLine; split <;> rfl
@[simp] theorem countLine_gerr : (countLine s).gerr = s.gerr := by unfold countLine; split <;> rfl
@[simp] theorem countLine_gea : (countLine s).gea = s.gea := by unfold countLine; split <;> rfl
@[simp] theorem countLine_geb : (countLine s).geb = s.geb := by unfold countLine; split <;> rfl
@[simp] theorem countLine_dphase : (countLine s).dphase = s.dphase := by unfold countLine; split <;> rfl
@[simp] theorem countLine_derr : (countLine s).derr = s.derr := by unfold countLine; split <;> rfl
@[simp] theorem countLine_dsub : (countLine s).dsub = s.dsub := by unfold countLine; split <;> rfl
@[simp] theorem countLine_dline : (countLine s).dline = s.dline := by unfold countLine; split <;> rfl
@[simp] theorem countLine_dexp : (countLine s).dexp = s.dexp := by unfold countLine; split <;> rfl
@[simp] theorem countLine_dact : (countLine s).dact = s.dact := by unfold countLine; split <;> rfl
@[simp] theorem countLine_dres : (countLine s).dres = s.dres := by unfold countLine; split <;> rfl
@[simp] theorem countLine_eres : (countLine s).eres = s.eres := by unfold countLine; split <;> rfl
@[simp] theorem countLine_port : (countLine s).port = s.port := by unfold countLine; split <;> rfl

/-! ### The error a result buffer reports -/

@[simp] theorem DecodeBuffer.error_none : DecodeBuffer.none.error = .none := rfl
@[simp] theorem DecodeBuffer.error_ok (r : HexRecord) : (DecodeBuffer.ok r).error = .none := rfl
@[simp] theorem DecodeBuffer.error_eos : DecodeBuffer.eos.error = .none := rfl
@[simp] theorem DecodeBuffer.error_formatError (sub : SubCause) : (DecodeBuffer.formatError sub).error = .formatError := rfl
@[simp] theorem DecodeBuffer.error_checksumError : DecodeBuffer.checksumError.error = .checksumError := rfl
@[simp] theorem DecodeBuffer.error_sequenceFault : DecodeBuffer.sequenceFault.error = .sequenceFault := rfl
@[simp] theorem EncodeBuffer.error_none : EncodeBuffer.none.error = .none := rfl
@[simp] theorem EncodeBuffer.error_ok (line : Line) : (EncodeBuffer.ok line).error = .none := rfl
@[simp] theorem EncodeBuffer.error_illegalOperand : EncodeBuffer.illegalOperand.error = .illegalOperand := rfl

/-- Below its last value the counter advances by one and takes no free value. -/
theorem countLine_of_ne (h : s.lineno ≠ 0xFFFFFFFF) : countLine s = { s with lineno := s.lineno + 1 } := by
  unfold countLine
  exact if_neg h

/-- Past its last value the counter takes a free value. -/
theorem countLine_of_last (h : s.lineno = 0xFFFFFFFF) :
    countLine s = { s with lineno := Config.freeLineno s.freeCount, freeCount := s.freeCount + 1 } := by
  unfold countLine
  exact if_pos h

/-- Outside `G_FAULT` an error is recorded. -/
theorem raiseGen_of_ne (e : ErrorKind) (a : BitVec 32) (b : BitVec 33) (h : s.gphase ≠ .fault) :
    raiseGen e a b s = { s with gerr := e, gea := a, geb := b, gphase := .fault } := by
  simp [raiseGen, h]

/-- In `G_FAULT` the first error is kept and nothing changes. -/
theorem raiseGen_of_fault (e : ErrorKind) (a : BitVec 32) (b : BitVec 33) (h : s.gphase = .fault) :
    raiseGen e a b s = s := by
  simp [raiseGen, h]

end Sys2Proof.Machine
end

