-- ==== Sys2Proof/Laws/Ops.lean ====
section
/-! SUPPORT. What the shared operations can do, said once: the frames of the decoder's and the sequencer's operations,
and which line `DEC_LINE` takes a record from. -/

namespace Sys2Proof.Machine

open Sys2Proof.Safety

/-- A meaning over a payload that answers a next state answers the state it was given. -/
theorem withPayload_next {bytes : List Byte} {s t : State} (h : withPayload bytes s = .next t) : t = s := by
  unfold withPayload at h
  split at h <;> simp at h
  exact h.symm

/-- Everything one line does outside unit DEC: nothing but the model's count of free values. -/
theorem consumeLine_frame (lc : Bool) (raw : Line) (s : State) :
    SameGenerator s (consumeLine lc raw s) ∧ (consumeLine lc raw s).eres = s.eres ∧
      (consumeLine lc raw s).port = s.port := by
  unfold consumeLine
  split
  · simp only
    split
    · simp [SameGenerator, SameLayout]
    · split <;> simp [SameGenerator, SameLayout]
  · simp [SameGenerator, SameLayout]

/-- Lines that trim to the same do the same. -/
theorem consumeLine_congr (lc : Bool) (raw raw' : Line) (s : State) (h : trim raw' = trim raw) :
    consumeLine lc raw' s = consumeLine lc raw s := by
  unfold consumeLine; rw [h]

/-- A FormatError always has a sub-cause. -/
theorem decodeLine_sub_ne_none (lc : Bool) (t : Line) (sub : SubCause) (e a : Nat)
    (h : decodeLine lc t = .formatError sub e a) : sub ≠ .none := by
  unfold decodeLine decodeBody at h
  simp only [decodeChecked_eq] at h
  split at h
  · simp at h; simp [← h.1]
  split at h
  · simp at h; simp [← h.1]
  split at h
  · simp at h; simp [← h.1]
  split at h
  · simp at h; simp [← h.1]
  split at h
  · simp at h; simp [← h.1]
  split at h
  · simp at h; simp [← h.1]
  split at h
  · split at h
    · simp at h; simp [← h.1]
    · simp at h
  · simp at h

theorem windowAdvance_frame {s s1 : State} (h : windowAdvance s = .ok s1) :
    SameDecoder s s1 ∧ SameHost s s1 ∧ s1.eres = s.eres := by
  unfold windowAdvance at h
  split_ifs at h <;> simp only [Except.ok.injEq] at h <;> subst h <;>
    simp [emitELA, emitESA, SameDecoder, SameHost]

/-- Placing bytes touches unit SEQ only. -/
theorem placeBytes_frame (p : Nat) (la : BitVec 32) (src : List Byte) (s t : State)
    (h : placeBytes p la src s = .next t) : SameDecoder s t ∧ SameHost s t ∧ t.eres = s.eres := by
  induction p generalizing src s with
  | zero => simp [placeBytes] at h; subst h; simp [SameDecoder, SameHost]
  | succ p ih =>
    unfold placeBytes at h
    split at h
    · split at h
      · simp at h
      · split at h
        · simp at h; subst h; simp [SameDecoder, SameHost]
        · rename_i s1 hs1
          have b := ih _ _ h
          obtain ⟨⟨a1, a2, a3, a4, a5, a6, a7, a8⟩, ⟨a9, a10⟩, a11⟩ := windowAdvance_frame hs1
          simp only [SameDecoder, SameHost, placeChunk_dphase, placeChunk_lineno, placeChunk_derr, placeChunk_dsub,
            placeChunk_dline, placeChunk_dexp, placeChunk_dact, placeChunk_dres, placeChunk_eres, placeChunk_port,
            placeChunk_freeCount] at b ⊢
          rw [a1, a2, a3, a4, a5, a6, a7, a8, a9, a10, a11] at b
          exact b
    · simp at h; subst h; simp [SameDecoder, SameHost]

/-! ### What an operation reads: two states that agree on a unit cannot be told apart by it -/

/-- Next states that agree. -/
theorem SameOutcome_next {same : State → State → Prop} {t t' : State} (h : same t t') :
    SameOutcome same (.next t) (.next t') := h

/-- Taking a generator error reads unit SEQ only. -/
theorem raiseGen_congr (e : ErrorKind) (a : BitVec 32) (b : BitVec 33) {s s' : State} (h : SameGenerator s s') :
    SameGenerator (raiseGen e a b s) (raiseGen e a b s') := by
  obtain ⟨⟨h1, h2, h3, h4, h5, h6, h7⟩, h8⟩ := h
  simp only [SameGenerator, SameLayout, raiseGen_gphase, raiseGen_mode, raiseGen_cur, raiseGen_segbase, raiseGen_out,
    raiseGen_gerr, raiseGen_gea, raiseGen_geb, h1, h2, h3, h4, h5, h6, h7, h8, and_self]

/-- Opening a window reads unit SEQ only: the same error, or states that agree again. -/
theorem windowAdvance_congr {s s' : State} (h : SameGenerator s s') :
    (∃ nsb, windowAdvance s = .error nsb ∧ windowAdvance s' = .error nsb) ∨
      ∃ t t', windowAdvance s = .ok t ∧ windowAdvance s' = .ok t' ∧ SameGenerator t t' := by
  obtain ⟨⟨h1, h2, h3, h4, h5, h6, h7⟩, h8⟩ := h
  have hw : s'.windowPart = s.windowPart := by simp only [State.windowPart, h3]
  have hb : s'.nextBase = s.nextBase := by simp only [State.nextBase, hw, h4]
  unfold windowAdvance
  rw [hw, hb, h2]
  split_ifs
  · exact .inr ⟨s, s', rfl, rfl, ⟨h1, h2, h3, h4, h5, h6, h7⟩, h8⟩
  · exact .inl ⟨_, rfl, rfl⟩
  all_goals exact .inr ⟨_, _, rfl, rfl, by simp [SameGenerator, SameLayout, emitELA, emitESA, *]⟩

/-- The bytes of a source: what GEN_ENTRY does with them reads unit SEQ only. -/
theorem placeBytes_congr (p : Nat) (la : BitVec 32) (src : List Byte) {s s' : State} (h : SameGenerator s s') :
    SameOutcome SameGenerator (placeBytes p la src s) (placeBytes p la src s') := by
  induction p generalizing src s s' with
  | zero => exact h
  | succ p ih =>
    unfold placeBytes
    rw [h.1.2.1]
    split
    · split
      · rfl
      · rcases windowAdvance_congr h with ⟨nsb, e, e'⟩ | ⟨t, t', e, e', ht⟩
        · rw [e, e']; exact raiseGen_congr _ _ _ h
        · rw [e, e']
          simp only
          obtain ⟨⟨h1, h2, h3, h4, h5, h6, h7⟩, h8⟩ := ht
          rw [h3]
          exact ih _ (by simp only [SameGenerator, SameLayout, placeChunk_gphase, placeChunk_mode, placeChunk_cur,
            placeChunk_segbase, placeChunk_out, placeChunk_gerr, placeChunk_gea, placeChunk_geb, h1, h2, h3, h4, h5, h6,
            h7, h8, and_self])
    · exact h

/-- One line reads unit DEC and the model's count of free values only. -/
theorem consumeLine_reads (lc : Bool) (raw : Line) {s s' : State} (h : SameDecoder s s')
    (hf : s'.freeCount = s.freeCount) :
    SameDecoder (consumeLine lc raw s) (consumeLine lc raw s') ∧
      (consumeLine lc raw s').freeCount = (consumeLine lc raw s).freeCount := by
  obtain ⟨h1, h2, h3, h4, h5, h6, h7, h8⟩ := h
  have hc : (countLine s').lineno = (countLine s).lineno ∧ (countLine s').freeCount = (countLine s).freeCount := by
    unfold countLine
    rw [h2, hf]
    split <;> simp
  unfold consumeLine
  rw [h1]
  split
  · simp only
    split
    · simp [SameDecoder, *]
    · split <;> simp [SameDecoder, *]
  · simp [SameDecoder, *]

/-! ### The error a command leaves in its result buffer (60_exceptions.md R140, R148) -/

/-- `REC_ENC` reports IllegalOperand for a reserved type, nothing otherwise. -/
theorem encodeResult_error (rtype : Byte) (raddr : BitVec 16) (bytes : List Byte) :
    (encodeResult rtype raddr bytes).error = if rtype.toNat > 5 then .illegalOperand else .none := by
  unfold encodeResult
  split <;> rfl

/-- In `D_READY` with no error pending, `dres` reports the error that `derr` takes. -/
theorem consumeLine_error (lc : Bool) (raw : Line) (s : State) (h : s.dphase = .ready) (hd : s.derr = .none) :
    (consumeLine lc raw s).dres.error = (consumeLine lc raw s).derr := by
  unfold consumeLine
  rw [if_pos h]
  simp only
  split
  · simp [hd]
  · split <;> simp [hd]

/-- After the stream has ended, `dres` reports SequenceFault. -/
theorem consumeLine_error_ended (lc : Bool) (raw : Line) (s : State) (h : s.dphase ≠ .ready) :
    (consumeLine lc raw s).dres.error = .sequenceFault := by
  unfold consumeLine
  rw [if_neg h]
  rfl

end Sys2Proof.Machine
end

