-- ==== Sys2Proof/Laws/PerInstr.lean ====
section
/-! SUPPORT. The statements made per instruction. Family OpcodeTable: the encoding of an instruction carries the match
value of its row of spec/opcode_table.json, a command in `op` (30_encoding.md R58), a record in its TT byte at
characters 7 and 8 (R51, R54). -/

namespace Sys2Proof.Laws.OpcodeTable

/-- The match value of an instruction's row: `op` of a CMD row, TT of a REC row. -/
def rowMatch (i : Instr) : BitVec 3 ⊕ Byte :=
  match i with
  | .genStart _ => .inl 0
  | .genEntry _ _ => .inl 1
  | .genEnd => .inl 2
  | .recEnc _ _ _ => .inl 3
  | .decOpen => .inl 4
  | .decLine _ => .inl 5
  | .reservedOp6 => .inl 6
  | .reservedOp7 => .inl 7
  | .data _ _ _ => .inr 0
  | .eof _ _ _ => .inr 1
  | .esa _ _ _ => .inr 2
  | .ssa _ _ _ => .inr 3
  | .ela _ _ _ => .inr 4
  | .sla _ _ _ => .inr 5

/-- The encoding carries the row's match value. -/
def Statement (i : Instr) : Prop :=
  match encode i with
  | .command w => rowMatch i = .inl w.op
  | .record _ text => ∃ tt, rowMatch i = .inr tt ∧ (text.drop 7).take 2 = hex2 tt

theorem genStart (m : Byte) : Statement (.genStart m) := rfl
theorem genEntry (la : BitVec 32) (src : List Byte) : Statement (.genEntry la src) := rfl
theorem genEnd : Statement .genEnd := rfl
theorem recEnc (rtype : Byte) (raddr : BitVec 16) (bytes : List Byte) : Statement (.recEnc rtype raddr bytes) := rfl
theorem decOpen : Statement .decOpen := rfl
theorem decLine (raw : Line) : Statement (.decLine raw) := rfl
theorem reservedOp6 : Statement .reservedOp6 := rfl
theorem reservedOp7 : Statement .reservedOp7 := rfl
theorem data (via : RecordPort) (a : BitVec 16) (bytes : List Byte) : Statement (.data via a bytes) := ⟨0, rfl, rfl⟩
theorem eof (via : RecordPort) (a : BitVec 16) (bytes : List Byte) : Statement (.eof via a bytes) := ⟨1, rfl, rfl⟩
theorem esa (via : RecordPort) (a : BitVec 16) (bytes : List Byte) : Statement (.esa via a bytes) := ⟨2, rfl, rfl⟩
theorem ssa (via : CodecPort) (a : BitVec 16) (bytes : List Byte) : Statement (.ssa via a bytes) := ⟨3, rfl, rfl⟩
theorem ela (via : RecordPort) (a : BitVec 16) (bytes : List Byte) : Statement (.ela via a bytes) := ⟨4, rfl, rfl⟩
theorem sla (via : CodecPort) (a : BitVec 16) (bytes : List Byte) : Statement (.sla via a bytes) := ⟨5, rfl, rfl⟩

end Sys2Proof.Laws.OpcodeTable
end

