-- ==== Sys2Proof/Laws/Sequencer.lean ====
section
/-! SUPPORT. The laws of the sequencer: windows and running addresses as numbers, one pass of `GEN_ENTRY`'s loop, what
a layout places, and everything `GEN_ENTRY` can do in a run. -/

namespace Sys2Proof.Machine

open Sys2Proof.Safety

theorem and_high (x : BitVec 32) : x &&& (0xFFFF0000 : BitVec 32) = (x >>> 16) <<< 16 := by
  apply BitVec.eq_of_getLsbD_eq
  intro i hi
  have hbit : ∀ i : Fin 32, (0xFFFF0000 : BitVec 32).getLsbD i = decide (16 ≤ (i : Nat)) := by decide
  have hbit : (0xFFFF0000 : BitVec 32).getLsbD i = decide (16 ≤ i) := hbit ⟨i, hi⟩
  rw [BitVec.getLsbD_and, hbit, BitVec.getLsbD_shiftLeft, BitVec.getLsbD_ushiftRight]
  by_cases h : 16 ≤ i
  · simp [h, hi, show ¬ i < 16 by omega]
  · simp [h, show i < 16 by omega]

theorem and_high_toNat (x : BitVec 32) : (x &&& (0xFFFF0000 : BitVec 32)).toNat = x.toNat / 0x10000 * 0x10000 := by
  rw [and_high, BitVec.toNat_shiftLeft, BitVec.toNat_ushiftRight, Nat.shiftRight_eq_div_pow, Nat.shiftLeft_eq]
  have := x.isLt
  omega

theorem and_low_toNat (x : BitVec 32) : (x &&& (0x0000FFFF : BitVec 32)).toNat = x.toNat % 0x10000 := by
  rw [BitVec.toNat_and]
  exact Nat.and_two_pow_sub_one_eq_mod x.toNat 16

theorem windowOf_le (a : Nat) : windowOf a ≤ a := by unfold windowOf; omega
theorem windowOf_lt (a : Nat) : a < windowOf a + 0x10000 := by unfold windowOf; omega
theorem windowOf_aligned (a : Nat) : windowOf a % 0x10000 = 0 := by unfold windowOf; omega
theorem sub_windowOf (a : Nat) : a - windowOf a = a % 0x10000 := by unfold windowOf; omega

theorem windowOf_eq_of (a w : Nat) (h0 : w % 0x10000 = 0) (h1 : w ≤ a) (h2 : a < w + 0x10000) : windowOf a = w := by
  unfold windowOf; omega

/-- The running address as a number. -/
abbrev State.addr (s : State) : Nat := s.cur.toNat + s.segbase.toNat

theorem runAddr_toNat (s : State) : s.runAddr.toNat = s.addr := by
  unfold State.runAddr State.addr
  rw [BitVec.toNat_add, BitVec.toNat_setWidth, BitVec.toNat_setWidth]
  have := s.cur.isLt
  have := s.segbase.isLt
  omega

theorem windowPart_toNat (s : State) : s.windowPart.toNat = s.cur.toNat / 0x10000 * 0x10000 := and_high_toNat _

theorem nextBase_toNat (s : State) (h : s.segbase.toNat % 0x10000 = 0) : s.nextBase.toNat = windowOf s.addr := by
  unfold State.nextBase
  rw [BitVec.toNat_add, BitVec.toNat_setWidth, BitVec.toNat_setWidth, windowPart_toNat]
  have := s.cur.isLt
  have := s.segbase.isLt
  unfold State.addr windowOf
  omega

theorem windowPart_eq_zero_iff (s : State) (h : s.segbase.toNat % 0x10000 = 0) :
    s.windowPart = 0 ↔ windowOf s.addr = s.segbase.toNat := by
  rw [← BitVec.toNat_inj, windowPart_toNat]
  unfold State.addr windowOf
  simp
  omega

theorem elaPayload_eq (sb : BitVec 32) : elaPayload sb = valueBytes (BitVec.ofNat 16 (sb.toNat / 0x10000)) := by
  unfold elaPayload valueBytes hi8 lo8
  have := sb.isLt
  congr 1
  · apply BitVec.eq_of_toNat_eq
    simp [Nat.shiftRight_eq_div_pow]
    omega
  · congr 1
    apply BitVec.eq_of_toNat_eq
    simp [Nat.shiftRight_eq_div_pow]

theorem esaPayload_eq (sb : BitVec 32) : esaPayload sb = valueBytes (BitVec.ofNat 16 (sb.toNat / 0x10)) := by
  unfold esaPayload valueBytes hi8 lo8
  have := sb.isLt
  congr 1
  · apply BitVec.eq_of_toNat_eq
    simp [Nat.shiftRight_eq_div_pow]
    omega
  · congr 1
    apply BitVec.eq_of_toNat_eq
    simp [Nat.shiftRight_eq_div_pow]

theorem textOf_append (rs rs' : List HexRecord) : textOf (rs ++ rs') = textOf rs ++ textOf rs' := by
  simp [textOf]

theorem textOf_singleton (r : HexRecord) : textOf [r] = r.line ++ [newline] := by simp [textOf]

/-- The extension record the emissions write. -/
theorem emitExt_line (m : Byte) (sb : BitVec 32) :
    (if m = 4 then encodeLine 4 0 (elaPayload sb) else encodeLine 2 0 (esaPayload sb)) = (extRecord m sb.toNat).line := by
  unfold extRecord HexRecord.line mkRecord
  split
  · rw [elaPayload_eq]; rfl
  · rw [esaPayload_eq]; rfl

/-- greatest window of a mode -/
def lastWindow (m : Byte) : Nat := if m = 2 then 0xF0000 else 0xFFFF0000

theorem baseUnrepresentable_iff (m : Byte) (nsb : BitVec 33) (hm : modeSupported m = true) :
    baseUnrepresentable m nsb = true ↔ lastWindow m < nsb.toNat := by
  have : m = 2 ∨ m = 4 := by simpa [modeSupported] using hm
  rcases this with rfl | rfl
  · simp [baseUnrepresentable, lastWindow]
  · simp [baseUnrepresentable, lastWindow]

theorem windowAdvance_ok (s : State) (ha : s.segbase.toNat % 0x10000 = 0) (hm : modeSupported s.mode = true)
    (hw : windowOf s.addr ≤ lastWindow s.mode) :
    windowAdvance s = .ok
      { s with
        cur := BitVec.ofNat 32 (s.addr - windowOf s.addr)
        segbase := BitVec.ofNat 32 (windowOf s.addr)
        out := s.out ++ textOf
          (if windowOf s.addr = s.segbase.toNat then [] else [extRecord s.mode (windowOf s.addr)]) } := by
  have hwl : lastWindow s.mode ≤ 0xFFFF0000 := by unfold lastWindow; split <;> decide
  unfold windowAdvance
  by_cases h : windowOf s.addr = s.segbase.toNat
  · rw [if_pos ((windowPart_eq_zero_iff s ha).2 h)]
    congr 1
    have h1 : BitVec.ofNat 32 (s.addr - windowOf s.addr) = s.cur := by
      rw [h, State.addr, Nat.add_sub_cancel]; simp
    have h2 : BitVec.ofNat 32 (windowOf s.addr) = s.segbase := by rw [h]; simp
    rw [h1, h2, if_pos h, textOf, List.flatMap_nil, List.append_nil]
  · rw [if_neg (fun h' => h ((windowPart_eq_zero_iff s ha).1 h')),
      if_neg (by rw [baseUnrepresentable_iff _ _ hm, nextBase_toNat s ha]; omega)]
    have h1 : s.cur &&& 0x0000FFFF = BitVec.ofNat 32 (s.addr - windowOf s.addr) := by
      apply BitVec.eq_of_toNat_eq
      rw [and_low_toNat, sub_windowOf, BitVec.toNat_ofNat]
      unfold State.addr; omega
    have h2 : s.nextBase.setWidth 32 = BitVec.ofNat 32 (windowOf s.addr) := by
      apply BitVec.eq_of_toNat_eq
      rw [BitVec.toNat_setWidth, nextBase_toNat s ha, BitVec.toNat_ofNat]
    have h3 : (BitVec.ofNat 32 (windowOf s.addr)).toNat = windowOf s.addr := by
      rw [BitVec.toNat_ofNat]; omega
    have h4 := emitExt_line s.mode (BitVec.ofNat 32 (windowOf s.addr))
    rw [h3] at h4
    rw [if_neg h, textOf_singleton, ← h4, h1, h2]
    by_cases h5 : s.mode = 4
    · simp only [if_pos h5, emitELA, writeLine]
    · simp only [if_neg h5, emitESA, writeLine]

theorem windowAdvance_error (s : State) (ha : s.segbase.toNat % 0x10000 = 0) (hm : modeSupported s.mode = true)
    (hb : s.segbase.toNat ≤ lastWindow s.mode) (hw : lastWindow s.mode < windowOf s.addr) :
    windowAdvance s = .error s.nextBase := by
  unfold windowAdvance
  rw [if_neg (fun h' => by have := (windowPart_eq_zero_iff s ha).1 h'; omega),
    if_pos ((baseUnrepresentable_iff _ _ hm).2 (by rw [nextBase_toNat s ha]; exact hw))]

theorem srcRemain_of_ne (src : List Byte) (h : src ≠ []) : srcRemain src = true := by
  cases src with
  | nil => exact absurd rfl h
  | cons b rest => rfl

theorem recLen_cases (m : Byte) (len : Nat) (h : recLen m = some len) :
    m = 2 ∧ len = 16 ∨ m = 4 ∧ len = 32 := by
  unfold recLen at h
  split at h
  · simp_all
  · split at h <;> simp_all

theorem recLen_supported (m : Byte) (len : Nat) (h : recLen m = some len) : modeSupported m = true := by
  rcases recLen_cases m len h with ⟨rfl, -⟩ | ⟨rfl, -⟩ <;> decide

theorem recLen_pos (m : Byte) (len : Nat) (h : recLen m = some len) : 1 ≤ len := by
  rcases recLen_cases m len h with ⟨-, rfl⟩ | ⟨-, rfl⟩ <;> omega

theorem lastWindow_le (m : Byte) : lastWindow m ≤ 0xFFFF0000 := by unfold lastWindow; split <;> decide

theorem lastWindow_aligned (m : Byte) : lastWindow m % 0x10000 = 0 := by unfold lastWindow; split <;> decide

/-- How many bytes one pass places (R118, R119). -/
def passSize (len : Nat) (src : List Byte) (a : Nat) : Nat :=
  min (min len (windowOf a + 0x10000 - a)) src.length

/-- The records one pass emits (R116, R120). -/
def passRecords (m : Byte) (len base a : Nat) (src : List Byte) : List HexRecord :=
  (if windowOf a = base then [] else [extRecord m (windowOf a)]) ++
    [mkRecord .data (BitVec.ofNat 16 (a - windowOf a)) (src.take (passSize len src a))]

/-- The state one pass leaves. -/
def afterPass (len : Nat) (src : List Byte) (s : State) : State :=
  { s with
    cur := BitVec.ofNat 32 (s.addr - windowOf s.addr + passSize len src s.addr)
    segbase := BitVec.ofNat 32 (windowOf s.addr)
    out := s.out ++ textOf (passRecords s.mode len s.segbase.toNat s.addr src) }

theorem passSize_le (len : Nat) (src : List Byte) (a : Nat) :
    passSize len src a ≤ src.length ∧ passSize len src a ≤ len ∧ a + passSize len src a ≤ windowOf a + 0x10000 := by
  have h1 := windowOf_lt a
  unfold passSize
  omega

theorem passSize_pos (len : Nat) (src : List Byte) (a : Nat) (hl : 1 ≤ len) (hs : src ≠ []) :
    1 ≤ passSize len src a := by
  have h1 := windowOf_lt a
  have := List.length_pos_iff.2 hs
  unfold passSize
  omega

theorem afterPass_mode (len : Nat) (src : List Byte) (s : State) : (afterPass len src s).mode = s.mode := by
  rw [afterPass]

theorem afterPass_gphase (len : Nat) (src : List Byte) (s : State) : (afterPass len src s).gphase = s.gphase := by
  rw [afterPass]

theorem afterPass_segbase (len : Nat) (src : List Byte) (s : State) (hw : windowOf s.addr ≤ lastWindow s.mode) :
    (afterPass len src s).segbase.toNat = windowOf s.addr := by
  have := lastWindow_le s.mode
  show (BitVec.ofNat 32 _).toNat = _
  rw [BitVec.toNat_ofNat]; omega

theorem afterPass_addr (len : Nat) (src : List Byte) (s : State) (hw : windowOf s.addr ≤ lastWindow s.mode) :
    (afterPass len src s).addr = s.addr + passSize len src s.addr := by
  have h1 := windowOf_le s.addr
  have h2 := (passSize_le len src s.addr).2.2
  unfold State.addr at *
  rw [afterPass_segbase len src s hw]
  show (BitVec.ofNat 32 _).toNat + _ = _
  unfold State.addr at *
  rw [BitVec.toNat_ofNat]
  omega

/-- One pass of the loop (R116 to R120). -/
theorem placeBytes_pass (p : Nat) (la : BitVec 32) (src : List Byte) (s : State) (len : Nat) (hsrc : src ≠ [])
    (ha : s.segbase.toNat % 0x10000 = 0) (hlen : recLen s.mode = some len)
    (hw : windowOf s.addr ≤ lastWindow s.mode) :
    placeBytes (p + 1) la src s =
      placeBytes p la (src.drop (passSize len src s.addr)) (afterPass len src s) := by
  have h1 := windowOf_le s.addr
  have h2 := windowOf_lt s.addr
  have hmod : (BitVec.ofNat 32 (s.addr - windowOf s.addr)).toNat = s.addr - windowOf s.addr := by
    rw [BitVec.toNat_ofNat]; omega
  have hn : chunkSize len (BitVec.ofNat 32 (s.addr - windowOf s.addr)) src = passSize len src s.addr := by
    unfold chunkSize passSize
    rw [hmod]
    omega
  have htake : (src.take (passSize len src s.addr)).length = passSize len src s.addr := by
    rw [List.length_take]; exact min_eq_left (passSize_le _ _ _).1
  conv_lhs => unfold placeBytes
  simp only [srcRemain_of_ne src hsrc, if_true, hlen, windowAdvance_ok s ha (recLen_supported _ _ hlen) hw, srcRead]
  rw [hn]
  congr 1
  unfold placeChunk emitData writeLine afterPass passRecords
  simp only [htake, State.mk.injEq, true_and, and_true]
  refine ⟨(BitVec.ofNat_add ..).symm, ?_⟩
  · rw [textOf_append, List.append_assoc]
    congr 2
    rw [textOf_singleton]
    congr 1
    unfold HexRecord.line mkRecord
    simp only [RecType.code]
    congr 1
    apply BitVec.eq_of_toNat_eq
    rw [BitVec.extractLsb'_toNat]
    simp

theorem maxAddr_eq (m : Byte) (top : Nat) (h : maxAddr m = some top) :
    top + 1 = lastWindow m + 0x10000 ∧ (m = 2 ∨ m = 4) := by
  unfold maxAddr at h
  split at h
  · simp only [Option.some.injEq] at h
    subst h
    simp_all [lastWindow]
  · split at h
    · simp only [Option.some.injEq] at h
      subst h
      simp_all [lastWindow]
    · simp at h

theorem placeBytes_nil (p : Nat) (la : BitVec 32) (s : State) : placeBytes p la [] s = .next s := by
  cases p <;> rfl

theorem layout_cons (p : Nat) (m : Byte) (len base a : Nat) (src : List Byte) (h : src ≠ []) :
    layout (p + 1) m len base a src = passRecords m len base a src ++
      layout p m len (windowOf a) (a + passSize len src a) (src.drop (passSize len src a)) := by
  cases src with
  | nil => exact absurd rfl h
  | cons b rest =>
    unfold passRecords
    rw [List.append_assoc, List.singleton_append]
    rfl

theorem layout_nil (p : Nat) (m : Byte) (len base a : Nat) : layout p m len base a [] = [] := by
  cases p <;> rfl

/-- A layout needs one pass per byte at most; more change nothing. -/
theorem layout_passes (p q : Nat) (m : Byte) (len base a : Nat) (src : List Byte) (hlen : 1 ≤ len)
    (hp : src.length ≤ p) (hq : src.length ≤ q) : layout p m len base a src = layout q m len base a src := by
  induction p generalizing q base a src with
  | zero =>
    obtain rfl := List.length_eq_zero_iff.1 (Nat.le_zero.1 hp)
    rw [layout_nil, layout_nil]
  | succ p ih =>
    by_cases hs : src = []
    · rw [hs, layout_nil, layout_nil]
    have hpos := List.length_pos_iff.2 hs
    have hn := passSize_pos len src a hlen hs
    obtain ⟨q, rfl⟩ : ∃ k, q = k + 1 := ⟨q - 1, by omega⟩
    rw [layout_cons _ _ _ _ _ _ hs, layout_cons _ _ _ _ _ _ hs,
      ih q _ _ _ (by rw [List.length_drop]; omega) (by rw [List.length_drop]; omega)]

/-- A source that ends at or below the last window: placing it completes and emits the layout. -/
theorem placeBytes_layout (p : Nat) (la : BitVec 32) (src : List Byte) (s : State) (len : Nat) (hp : src.length ≤ p)
    (hsrc : src ≠ []) (ha : s.segbase.toNat % 0x10000 = 0) (hlen : recLen s.mode = some len)
    (hfit : s.addr + src.length ≤ lastWindow s.mode + 0x10000) :
    placeBytes p la src s = .next
      { s with
        cur := BitVec.ofNat 32 (s.addr + src.length - windowOf (s.addr + src.length - 1))
        segbase := BitVec.ofNat 32 (windowOf (s.addr + src.length - 1))
        out := s.out ++ textOf (layout p s.mode len s.segbase.toNat s.addr src) } := by
  induction p generalizing src s with
  | zero => exact absurd (List.length_eq_zero_iff.1 (by omega)) hsrc
  | succ p ih =>
    have hpos := List.length_pos_iff.2 hsrc
    have h1 := windowOf_le s.addr
    have hal := windowOf_aligned s.addr
    have hla := lastWindow_aligned s.mode
    have hw : windowOf s.addr ≤ lastWindow s.mode := by omega
    have hnpos := passSize_pos len src s.addr (recLen_pos _ _ hlen) hsrc
    obtain ⟨hn1, -, hn2⟩ := passSize_le len src s.addr
    have hseg := afterPass_segbase len src s hw
    have haddr := afterPass_addr len src s hw
    have hmode := afterPass_mode len src s
    rw [placeBytes_pass p la src s len hsrc ha hlen hw, layout_cons _ _ _ _ _ _ hsrc]
    by_cases hrest : src.drop (passSize len src s.addr) = []
    · have hnl : passSize len src s.addr = src.length := by
        have := List.drop_eq_nil_iff.1 hrest
        omega
      have hend : windowOf (s.addr + src.length - 1) = windowOf s.addr :=
        windowOf_eq_of _ _ hal (by omega) (by omega)
      have hcur : s.addr + src.length - windowOf s.addr = s.addr - windowOf s.addr + passSize len src s.addr := by
        omega
      rw [hrest, placeBytes_nil, layout_nil, hend, hcur, List.append_nil, afterPass]
    · have hdl : (src.drop (passSize len src s.addr)).length = src.length - passSize len src s.addr :=
        List.length_drop
      have hend : s.addr + passSize len src s.addr + (src.length - passSize len src s.addr) = s.addr + src.length := by
        omega
      rw [ih _ (afterPass len src s) (by omega) hrest (by rw [hseg]; exact hal) (by rw [hmode]; exact hlen) (by rw [haddr, hdl, hmode]; omega)]
      rw [haddr, hseg, hmode, hdl, hend]
      rw [afterPass, textOf_append, List.append_assoc]

theorem enterSource_ok (la : BitVec 32) (s : State) (src : List Byte) (h : s.addr ≤ la.toNat) :
    enterSource la src s = placeBytes src.length la src { s with cur := la - s.segbase } := by
  unfold enterSource
  rw [if_neg (by rw [runAddr_toNat]; omega)]

theorem addr_assigned (la : BitVec 32) (s : State) (h : s.addr ≤ la.toNat) :
    (la - s.segbase).toNat = la.toNat - s.segbase.toNat := by
  apply BitVec.toNat_sub_of_le
  rw [BitVec.le_def]
  unfold State.addr at h
  omega

/-- The first pass of a source that does not fit in the window it starts in, cut to what fits below `top`. -/
theorem passSize_take (len : Nat) (src : List Byte) (a k : Nat) (hk : passSize len src a ≤ k)
    (hw : windowOf a + 0x10000 - a ≤ k) :
    passSize len (src.take k) a = passSize len src a := by
  unfold passSize at *
  rw [List.length_take]
  omega

theorem passRecords_take (m : Byte) (len base : Nat) (src : List Byte) (a k : Nat) (hk : passSize len src a ≤ k)
    (hw : windowOf a + 0x10000 - a ≤ k) :
    passRecords m len base a (src.take k) = passRecords m len base a src := by
  unfold passRecords
  rw [passSize_take len src a k hk hw, List.take_take, Nat.min_eq_left hk]

/-- A source that does not fit below the end of the last window: what fits is placed, then the error is entered. -/
theorem placeBytes_rangeFault (p : Nat) (la : BitVec 32) (src : List Byte) (s : State) (len : Nat) (hp : src.length ≤ p)
    (hsrc : src ≠ []) (ha : s.segbase.toNat % 0x10000 = 0) (hb : s.segbase.toNat ≤ lastWindow s.mode)
    (hlen : recLen s.mode = some len) (hph : s.gphase ≠ .fault)
    (hover : lastWindow s.mode + 0x10000 < s.addr + src.length) :
    ∃ c b, placeBytes p la src s = .next
      { s with
        cur := c, segbase := b
        out := s.out ++ textOf
          (layout p s.mode len s.segbase.toNat s.addr (src.take (lastWindow s.mode + 0x10000 - s.addr)))
        gerr := .addressRangeFault, gea := la
        geb := BitVec.ofNat 33 (max (lastWindow s.mode + 0x10000) (windowOf s.addr)), gphase := .fault } ∧
      c.toNat + b.toNat = max (lastWindow s.mode + 0x10000) s.addr ∧ b.toNat % 0x10000 = 0 ∧
      b.toNat = if src.take (lastWindow s.mode + 0x10000 - s.addr) = [] then s.segbase.toNat else lastWindow s.mode := by
  induction p generalizing src s with
  | zero => exact absurd (List.length_eq_zero_iff.1 (by omega)) hsrc
  | succ p ih =>
    have h1 := windowOf_le s.addr
    have h2 := windowOf_lt s.addr
    have hal := windowOf_aligned s.addr
    have hla := lastWindow_aligned s.mode
    by_cases hw : windowOf s.addr ≤ lastWindow s.mode
    · have hnpos := passSize_pos len src s.addr (recLen_pos _ _ hlen) hsrc
      obtain ⟨hn1, -, hn2⟩ := passSize_le len src s.addr
      have hseg := afterPass_segbase len src s hw
      have haddr := afterPass_addr len src s hw
      have hmode := afterPass_mode len src s
      have hdl : (src.drop (passSize len src s.addr)).length = src.length - passSize len src s.addr :=
        List.length_drop
      have hrest : src.drop (passSize len src s.addr) ≠ [] := by
        rw [Ne, List.drop_eq_nil_iff]
        omega
      obtain ⟨c, b, e, hcb, hb1, hb2⟩ := ih _ (afterPass len src s) (by omega) hrest (by rw [hseg]; exact hal)
        (by rw [hseg, hmode]; exact hw) (by rw [hmode]; exact hlen)
        (by rw [afterPass_gphase]; exact hph) (by rw [haddr, hdl, hmode]; omega)
      rw [haddr, hmode] at e hb2 hcb
      rw [hseg] at e hb2
      have hk : lastWindow s.mode + 0x10000 - (s.addr + passSize len src s.addr) =
          lastWindow s.mode + 0x10000 - s.addr - passSize len src s.addr := by omega
      have hne : src.take (lastWindow s.mode + 0x10000 - s.addr) ≠ [] := by
        rw [Ne, List.take_eq_nil_iff, not_or]
        exact ⟨by omega, hsrc⟩
      have hle : s.addr + passSize len src s.addr ≤ lastWindow s.mode + 0x10000 := by omega
      have hmax : ∀ x, x ≤ lastWindow s.mode + 0x10000 →
          max (lastWindow s.mode + 0x10000) x = lastWindow s.mode + 0x10000 := fun x hx => max_eq_left hx
      have hg : max (lastWindow s.mode + 0x10000) (windowOf (s.addr + passSize len src s.addr)) =
          max (lastWindow s.mode + 0x10000) (windowOf s.addr) := by
        rw [hmax _ ((windowOf_le _).trans hle), hmax _ (h1.trans (le_trans (Nat.le_add_right _ _) hle))]
      refine ⟨c, b, ?_, hcb.trans ?_, hb1, ?_⟩
      rotate_left
      · rw [hmax _ hle, hmax _ (le_trans (Nat.le_add_right _ _) hle)]
      rotate_left
      · rw [placeBytes_pass p la src s len hsrc ha hlen hw, e, layout_cons _ _ _ _ _ _ hne,
          passRecords_take _ _ _ _ _ _ (by omega) (by omega), passSize_take _ _ _ _ (by omega) (by omega),
          List.drop_take, hg, hk]
        rw [afterPass, textOf_append, List.append_assoc]
      · rw [if_neg hne, hb2]
        split_ifs with hz
        · rcases List.take_eq_nil_iff.1 hz with h | h
          · omega
          · exact absurd h hrest
        · rfl
    · have hk : lastWindow s.mode + 0x10000 - s.addr = 0 := by omega
      refine ⟨s.cur, s.segbase, ?_, (max_eq_right ((Nat.sub_eq_zero_iff_le).1 hk)).symm, ha, by rw [hk, List.take_zero, if_pos rfl]⟩
      unfold placeBytes
      simp only [srcRemain_of_ne src hsrc, if_true, hlen,
        windowAdvance_error s ha (recLen_supported _ _ hlen) hb (by omega)]
      rw [raiseGen_of_ne s _ _ _ hph, hk, List.take_zero, layout_nil]
      have hg : s.nextBase = BitVec.ofNat 33 (max (lastWindow s.mode + 0x10000) (windowOf s.addr)) := by
        apply BitVec.eq_of_toNat_eq
        have h3 := s.cur.isLt
        have h4 := s.segbase.isLt
        have h5 : s.addr < 2 ^ 33 := by unfold State.addr; omega
        have h6 : lastWindow s.mode + 0x10000 ≤ windowOf s.addr := by omega
        rw [nextBase_toNat s ha, BitVec.toNat_ofNat, max_eq_right h6,
          Nat.mod_eq_of_lt (lt_of_le_of_lt h1 h5)]
      rw [← hg, textOf, List.flatMap_nil, List.append_nil]

theorem cells_append (a : Nat) (x y : List Byte) : cells a (x ++ y) = cells a x ++ cells (a + x.length) y := by
  induction x generalizing a with
  | nil => rfl
  | cons b x ih => simp [cells, ih, Nat.add_assoc, Nat.add_comm 1]

theorem cells_bounds (a : Nat) (bytes : List Byte) : ∀ c ∈ cells a bytes, a ≤ c.1 ∧ c.1 < a + bytes.length := by
  induction bytes generalizing a with
  | nil => simp [cells]
  | cons b bytes ih =>
    intro c hc
    rw [cells, List.mem_cons] at hc
    rw [List.length_cons]
    rcases hc with rfl | hc
    · exact ⟨Nat.le_refl a, by omega⟩
    · have := ih (a + 1) c hc; omega

theorem cells_ascending (a : Nat) (bytes : List Byte) : (cells a bytes).Pairwise (fun c d => c.1 < d.1) := by
  induction bytes generalizing a with
  | nil => simp [cells]
  | cons b bytes ih =>
    rw [cells, List.pairwise_cons]
    exact ⟨fun c hc => by have := cells_bounds _ _ c hc; omega, ih _⟩

theorem valueBytes_toNat (v : BitVec 16) : (hi8 v ++ lo8 v).toNat = v.toNat := by rw [hi8_append_lo8]

theorem baseAfter_extRecord (m : Byte) (w base : Nat) (hm : m = 2 ∨ m = 4) (hw : w ≤ lastWindow m)
    (ha : w % 0x10000 = 0) : baseAfter base (extRecord m w) = w := by
  rcases hm with rfl | rfl
  · have : w ≤ 0xF0000 := hw
    show (hi8 _ ++ lo8 _).toNat * 0x10 = w
    rw [valueBytes_toNat, BitVec.toNat_ofNat]
    omega
  · have : w ≤ 0xFFFF0000 := hw
    show (hi8 _ ++ lo8 _).toNat * 0x10000 = w
    rw [valueBytes_toNat, BitVec.toNat_ofNat]
    omega

theorem image_append (base : Nat) (rs rs' : List HexRecord) :
    image base (rs ++ rs') = image base rs ++ image (finalBase base rs) rs' := by
  induction rs generalizing base with
  | nil => rfl
  | cons r rs ih => simp [image, ih, finalBase]

theorem finalBase_append (base : Nat) (rs rs' : List HexRecord) :
    finalBase base (rs ++ rs') = finalBase (finalBase base rs) rs' := by simp [finalBase]

theorem extRecord_type (m : Byte) (w : Nat) : (extRecord m w).recordType ≠ .data ∧ (extRecord m w).recordType ≠ .eof := by
  unfold extRecord; split <;> simp [mkRecord]

theorem extRecord_shape (m : Byte) (w : Nat) (hm : m = 2 ∨ m = 4) : emittedShape m (extRecord m w) = true := by
  rcases hm with rfl | rfl <;> simp [emittedShape, extRecord, mkRecord, valueBytes]

/-- What the records of one pass place, where they leave the base, and their shapes. -/
theorem passRecords_spec (m : Byte) (len base a : Nat) (src : List Byte) (hm : recLen m = some len) (hs : src ≠ [])
    (hw : windowOf a ≤ lastWindow m) :
    image base (passRecords m len base a src) = cells a (src.take (passSize len src a)) ∧
      finalBase base (passRecords m len base a src) = windowOf a ∧
      ∀ r ∈ passRecords m len base a src, emittedShape m r = true ∧ r.recordType ≠ .eof := by
  have hmm : m = 2 ∨ m = 4 := by rcases recLen_cases _ _ hm with ⟨h, -⟩ | ⟨h, -⟩ <;> simp [h]
  have h1 := windowOf_le a
  have h2 := windowOf_lt a
  have hnpos := passSize_pos len src a (recLen_pos _ _ hm) hs
  obtain ⟨hn1, hn2, hn3⟩ := passSize_le len src a
  have haddr : (BitVec.ofNat 16 (a - windowOf a)).toNat = a - windowOf a := by
    rw [BitVec.toNat_ofNat]; omega
  have htake : (src.take (passSize len src a)).length = passSize len src a := by
    rw [List.length_take]; omega
  have himg : ∀ b, b = windowOf a →
      image b [mkRecord .data (BitVec.ofNat 16 (a - windowOf a)) (src.take (passSize len src a))] =
        cells a (src.take (passSize len src a)) := by
    rintro b rfl
    simp only [image, mkRecord, if_true, haddr, List.append_nil]
    congr 1
    omega
  have hbase := baseAfter_extRecord m (windowOf a) base hmm hw (windowOf_aligned a)
  have hdata : emittedShape m (mkRecord .data (BitVec.ofNat 16 (a - windowOf a)) (src.take (passSize len src a))) =
      true := by
    unfold emittedShape mkRecord
    simp only [haddr, htake, hm, Option.getD_some, decide_true, Bool.true_and, Bool.and_eq_true, decide_eq_true_eq]
    omega
  unfold passRecords
  split
  · rename_i h
    refine ⟨himg _ h.symm, h.symm, ?_⟩
    intro r hr
    rw [List.nil_append, List.mem_singleton] at hr
    subst hr
    exact ⟨hdata, by simp [mkRecord]⟩
  · refine ⟨?_, ?_, ?_⟩
    · rw [List.singleton_append, image, if_neg (extRecord_type _ _).1, hbase, himg _ rfl, List.nil_append]
    · simp only [List.singleton_append, finalBase, List.foldl_cons, List.foldl_nil]
      exact hbase
    · intro r hr
      rw [List.singleton_append, List.mem_cons, List.mem_singleton] at hr
      rcases hr with rfl | rfl
      · exact ⟨extRecord_shape _ _ hmm, (extRecord_type _ _).2⟩
      · exact ⟨hdata, by simp [mkRecord]⟩

/-- What the records of a layout place, where they leave the base, and their shapes. -/
theorem layout_spec (p : Nat) (m : Byte) (len base a : Nat) (src : List Byte) (hp : src.length ≤ p)
    (hm : recLen m = some len) (hfit : src ≠ [] → a + src.length ≤ lastWindow m + 0x10000) :
    image base (layout p m len base a src) = cells a src ∧
      finalBase base (layout p m len base a src) = (if src = [] then base else windowOf (a + src.length - 1)) ∧
      ∀ r ∈ layout p m len base a src, emittedShape m r = true ∧ r.recordType ≠ .eof := by
  induction p generalizing src base a with
  | zero =>
    have : src = [] := List.length_eq_zero_iff.1 (by omega)
    subst this
    simp [layout, image, cells, finalBase]
  | succ p ih =>
    by_cases hsrc : src = []
    · subst hsrc
      simp [layout, image, cells, finalBase]
    have hfit := hfit hsrc
    have hpos := List.length_pos_iff.2 hsrc
    have h1 := windowOf_le a
    have hal := windowOf_aligned a
    have hla := lastWindow_aligned m
    have hw : windowOf a ≤ lastWindow m := by omega
    have hnpos := passSize_pos len src a (recLen_pos _ _ hm) hsrc
    obtain ⟨hn1, -, hn3⟩ := passSize_le len src a
    obtain ⟨p1, p2, p3⟩ := passRecords_spec m len base a src hm hsrc hw
    rw [layout_cons _ _ _ _ _ _ hsrc]
    generalize passSize len src a = n at *
    have hlen : (src.take n).length = n := by rw [List.length_take]; omega
    have hdl : (src.drop n).length = src.length - n := List.length_drop
    obtain ⟨i1, i2, i3⟩ := ih (windowOf a) (a + n) (src.drop n) (by omega) (fun _ => by omega)
    refine ⟨?_, ?_, ?_⟩
    · rw [image_append, p1, p2, i1]
      conv_rhs => rw [← List.take_append_drop n src, cells_append, hlen]
    · rw [finalBase_append, p2, i2, if_neg hsrc]
      split_ifs with h
      · have := List.drop_eq_nil_iff.1 h
        exact (windowOf_eq_of _ _ hal (by omega) (by omega)).symm
      · rw [List.drop_eq_nil_iff] at h
        congr 1
        omega
    · intro r hr
      rcases List.mem_append.1 hr with hr | hr
      · exact p3 r hr
      · exact i3 r hr

theorem modeSupported_recLen (m : Byte) (h : modeSupported m = true) :
    ∃ len, recLen m = some len := by
  have : m = 2 ∨ m = 4 := by simpa [modeSupported] using h
  rcases this with rfl | rfl
  · exact ⟨16, rfl⟩
  · exact ⟨32, rfl⟩

/-- In a state of the layout invariant `segbase` is at most the last window. -/
theorem layoutInv_base_le (s : State) (h : LayoutInv s) : s.segbase.toNat ≤ lastWindow s.mode := by
  unfold lastWindow
  split
  · exact h.segmented_base ‹_›
  · have := s.segbase.isLt
    have := h.base_aligned
    omega

/-- Everything `GEN_ENTRY` can do in a run of a state of the layout invariant. -/
theorem enterSource_spec (s : State) (la : BitVec 32) (src : List Byte) (hI : LayoutInv s) (hrun : s.gphase = .run) :
    ∃ (t : State) (rs : List HexRecord) (bytes : List Byte), enterSource la src s = .next t ∧
      SameDecoder s t ∧ SameHost s t ∧ t.eres = s.eres ∧ t.mode = s.mode ∧
      t.out = s.out ++ textOf rs ∧ (∀ r ∈ rs, emittedShape s.mode r = true ∧ r.recordType ≠ .eof) ∧
      finalBase s.segbase.toNat rs = t.segbase.toNat ∧
      t.segbase.toNat % 0x10000 = 0 ∧ t.segbase.toNat ≤ lastWindow s.mode ∧
      s.addr ≤ t.addr ∧ t.addr ≤ 0x100000000 ∧
      image s.segbase.toNat rs = cells la.toNat bytes ∧
      (bytes ≠ [] → s.addr ≤ la.toNat ∧ la.toNat + bytes.length ≤ t.addr) ∧
      (t.gphase = .run ∧ t.gerr = s.gerr ∧ t.gea = s.gea ∧ t.geb = s.geb ∧ bytes = src ∧ s.addr ≤ la.toNat ∧
          t.addr = la.toNat + src.length ∨
        t.gphase = .fault ∧ (t.gerr = .orderingFault ∨ t.gerr = .addressRangeFault)) := by
  have hsup := hI.mode_supported (.inl hrun)
  obtain ⟨len, hlen⟩ := modeSupported_recLen _ hsup
  have hbase := layoutInv_base_le s hI
  have hlw := lastWindow_le s.mode
  have hla := lastWindow_aligned s.mode
  have hph : s.gphase ≠ .fault := by simp [hrun]
  by_cases hord : s.addr ≤ la.toNat
  · rw [enterSource_ok la s src hord]
    have hcur := addr_assigned la s hord
    have haddr : ({ s with cur := la - s.segbase } : State).addr = la.toNat := by
      simp only [State.addr, hcur]
      simp only [State.addr] at hord
      omega
    by_cases hsrc : src = []
    · subst hsrc
      refine ⟨{ s with cur := la - s.segbase }, [], [], by rw [placeBytes_nil], ?_, ?_, rfl, rfl, ?_, ?_, rfl,
        hI.base_aligned, hbase, ?_, ?_, rfl, by simp, .inl ⟨hrun, rfl, rfl, rfl, rfl, hord, haddr⟩⟩
      · simp [SameDecoder]
      · simp [SameHost]
      · simp [textOf]
      · simp
      · rw [haddr]; exact hord
      · rw [haddr]; have := la.isLt; omega
    have hpos := List.length_pos_iff.2 hsrc
    by_cases hfit : la.toNat + src.length ≤ lastWindow s.mode + 0x10000
    · obtain ⟨i1, i2, i3⟩ := layout_spec src.length s.mode len s.segbase.toNat la.toNat src (le_refl _) hlen
        (fun _ => hfit)
      have h := placeBytes_layout src.length la src { s with cur := la - s.segbase } len (le_refl _) hsrc
        hI.base_aligned hlen (by rw [haddr]; exact hfit)
      rw [haddr] at h
      have h1 := windowOf_le (la.toNat + src.length - 1)
      have h2 := windowOf_lt (la.toNat + src.length - 1)
      have h3 := windowOf_aligned (la.toNat + src.length - 1)
      have hseg : (BitVec.ofNat 32 (windowOf (la.toNat + src.length - 1))).toNat =
          windowOf (la.toNat + src.length - 1) := by rw [BitVec.toNat_ofNat]; omega
      have hc : (BitVec.ofNat 32 (la.toNat + src.length - windowOf (la.toNat + src.length - 1))).toNat =
          la.toNat + src.length - windowOf (la.toNat + src.length - 1) := by rw [BitVec.toNat_ofNat]; omega
      rw [h]
      refine ⟨_, layout src.length s.mode len s.segbase.toNat la.toNat src, src, rfl, ?_, ?_, rfl, rfl, rfl, i3,
        ?_, ?_, ?_, ?_, ?_, i1, fun _ => ⟨hord, ?_⟩, .inl ⟨hrun, rfl, rfl, rfl, rfl, hord, ?_⟩⟩
      · simp [SameDecoder]
      · simp [SameHost]
      · rw [i2, if_neg hsrc]; exact hseg.symm
      · show (BitVec.ofNat 32 _).toNat % _ = 0
        rw [hseg]; exact h3
      · show (BitVec.ofNat 32 _).toNat ≤ _
        rw [hseg]; omega
      all_goals
        simp only [State.addr, hseg, hc]
        simp only [State.addr] at hord
        omega
    · obtain ⟨c, b, h, hcb, hb1, hb2⟩ := placeBytes_rangeFault src.length la src { s with cur := la - s.segbase } len
        (le_refl _) hsrc hI.base_aligned hbase hlen hph (by rw [haddr]; show lastWindow s.mode + _ < _; omega)
      rw [haddr] at h hcb hb2
      replace hb2 : b.toNat = if src.take (lastWindow s.mode + 0x10000 - la.toNat) = [] then s.segbase.toNat
        else lastWindow s.mode := hb2
      replace hcb : c.toNat + b.toNat = max (lastWindow s.mode + 0x10000) la.toNat := hcb
      have hc1 : lastWindow s.mode + 0x10000 ≤ c.toNat + b.toNat := hcb ▸ le_max_left _ _
      have hc2 : la.toNat ≤ c.toNat + b.toNat := hcb ▸ le_max_right _ _
      have hc3 : c.toNat + b.toNat ≤ 0x100000000 := hcb ▸ max_le (by omega) (le_of_lt la.isLt)
      clear hcb
      generalize hk : src.take (lastWindow s.mode + 0x10000 - la.toNat) = pre at *
      have hpl1 : pre.length ≤ src.length := hk ▸ List.length_take_le' _ _
      have hpl2 : pre.length ≤ lastWindow s.mode + 0x10000 - la.toNat := hk ▸ List.length_take_le _ _
      have hpl3 : pre ≠ [] → lastWindow s.mode + 0x10000 - la.toNat ≤ pre.length := by
        intro _
        rw [← hk, List.length_take, le_min_iff]
        exact ⟨le_refl _, by omega⟩
      obtain ⟨i1, i2, i3⟩ := layout_spec src.length s.mode len s.segbase.toNat la.toNat pre (by omega) hlen
        (fun hne => by have := List.length_pos_iff.2 hne; omega)
      rw [h]
      refine ⟨_, layout src.length s.mode len s.segbase.toNat la.toNat pre, pre, rfl, ?_, ?_, rfl, rfl, rfl, i3,
        ?_, hb1, ?_, ?_, ?_, i1, fun hne => ⟨hord, ?_⟩, .inr ⟨rfl, .inr rfl⟩⟩
      · simp [SameDecoder]
      · simp [SameHost]
      · rw [i2]
        show _ = b.toNat
        rw [hb2]
        split
        · rfl
        · rename_i hne
          have := List.length_pos_iff.2 hne
          have := hpl3 hne
          exact windowOf_eq_of _ _ hla (by omega) (by omega)
      · show b.toNat ≤ _
        rw [hb2]
        split
        · exact hbase
        · exact le_refl _
      · simp only [State.addr]
        simp only [State.addr] at hord
        omega
      · have := la.isLt
        simp only [State.addr]
        omega
      · have := List.length_pos_iff.2 hne
        simp only [State.addr]
        omega
  · have hraise : enterSource la src s = .next (raiseGen .orderingFault la s.runAddr s) := by
      unfold enterSource
      rw [if_pos (by rw [runAddr_toNat]; omega)]
    rw [hraise, raiseGen_of_ne s _ _ _ hph]
    refine ⟨_, [], [], rfl, ?_, ?_, rfl, rfl, ?_, ?_, rfl, hI.base_aligned, hbase, ?_, hI.run_bound, rfl, by simp,
      .inr ⟨rfl, .inl rfl⟩⟩
    · simp [SameDecoder]
    · simp [SameHost]
    · simp [textOf]
    · simp
    · simp [State.addr]

end Sys2Proof.Machine
end

