-- ==== Sys2Proof/Laws/Step.lean ====
section
/-! SUPPORT. Everything a step can do, and everything the command decoder can answer, said once. -/

namespace Sys2Proof.Machine

/-- The ways a step answers a next state: nothing pending, reset, a status access, a command's meaning. -/
theorem step_next {s t : State} (h : step s = .next t) :
    (s.port = [] ∧ t = s) ∨
    (∃ rest, s.port = .rst :: rest ∧ t = applyReset { s with port := rest }) ∨
    (∃ x rest, s.port = x :: rest ∧ x ≠ .rst ∧ (∀ w, x ≠ .command w) ∧ t = { s with port := rest }) ∨
    (∃ w rest i, s.port = .command w :: rest ∧ decodeCommand w = .ok i ∧ exec i { s with port := rest } = .next t) := by
  unfold step fetch at h
  split at h
  · rename_i hp
    simp at h
    split at hp <;> simp at hp
    exact .inl ⟨‹_›, h.symm⟩
  all_goals
    rename_i hp
    split at hp <;> simp at hp
    obtain ⟨rfl, rfl⟩ := hp
    rename_i rest hport
  · simp at h; exact .inr (.inl ⟨rest, hport, h.symm⟩)
  · simp [afterStatusRead] at h; exact .inr (.inr (.inl ⟨_, rest, hport, by simp, by simp, h.symm⟩))
  · simp [afterStatusWrite] at h; exact .inr (.inr (.inl ⟨_, rest, hport, by simp, by simp, h.symm⟩))
  · split at h
    · exact .inr (.inr (.inr ⟨_, rest, _, hport, ‹_›, h⟩))
    · simp at h

/-- What a command word decodes to, by its `op`. -/
theorem decodeCommand_ok {w : CommandWord} {i : Instr} (h : decodeCommand w = .ok i) :
    (w.op = 0 ∧ i = .genStart w.m) ∨ (w.op = 1 ∧ i = .genEntry w.la w.src) ∨ (w.op = 2 ∧ i = .genEnd) ∨
    (w.op = 3 ∧ w.bytes.length ≤ 255 ∧ i = .recEnc w.rtype w.raddr w.bytes) ∨ (w.op = 4 ∧ i = .decOpen) ∨
    (w.op = 5 ∧ w.raw.length ≤ 65535 ∧ i = .decLine w.raw) ∨ (w.op = 6 ∧ i = .reservedOp6) ∨
    (w.op = 7 ∧ i = .reservedOp7) := by
  have key : ∀ n : BitVec 3, n = 0 ∨ n = 1 ∨ n = 2 ∨ n = 3 ∨ n = 4 ∨ n = 5 ∨ n = 6 ∨ n = 7 := by decide
  unfold decodeCommand at h
  rcases key w.op with e | e | e | e | e | e | e | e <;> rw [e] at h <;> simp only [e] <;>
    simp [payloadFits, lineFits] at h ⊢
  · exact h.symm
  · exact h.symm
  · exact h.symm
  · split at h <;> simp at h; exact ⟨‹_›, h.symm⟩
  · exact h.symm
  · split at h <;> simp at h; exact ⟨‹_›, h.symm⟩
  · exact h.symm
  · exact h.symm

/-- A command word is rejected for an operand that cannot be presented, and for nothing else. -/
theorem decodeCommand_rejects {w : CommandWord} {e : DecodeReject} (h : decodeCommand w = .error e) :
    e = .dataTooLong ∨ e = .lineTooLong := by
  unfold decodeCommand at h
  split at h
  case h_4 => split at h <;> simp at h; exact .inl h.symm
  case h_6 => split at h <;> simp at h; exact .inr h.symm
  all_goals simp at h

end Sys2Proof.Machine
end

