-- ==== Sys2Proof/Laws/Text.lean ====
section
/-! SUPPORT. The laws of an emitted text: its lines hold no NEWLINE, so splitting it gives the lines back, and each line
of a record that carries its computed checksum reads back as that record. -/

namespace Sys2Proof.Machine

open Sys2Proof.Safety

theorem newline_not_mem_spell (bs : List Byte) : newline ∉ spell bs := by
  intro h
  obtain ⟨j, hj, he⟩ := List.mem_iff_getElem.1 h
  by_cases h0 : j = 0
  · subst h0; simp [spell, colon, newline] at he
  · obtain ⟨v, hv⟩ := spell_isDigit bs j newline (by omega) (by rw [List.getElem?_eq_getElem hj, he])
    have : ∀ v, newline ≠ digit v := by decide
    exact this v hv

/-- A spelled line holds only the characters of 20_memory.md R37, and no NEWLINE. -/
theorem isOutChar_spell (bs : List Byte) : ∀ c ∈ spell bs, isOutChar c = true ∧ c ≠ newline := by
  intro c hc
  refine ⟨?_, fun h => newline_not_mem_spell bs (h ▸ hc)⟩
  obtain ⟨j, hj, he⟩ := List.mem_iff_getElem.1 hc
  by_cases h0 : j = 0
  · subst h0; rw [← he]; show isOutChar colon = true; decide
  · obtain ⟨v, hv⟩ := spell_isDigit bs j c (by omega) (by rw [List.getElem?_eq_getElem hj, he])
    have : ∀ v, isOutChar (digit v) = true := by decide
    rw [hv]; exact this v

theorem splitLines_line (l rest : Line) (h : newline ∉ l) :
    splitLines (l ++ newline :: rest) = l :: splitLines rest := by
  induction l with
  | nil => simp [splitLines]
  | cons c l ih =>
    simp only [List.mem_cons, not_or] at h
    rw [List.cons_append, splitLines, if_neg (Ne.symm h.1), ih h.2]

theorem splitLines_textOf (rs : List HexRecord) : splitLines (textOf rs) = rs.map HexRecord.line := by
  induction rs with
  | nil => rfl
  | cons r rs ih =>
    rw [textOf, List.flatMap_cons, List.append_assoc, List.singleton_append,
      splitLines_line r.line _ (newline_not_mem_spell _), List.map_cons, ← ih]
    rfl

theorem decodeLine_line (lc : Bool) (r : HexRecord) (h : r.data.length ≤ 255)
    (hc : r.checksum = checksum r.recordType.code r.address r.data) : decodeLine lc r.line = .ok r := by
  rw [HexRecord.line, decodeLine_encodeLine _ _ _ _ h, ← hc]

/-- A record of a shape SEQ emits is one the codec takes. -/
theorem emittedShape_fits (m : Byte) (r : HexRecord) (h : emittedShape m r = true) :
    r.data.length ≤ 255 ∧ r.checksum = checksum r.recordType.code r.address r.data := by
  unfold emittedShape at h
  simp only [Bool.and_eq_true, decide_eq_true_eq] at h
  refine ⟨?_, h.1⟩
  replace h := h.2
  have hr : (recLen m).getD 0 ≤ 255 := by unfold recLen; split_ifs <;> simp
  split at h <;> try simp only [Bool.and_eq_true, decide_eq_true_eq] at h
  · omega
  · omega
  · omega
  · subst h; simp [eofRecord, mkRecord]
  · simp at h
  · simp at h

theorem readText_textOf (rs : List HexRecord)
    (h : ∀ r ∈ rs, r.data.length ≤ 255 ∧ r.checksum = checksum r.recordType.code r.address r.data) :
    readText (textOf rs) = some rs := by
  unfold readText
  rw [splitLines_textOf]
  induction rs with
  | nil => rfl
  | cons r rs ih =>
    have h1 : lineRecord r.line = some r := by
      unfold lineRecord
      rw [decodeLine_line _ _ (h r (by simp)).1 (h r (by simp)).2]
    rw [List.map_cons, List.mapM_cons, h1, ih (fun r hr => h r (by simp [hr]))]
    rfl

/-! ### Lowercase digits (41_record_decode.md R90) -/

/-- Where lowercase digits are accepted a character has the value of its uppercase spelling. -/
theorem hexval_upperDigit (c : Byte) : hexval true c = hexval false (upperDigit c) := by
  revert c; decide

theorem byteAt_upperDigit (t : Line) (j : Nat) : byteAt true t j = byteAt false (t.map upperDigit) j := by
  unfold byteAt byteval
  rw [List.getElem?_map, List.getElem?_map]
  cases t[j]? <;> cases t[j + 1]? <;> simp [hexval_upperDigit]

theorem firstBadDigit_upperDigit (t : Line) (start count : Nat) :
    firstBadDigit true t start count = firstBadDigit false (t.map upperDigit) start count := by
  have h : badDigitAt true t = badDigitAt false (t.map upperDigit) := by
    funext j
    unfold badDigitAt
    rw [List.getElem?_map]
    cases t[j]? <;> simp [hexval_upperDigit]
  unfold firstBadDigit
  rw [h]

end Sys2Proof.Machine
end

