-- ==== Sys2Proof/Tests/Slice0.lean ====
section
/-! SUPPORT. The model's own tests. Expected values are spec/95_test_vectors.md's (the vector is named at each test) or are
written out by hand from the rule named; none is the model's answer pasted back. Then, for every statement of
Certificates/Slice0/Obligations.lean that has hypotheses, a witness that meets them together. -/

namespace Sys2Proof.Tests

open Sys2Proof.Machine Sys2Proof.Safety

/-- A text as ASCII codes. -/
def chars (s : String) : Line := s.toList.map fun c => BitVec.ofNat 8 c.toNat

/-- The next state of a result. -/
def nextOf (r : Result) : Option State :=
  match r with
  | .next t => some t
  | .fault _ => none
  | .refused _ => none

/-- A field of the next state of a result. -/
def after {α : Type} (f : State → α) (r : Result) : Option α := (nextOf r).map f

/-! ### WellFormed: one ill-formed term for each check -/

theorem payloadFits_256 : payloadFits (List.replicate 256 0) = false := by
  unfold payloadFits; rw [List.length_replicate]; decide
theorem lineFits_65536 : lineFits (List.replicate 65536 0) = false := by
  unfold lineFits; rw [List.length_replicate]; decide

theorem test_wf_recEnc_256 : (Instr.recEnc 0 0 (List.replicate 256 0)).wellFormed = false := payloadFits_256
theorem test_wf_decLine_65536 : (Instr.decLine (List.replicate 65536 0)).wellFormed = false := lineFits_65536
theorem test_wf_data_empty_out : (Instr.data .out 0 []).wellFormed = false := by decide
theorem test_wf_data_33_out : (Instr.data .out 0 (List.replicate 33 0)).wellFormed = false := by decide
theorem test_wf_data_256 : (Instr.data .res 0 (List.replicate 256 0)).wellFormed = false := payloadFits_256
theorem test_wf_eof_address_out : (Instr.eof .out 1 []).wellFormed = false := by decide
theorem test_wf_eof_payload_out : (Instr.eof .out 0 [0x55]).wellFormed = false := by decide
theorem test_wf_eof_256 : (Instr.eof .lin 0 (List.replicate 256 0)).wellFormed = false := payloadFits_256
theorem test_wf_esa_address_out : (Instr.esa .out 1 [0x10, 0]).wellFormed = false := by decide
theorem test_wf_esa_length_out : (Instr.esa .out 0 [0x10]).wellFormed = false := by decide
theorem test_wf_esa_high_out : (Instr.esa .out 0 [0x11, 0]).wellFormed = false := by decide
theorem test_wf_esa_low_out : (Instr.esa .out 0 [0x10, 1]).wellFormed = false := by decide
theorem test_wf_esa_256 : (Instr.esa .res 0 (List.replicate 256 0)).wellFormed = false := payloadFits_256
theorem test_wf_ela_address_out : (Instr.ela .out 1 [0, 1]).wellFormed = false := by decide
theorem test_wf_ela_length_out : (Instr.ela .out 0 [0, 1, 2]).wellFormed = false := by decide
theorem test_wf_ela_256 : (Instr.ela .lin 0 (List.replicate 256 0)).wellFormed = false := payloadFits_256
theorem test_wf_ssa_256 : (Instr.ssa .res 0 (List.replicate 256 0)).wellFormed = false := payloadFits_256
theorem test_wf_sla_256 : (Instr.sla .lin 0 (List.replicate 256 0)).wellFormed = false := payloadFits_256

/-! ### Decode: a word of every constructor, written out from 30_encoding.md -/

-- R58: the 3-bit op and the row's own lanes; every other lane is filled and ignored (log entry 13)
theorem test_decode_genStart : decodeCommand
    { op := 0b000, m := 2, la := 9, src := [7], rtype := 1, raddr := 3, bytes := [5], raw := [6] } =
      .ok (.genStart 2) := rfl
theorem test_decode_genEntry : decodeCommand { commandWord 0b001 with la := 0xFFFE, src := [1, 2, 3] } =
    .ok (.genEntry 0xFFFE [1, 2, 3]) := rfl
theorem test_decode_genEnd : decodeCommand (commandWord 0b010) = .ok .genEnd := rfl
theorem test_decode_recEnc : decodeCommand { commandWord 0b011 with rtype := 5, raddr := 0x1234, bytes := [0xCD] } =
    .ok (.recEnc 5 0x1234 [0xCD]) := rfl
theorem test_decode_decOpen : decodeCommand (commandWord 0b100) = .ok .decOpen := rfl
theorem test_decode_decLine : decodeCommand { commandWord 0b101 with raw := [0x3A, 0x0D] } =
    .ok (.decLine [0x3A, 0x0D]) := rfl
theorem test_decode_reservedOp6 : decodeCommand (commandWord 0b110) = .ok .reservedOp6 := rfl
theorem test_decode_reservedOp7 : decodeCommand (commandWord 0b111) = .ok .reservedOp7 := rfl

-- R50 to R54, characters by their ASCII codes (R53): ":02FFFE000102FE" (M8)
theorem test_decode_data : decode (.record .out
    [0x3A, 0x30, 0x32, 0x46, 0x46, 0x46, 0x45, 0x30, 0x30, 0x30, 0x31, 0x30, 0x32, 0x46, 0x45]) =
      .ok (.data .out 0xFFFE [1, 2]) := rfl
-- ":00000001FF" (M1)
theorem test_decode_eof : decode (.record .out
    [0x3A, 0x30, 0x30, 0x30, 0x30, 0x30, 0x30, 0x30, 0x31, 0x46, 0x46]) = .ok (.eof .out 0 []) := rfl
-- ":020000021000EC" (M5)
theorem test_decode_esa : decode (.record .out
    [0x3A, 0x30, 0x32, 0x30, 0x30, 0x30, 0x30, 0x30, 0x32, 0x31, 0x30, 0x30, 0x30, 0x45, 0x43]) =
      .ok (.esa .out 0 [0x10, 0x00]) := rfl
-- ":0400000312345678E5" (E12)
theorem test_decode_ssa : decode (.record .lin
    [0x3A, 0x30, 0x34, 0x30, 0x30, 0x30, 0x30, 0x30, 0x33, 0x31, 0x32, 0x33, 0x34, 0x35, 0x36, 0x37, 0x38, 0x45,
      0x35]) = .ok (.ssa .lin 0 [0x12, 0x34, 0x56, 0x78]) := rfl
-- ":020000040001F9" (M2)
theorem test_decode_ela : decode (.record .out
    [0x3A, 0x30, 0x32, 0x30, 0x30, 0x30, 0x30, 0x30, 0x34, 0x30, 0x30, 0x30, 0x31, 0x46, 0x39]) =
      .ok (.ela .out 0 [0x00, 0x01]) := rfl
-- ":04000005000000CD2A" (E13)
theorem test_decode_sla : decode (.record .res
    [0x3A, 0x30, 0x34, 0x30, 0x30, 0x30, 0x30, 0x30, 0x35, 0x30, 0x30, 0x30, 0x30, 0x30, 0x30, 0x43, 0x44, 0x32,
      0x41]) = .ok (.sla .res 0 [0, 0, 0, 0xCD]) := rfl

-- what is no instruction: a type 03 record at OUT (R82), a type 06 (R57), an EOF record with a payload at OUT (R54)
theorem test_decode_ssa_out : decode (.record .out (chars ":0400000312345678E5")) = .error .neverEmitted := rfl
theorem test_decode_type6 : decode (.record .lin (chars ":00000006FA")) = .error .notARecord := rfl
theorem test_decode_eof_payload_out : decode (.record .out (chars ":0100000155A9")) = .error .neverEmitted := rfl
theorem test_decode_eof_payload_lin : decode (.record .lin (chars ":0100000155A9")) = .ok (.eof .lin 0 [0x55]) := rfl

-- the table's words (log entry 2)
theorem test_table_commands : (List.range 8).map (decodeTableWord 8) =
    [some (.genStart 0), some (.genEntry 0 []), some .genEnd, some (.recEnc 0 0 []), some .decOpen,
      some (.decLine []), some .reservedOp6, some .reservedOp7] := by decide
theorem test_table_record : decodeTableWord 88 0x464631303030303030303A = some (.eof .lin 0 []) := rfl
theorem test_table_other : decodeTableWord 8 8 = none ∧ decodeTableWord 16 0 = none := by decide
theorem test_withFetchWord : after State.dres (step (State.reset.withFetchWord 88 0x464631303030303030303A)) =
    some (.ok { recordType := .eof, address := 0, data := [], checksum := 0xFF }) := rfl

/-! ### The codec (95_test_vectors.md 2.1 to 2.3) -/

theorem test_E2 : encodeLine 0 0x0030 [0x02, 0x33, 0x7A] = chars ":0300300002337A1E" := by decide
theorem test_E5 : encodeLine 0 0 [] = chars ":0000000000" := by decide
theorem test_E11 : encodeLine 0 0xFF00 [1] = chars ":01FF000001FF" := by decide
theorem test_V5 : decodeLine false (chars ":00000001FE") = .checksumError 0xFF 0xFE := by decide
theorem test_V8 : decodeLine false (chars ":03003000023371E") = .formatError .wrongLineLength 17 16 := by decide
theorem test_V14 : decodeLine false (chars ":0000") = .formatError .badHexDigit 0 5 := by decide
theorem test_V17 : decodeLine false (chars ":00000001Fg") = .formatError .badHexDigit 0 10 := by decide
theorem test_V20 : decodeLine false (chars ":00000006FA") = .formatError .reservedType 5 6 := by decide
theorem test_V21 : decodeLine false (chars ":000000060A") = .checksumError 0xFA 0x0A := by decide
theorem test_V29 : decodeLine false (chars ":0300300002337a1e") = .formatError .badHexDigit 0 14 ∧
    decodeLine true (chars ":0300300002337a1e") =
      .ok { recordType := .data, address := 0x30, data := [0x02, 0x33, 0x7A], checksum := 0x1E } := by decide
theorem test_trim : trim (chars " \t:00000001FF\r\n") = chars ":00000001FF" ∧ trim (chars "\r\n") = [] := by decide

/-! ### One step of each command (95_test_vectors.md part 3) -/

/-- Right after `GEN_START m` from reset. -/
def running (m : Byte) : State := openRun m State.reset

-- P1 step 1, P9 step 1
theorem test_genStart_4 : after (fun t => (t.gphase, t.mode, t.gerr)) (exec (.genStart 4) State.reset) =
    some (.run, 4, .none) := by decide
theorem test_genStart_8 : after (fun t => (t.gphase, t.mode, t.gerr, t.out)) (exec (.genStart 8) (running 4)) =
    some (.fault, 8, .unsupportedMode, []) := by decide
-- P1 step 2
theorem test_genEntry_P1 : after (fun t => (t.out, t.cur, t.segbase, t.gphase))
    (exec (.genEntry 0xFFFE [1, 2, 3, 4, 5]) (running 4)) =
      some (chars ":02FFFE000102FE\n:020000040001F9\n:03000000030405F1\n", 3, 0x10000, .run) := by decide
-- Q12
theorem test_genEntry_Q12 : after (fun t => (t.out, t.cur, t.segbase, t.gphase, t.gerr, t.gea, t.geb))
    (exec (.genEntry 0xFFFF8 [0, 1, 2, 3, 4, 5, 6, 7, 8, 9, 10, 11, 12, 13, 14, 15]) (running 2)) =
      some (chars ":02000002F0000C\n:08FFF8000001020304050607E5\n", 0x10000, 0xF0000, .fault, .addressRangeFault,
        0xFFFF8, 0x100000) := rfl
-- Q1
theorem test_genEnd : after (fun t => (t.out, t.gphase)) (exec .genEnd (running 4)) =
    some (chars ":00000001FF\n", .done) := by decide
-- E13, E17
theorem test_recEnc_E13 : after State.eres (exec (.recEnc 5 0 [0, 0, 0, 0xCD]) State.reset) =
    some (.ok (chars ":04000005000000CD2A")) := by decide
theorem test_recEnc_E17 : after State.eres (exec (.recEnc 6 0 []) State.reset) = some .illegalOperand := by decide
-- the line of R100's worked example; P8 line 2
theorem test_decLine_ok : after (fun t => (t.dres, t.lineno, t.dphase))
    (exec (.decLine (chars ":020000040001F9\r")) State.reset) =
      some (.ok { recordType := .ela, address := 0, data := [0, 1], checksum := 0xF9 }, 1, .ready) := rfl
theorem test_decLine_P8 : after (fun t => (t.dphase, t.derr, t.dsub, t.dline, t.dexp, t.dact, t.dres))
    (exec (.decLine (chars ":04200000CAFEBABE9D")) { State.reset with lineno := 1 }) =
      some (.fault, .checksumError, .none, 2, 0x9C, 0x9D, .checksumError) := rfl
theorem test_decOpen : after (fun t => (t.dphase, t.lineno, t.derr, t.dline, t.dexp, t.dact, t.dres)) (exec .decOpen
    { State.reset with
      dphase := .fault, lineno := 2, derr := .checksumError, dline := 2, dexp := 0x9C, dact := 0x9D, dres := .eos }) =
      some (.ready, 0, .none, 0, 0, 0, .none) := rfl
theorem test_reservedOp6 : after (fun t => (t.gphase, t.gerr, t.gea, t.geb)) (exec .reservedOp6 State.reset) =
    some (.fault, .illegalCommand, 6, 0) := by decide
theorem test_reservedOp7 : after (fun t => (t.gphase, t.gerr, t.gea, t.geb)) (exec .reservedOp7 State.reset) =
    some (.fault, .illegalCommand, 7, 0) := by decide

/-! ### One step of each record row (M1 to M8, E12, E14, V28) -/

theorem test_data_M8 : after State.out (exec (.data .out 0xFFFE [1, 2]) State.reset) =
    some (chars ":02FFFE000102FE\n") := by decide
theorem test_data_E8 : after State.eres (exec (.data .res 0xFFFF [0xFF]) State.reset) =
    some (.ok (chars ":01FFFF00FF02")) := by decide
theorem test_eof_M1 : after State.out (exec (.eof .out 0 []) State.reset) = some (chars ":00000001FF\n") := by decide
theorem test_eof_E14 : after State.eres (exec (.eof .res 0 [0x55]) State.reset) =
    some (.ok (chars ":0100000155A9")) := by decide
theorem test_esa_M7 : after State.out (exec (.esa .out 0 (esaPayload 0xF0000)) State.reset) =
    some (chars ":02000002F0000C\n") := by decide
theorem test_ela_M3 : after State.out (exec (.ela .out 0 (elaPayload 0x12340000)) State.reset) =
    some (chars ":020000041234B4\n") := by decide
theorem test_ssa_E12 : after State.eres (exec (.ssa .res 0 [0x12, 0x34, 0x56, 0x78]) State.reset) =
    some (.ok (chars ":0400000312345678E5")) := by decide
theorem test_sla_V28 : after (fun t => (t.dres, t.lineno)) (exec (.sla .lin 0 [0, 0, 0, 0xCD]) State.reset) =
    some (.ok { recordType := .sla, address := 0, data := [0, 0, 0, 0xCD], checksum := 0x2A }, 1) := rfl

/-! ### The status registers (10_state.md, table after R20) -/

theorem test_gstat : (State.status { State.reset with gphase := .fault, gerr := .orderingFault } 0) = 0x13 := by decide
theorem test_dstat : (State.status { State.reset with dphase := .fault, derr := .formatError, dsub := .reservedType } 6) =
    0x106 := by decide

/-! ### The codes the result buffers report (60_exceptions.md R140: the column "reported in") -/

theorem test_eres_code : after (fun t => t.eres.error.code) (exec (.recEnc 6 0 []) State.reset) = some 8 := by decide
theorem test_dres_codes : after (fun t => t.dres.error.code) (exec (.decLine (chars ":00000006FA")) State.reset) = some 1 ∧
    after (fun t => t.dres.error.code) (exec (.decLine (chars ":00000001FE")) State.reset) = some 2 ∧
    after (fun t => t.dres.error.code) (exec (.decLine (chars ":00000001FF")) { State.reset with dphase := .eos }) =
      some 6 := ⟨rfl, rfl, rfl⟩

/-! ### Witnesses: concrete states and operands that meet the hypotheses of each statement -/

/-- A state with one command pending. -/
def pending (w : CommandWord) (s : State) : State := { s with port := [.command w] }

/-- A run of no entries, ended. -/
def ended : State := { emitEOF (running 4) with gphase := .done }

theorem layoutInv_running_4 : LayoutInv (running 4) :=
  ⟨by decide, by decide, by decide, by decide, by decide, by decide, by decide⟩
theorem layoutInv_running_2 : LayoutInv (running 2) :=
  ⟨by decide, by decide, by decide, by decide, by decide, by decide, by decide⟩
theorem inv_running_4 : Inv (running 4) :=
  { layout := layoutInv_running_4
    text := ⟨[], by simp, .inl ⟨rfl, by decide⟩, rfl, by simp [image], by simp [image]⟩
    decoder := ⟨by decide, by decide, by decide, by decide, by decide, .inl rfl, fun _ h => by cases h⟩
    buffers := ⟨fun r h => absurd h (by simp [running, State.reset]), fun l h => absurd h (by simp [running, State.reset])⟩ }
theorem inv_ended : Inv ended :=
  { layout := ⟨by decide, by decide, by decide, by decide, by decide, by decide, by decide⟩
    text := ⟨[], by simp, .inr ⟨rfl, .inl rfl⟩, rfl, by simp [image], by simp [image]⟩
    decoder := ⟨by decide, by decide, by decide, by decide, by decide, .inl rfl, fun _ h => by cases h⟩
    buffers := ⟨fun r h => absurd h (by simp [ended, running, emitEOF, State.reset]),
      fun l h => absurd h (by simp [ended, running, emitEOF, State.reset])⟩ }

/-- 255 bytes of FF, the longest payload (E15). -/
def longest : List Byte := List.replicate 255 0xFF
theorem longest_length : longest.length = 255 := List.length_replicate

/-- A valid line (E2). -/
def goodLine : Line := chars ":0300300002337A1E"
theorem goodLine_decodes : decodeLine Config.decLowercaseOk (trim goodLine) =
    .ok { recordType := .data, address := 0x30, data := [0x02, 0x33, 0x7A], checksum := 0x1E } := rfl

theorem witness_ResetInputAppliesResetValues :
    ({ running 4 with port := [.rst, .readStatus 0] } : State).port = .rst :: [.readStatus 0] ∧
      (running 4).port = [] := ⟨rfl, rfl⟩
theorem witness_StepRunsTheDecodedCommand :
    (pending (commandWord 2) (running 4)).port = .command (commandWord 2) :: [] ∧
      decodeCommand (commandWord 2) = .ok .genEnd := ⟨rfl, rfl⟩
-- every lane filled, for each op
theorem witness_CommandWords : ∀ op : BitVec 3,
    let w : CommandWord :=
      { op := op, m := 9, la := 9, src := [7], rtype := 1, raddr := 3, bytes := [5], raw := [6] }
    (w.op = 3 → w.bytes.length ≤ 255) ∧ (w.op = 5 → w.raw.length ≤ 65535) := by decide
theorem witness_OnlyUnpresentableCommandsAreRejected :
    (pending { commandWord 3 with bytes := List.replicate 256 0 } (running 4)).port =
        .command { commandWord 3 with bytes := List.replicate 256 0 } :: [] ∧
      255 < (List.replicate 256 (0 : Byte)).length ∧ 65535 < (List.replicate 65536 (0 : Byte)).length ∧
      longest.length ≤ 255 ∧ (List.replicate 65535 (0 : Byte)).length ≤ 65535 := by
  rw [List.length_replicate, List.length_replicate, List.length_replicate, longest_length]
  exact ⟨rfl, by decide, by decide, by decide, by decide⟩
theorem witness_StatusAccessChangesNothing :
    ({ running 4 with port := [.readStatus 10] } : State).port = .readStatus 10 :: [] ∧
      ({ running 4 with port := [.writeStatus 0 0x1FFFFFFFF] } : State).port = .writeStatus 0 0x1FFFFFFFF :: [] :=
  ⟨rfl, rfl⟩
theorem witness_DecodeEncodeRoundTrip :
    (Instr.recEnc 0xFF 0xFFFF longest).wellFormed = true ∧ (Instr.ssa .lin 0xFFFF longest).wellFormed = true ∧
      (Instr.data .out 0xFFFF (List.replicate 32 0xFF)).wellFormed = true ∧
      (Instr.esa .out 0 [0xF0, 0]).wellFormed = true ∧ (Instr.ela .out 0 [0xFF, 0xFF]).wellFormed = true ∧
      (Instr.eof .out 0 []).wellFormed = true := by
  refine ⟨?_, ?_, by decide, by decide, by decide, by decide⟩ <;>
    · unfold Instr.wellFormed payloadFits; simp only [longest_length]; decide
theorem witness_EncodeDecodeRoundTripForRecords :
    (∀ c ∈ goodLine, ¬(0x61 ≤ c.toNat ∧ c.toNat ≤ 0x66)) ∧
      decode (.record .lin goodLine) = .ok (.data .lin 0x30 [0x02, 0x33, 0x7A]) := ⟨by decide, rfl⟩
theorem witness_DecodedInstructionsAreWellFormed :
    decode (.record .lin goodLine) = .ok (.data .lin 0x30 [0x02, 0x33, 0x7A]) ∧
      decode (.command (commandWord 7)) = .ok .reservedOp7 := ⟨rfl, rfl⟩
theorem witness_TableWordRunsAsTheNextStep :
    decodeTableWord 88 0x464631303030303030303A = some (.eof .lin 0 []) ∧
      decodeTableWord 8 7 = some .reservedOp7 := ⟨rfl, rfl⟩
theorem witness_DecLineRunsTheRecordItBrings : goodLine.length ≤ 65535 ∧
    decodeLine Config.decLowercaseOk (trim goodLine) =
      .ok { recordType := .data, address := 0x30, data := [0x02, 0x33, 0x7A], checksum := 0x1E } ∧
    recordInstr .lin { recordType := .data, address := 0x30, data := [0x02, 0x33, 0x7A], checksum := 0x1E } =
      some (.data .lin 0x30 [0x02, 0x33, 0x7A]) := ⟨by decide, rfl, rfl⟩

/-- The longest payload meets the length premise of ChecksumIsTheNegatedByteSum, RecordBytesSumToZero,
EncodeLineSpellsTheRecordBytes, RoundTripLaw, CorruptedLinesAreRejected, ChecksumThenTypeDecideTheResult and of the
statements about REC_ENC and the record rows. -/
theorem witness_PayloadLength : longest.length ≤ 255 ∧ ([] : List Byte).length ≤ 255 := by
  rw [longest_length]; decide
theorem witness_MakeRecordChecksTheExpectedChecksum : (0xFE : Byte) ≠ checksum 1 0 [] := by decide
theorem witness_EncodeLineSpellsTheRecordBytes :
    (encodeLine 0 0x30 [0x02, 0x33, 0x7A])[15]? = some 0x31 ∧ (encodeLine 0 0x30 [0x02, 0x33, 0x7A])[16]? = some 0x45 := by
  decide
theorem witness_LineTerminatorsDoNotMatter : goodLine.length + 2 ≤ 65535 := by decide
theorem witness_RoundTripLaw : Inv ended ∧ ended.gphase = .done ∧ (splitLines ended.out).length < 0x100000000 :=
  ⟨inv_ended, rfl, by decide⟩
-- V24 (address digit), V5 (checksum digit), V22 (LL digit), V7 (cut), V16 (no digit), at the ends of their ranges
theorem witness_CorruptedLinesAreRejected :
    ((encodeLine 0 0x30 [0x02, 0x33, 0x7A])[3]? = some 0x30 ∧ (hexval false 0x31).isSome ∧
        hexval false 0x31 ≠ hexval false 0x30) ∧
      ((encodeLine 0 0x30 [0x02, 0x33, 0x7A])[16]? = some 0x45 ∧ hexval false 0x46 ≠ hexval false 0x45 ∧ 11 + 2 * 3 ≤ 16 + 2) ∧
      ((encodeLine 0 0x30 [0x02, 0x33, 0x7A])[2]? = some 0x33 ∧ hexval false 0x34 ≠ hexval false 0x33) ∧
      (List.replicate 7 (0x30 : Byte)).length < 2 * 3 + 2 ∧
      (16 < (encodeLine 0 0x30 [0x02, 0x33, 0x7A]).length ∧ hexval false 0x5A = none) := by decide
-- the premise of the lowercase clause, and what it is about (V29)
theorem witness_DecoderAcceptsExactlyTheEncodedLines : (chars ":0300300002337a1e").head? = some 0x3A ∧
    (chars ":0300300002337a1e").map upperDigit = encodeLine 0 0x30 [0x02, 0x33, 0x7A] := by decide
theorem witness_MissingStartMarkerIsReportedFirst : (0x30 : Byte) ≠ 0x3A := by decide
-- V13 (index 1, past the end), V15 (index 2), index 8
theorem witness_HeaderDigitErrorsAreReportedLeftmost :
    ((chars ":")[0]? = some 0x3A ∧ 1 ≤ (chars ":").length ∧ (∀ c, (chars ":")[1]? = some c → hexval false c = none)) ∧
      ((chars ":0000000")[0]? = some 0x3A ∧ 8 ≤ (chars ":0000000").length ∧
        (∀ c, (chars ":0000000")[8]? = some c → hexval false c = none) ∧
        (∀ j < 8, 1 ≤ j → ∀ c ∈ (chars ":0000000")[j]?, (hexval false c).isSome)) := by
  refine ⟨⟨by decide, by decide, fun c h => by simp [chars] at h⟩, by decide, by decide, fun c h => by simp [chars] at h,
    by decide⟩
-- V7
theorem witness_WrongLengthIsReportedBeforeTheBody : (chars ":0300300002337A")[0]? = some 0x3A ∧
    9 ≤ (chars ":0300300002337A").length ∧ (∀ j < 9, 1 ≤ j → ∀ c ∈ (chars ":0300300002337A")[j]?, (hexval false c).isSome) ∧
    (chars ":0300300002337A")[1]? = some 0x30 ∧ (chars ":0300300002337A")[2]? = some 0x33 ∧
    byteval false 0x30 0x33 = some 3 ∧ (chars ":0300300002337A").length ≠ 11 + 2 * (3 : Byte).toNat := by decide
-- V16 (index 9), V17 (the last index)
theorem witness_BodyDigitErrorsAreReportedLeftmost :
    ((chars ":01000000ZZ00").length = 11 + 2 * (1 : Byte).toNat ∧ byteval false 0x30 0x31 = some 1 ∧
        (∀ j < 9, 1 ≤ j → ∀ c ∈ (chars ":01000000ZZ00")[j]?, (hexval false c).isSome) ∧
        (∀ c ∈ (chars ":01000000ZZ00")[9]?, hexval false c = none)) ∧
      ((chars ":00000001Fg").length = 11 + 2 * (0 : Byte).toNat ∧ byteval false 0x30 0x30 = some 0 ∧
        10 < (chars ":00000001Fg").length ∧
        (∀ j < 10, 1 ≤ j → ∀ c ∈ (chars ":00000001Fg")[j]?, (hexval false c).isSome) ∧
        (∀ c ∈ (chars ":00000001Fg")[10]?, hexval false c = none)) := by decide
theorem witness_ChecksumThenTypeDecideTheResult : (0xFE : Byte) ≠ checksum 1 0 [] ∧
    ((0xFA : Byte) = checksum 6 0 [] ∧ 5 < (6 : Byte).toNat) ∧ ((0xFB : Byte) = checksum 5 0 [] ∧ (5 : Byte).toNat ≤ 5) := by
  decide
theorem witness_GenEntryOutsideARun : State.reset.gphase = .idle ∧ ended.gphase = .done ∧
    (openRun 3 State.reset).gphase = .fault := by decide
-- P5: run = 0x2004; the strict bound at 0x2003, the accepted 0x2004
theorem witness_OutOfOrderEntryRaisesOrderingFault :
    let s : State := { running 4 with cur := 0x2004 }
    s.gphase = .run ∧ (0x2003 : BitVec 32).toNat < s.cur.toNat + s.segbase.toNat ∧ LayoutInv s ∧
      s.cur.toNat + s.segbase.toNat ≤ (0x2004 : BitVec 32).toNat :=
  ⟨by decide, by decide, ⟨by decide, by decide, by decide, by decide, by decide, by decide, by decide⟩, by decide⟩
theorem witness_EmptySourceOnlyMovesTheAddress : (running 4).gphase = .run ∧
    (running 4).cur.toNat + (running 4).segbase.toNat ≤ (0xFFFFFFFF : BitVec 32).toNat := by decide
-- Q4's first source: it ends exactly at the window's end; Q11's: in mode 2, at 0xFFFFF
theorem witness_SourceInsideOneWindowIsCutIntoFullRecords :
    (LayoutInv (running 4) ∧ (running 4).gphase = .run ∧ recLen (running 4).mode = some 32 ∧
        (running 4).cur.toNat + (running 4).segbase.toNat ≤ (0xFFF0 : BitVec 32).toNat ∧
        (0xFFF0 : BitVec 32).toNat % 0x10000 + (List.replicate 16 (0 : Byte)).length ≤ 0x10000) ∧
      (LayoutInv (running 2) ∧ recLen (running 2).mode = some 16 ∧ (0xFFFF8 : BitVec 32).toNat ≤ 0xFFFFF ∧
        (0xFFFF8 : BitVec 32).toNat % 0x10000 + (List.replicate 8 (0 : Byte)).length ≤ 0x10000) :=
  ⟨⟨layoutInv_running_4, by decide, by decide, by decide, by decide⟩, layoutInv_running_2, by decide, by decide, by decide⟩
-- a source whose last byte is at MAXADDR (Q11, and mode 4)
theorem witness_GenEntryEmitsTheLayout :
    (LayoutInv (running 2) ∧ (running 2).gphase = .run ∧ recLen (running 2).mode = some 16 ∧
        maxAddr (running 2).mode = some 0xFFFFF ∧ (List.replicate 8 (0 : Byte)) ≠ [] ∧
        (0xFFFF8 : BitVec 32).toNat + (List.replicate 8 (0 : Byte)).length ≤ 0xFFFFF + 1) ∧
      (LayoutInv (running 4) ∧ recLen (running 4).mode = some 32 ∧ maxAddr (running 4).mode = some 0xFFFFFFFF ∧
        (0xFFFFFFFC : BitVec 32).toNat + (List.replicate 4 (0 : Byte)).length ≤ 0xFFFFFFFF + 1) :=
  ⟨⟨layoutInv_running_2, by decide, by decide, by decide, by decide, by decide⟩, layoutInv_running_4, by decide, by decide,
    by decide⟩
theorem witness_GenEntryPlacesEveryByteAtItsAddress : LayoutInv (running 4) ∧ (running 4).gphase = .run ∧
    maxAddr (running 4).mode = some 0xFFFFFFFF ∧
    (running 4).cur.toNat + (running 4).segbase.toNat ≤ (0xFFFE : BitVec 32).toNat ∧
    (0xFFFE : BitVec 32).toNat + ([1, 2, 3, 4, 5] : List Byte).length ≤ 0xFFFFFFFF + 1 :=
  ⟨layoutInv_running_4, by decide, by decide, by decide, by decide⟩
-- Q12 and Q13 with one byte too many; a source that begins above the range
theorem witness_SourcePastTheLastWindowRaisesAddressRangeFault :
    LayoutInv (running 2) ∧ (running 2).gphase = .run ∧ recLen (running 2).mode = some 16 ∧
      maxAddr (running 2).mode = some 0xFFFFF ∧
      (running 2).cur.toNat + (running 2).segbase.toNat ≤ (0xFFFF8 : BitVec 32).toNat ∧
      0xFFFFF + 1 < (0xFFFF8 : BitVec 32).toNat + (List.replicate 9 (0 : Byte)).length ∧
      0xFFFFF + 1 < (0x100000 : BitVec 32).toNat + ([7] : List Byte).length ∧
      0xFFFFFFFF + 1 < (0xFFFFFFFC : BitVec 32).toNat + (List.replicate 5 (0 : Byte)).length :=
  ⟨layoutInv_running_2, by decide, by decide, by decide, by decide, by decide, by decide, by decide⟩
theorem witness_GenStartOpensARun_GenEnd : ((2 : Byte) = 2 ∨ (2 : Byte) = 4) ∧ ((0 : Byte) ≠ 2 ∧ (0 : Byte) ≠ 4) ∧
    (running 4).gphase = .run ∧ State.reset.gphase = .idle ∧ ended.gphase = .done ∧
    (openRun 3 State.reset).gphase = .fault := by decide
-- Q6's entries, which abut and begin with an empty one
theorem witness_GenerateWritesTheWholeImage : maxAddr 4 = some 0xFFFFFFFF ∧
    ([(0, []), (0, [1]), (1, [2])] : List (BitVec 32 × List Byte)).Pairwise
      (fun e f => e.1.toNat + e.2.length ≤ f.1.toNat) ∧
    (∀ e ∈ ([(0, []), (0, [1]), (1, [2])] : List (BitVec 32 × List Byte)), e.1.toNat + e.2.length ≤ 0xFFFFFFFF + 1) := by
  decide
-- Q9: the second entry begins one below the end of the first
theorem witness_GenerateRejectsOverlappingEntries : maxAddr 4 = some 0xFFFFFFFF ∧
    (([] : List (BitVec 32 × List Byte)) ++ [(0, [1])]).Pairwise (fun (x y : BitVec 32 × List Byte) => x.1.toNat + x.2.length ≤ y.1.toNat) ∧
    (∀ x ∈ ([] : List (BitVec 32 × List Byte)) ++ [(0, [1])], x.1.toNat + x.2.length ≤ 0xFFFFFFFF + 1) ∧
    (0 : BitVec 32).toNat < (0 : BitVec 32).toNat + ([1] : List Byte).length := by decide
theorem witness_RecEncLeavesTheLineInEres : (5 : Byte).toNat ≤ 5 ∧ 5 < (6 : Byte).toNat ∧ longest.length ≤ 255 := by
  rw [longest_length]; decide

/-- A decoder whose stream has ended. -/
def endedStream : State := { State.reset with dphase := .eos, dres := .eos, lineno := 1 }

theorem witness_DecOpenStartsAStream : endedStream.dphase ≠ .ready ∧
    exec .decOpen endedStream = .next (openStream endedStream) ∧ (openStream endedStream).dphase ≠ endedStream.dphase :=
  ⟨by decide, rfl, by decide⟩
theorem witness_DecLineConsumesOneLine : endedStream.dphase ≠ .ready ∧ State.reset.dphase = .ready ∧
    State.reset.lineno ≠ 0xFFFFFFFF ∧ (List.replicate 65535 (0x20 : Byte)).length ≤ 65535 ∧ trim (chars "\r\n") = [] ∧
    trim goodLine ≠ [] ∧
    (∃ r, decodeLine Config.decLowercaseOk (trim goodLine) = .ok r) ∧
    decodeLine Config.decLowercaseOk (trim (chars ":00000006FA")) = .formatError .reservedType 5 6 ∧
    decodeLine Config.decLowercaseOk (trim (chars ":00000001FE")) = .checksumError 0xFF 0xFE := by
  rw [List.length_replicate]
  exact ⟨by decide, by decide, by decide, by decide, by decide, by decide, ⟨_, goodLine_decodes⟩, rfl, rfl⟩
theorem witness_FormatErrorContextFitsSixteenBits : (chars ":0300300002337A").length ≤ 65535 ∧
    decodeLine false (chars ":0300300002337A") = .formatError .wrongLineLength 17 15 := by decide
theorem witness_LineCounterPastItsWidthIsFree :
    let s : State := { State.reset with lineno := 0xFFFFFFFF }
    s.dphase = .ready ∧ s.lineno = 0xFFFFFFFF ∧ (List.replicate 65535 (0x20 : Byte)).length ≤ 65535 ∧
      trim (chars "\r\n") = [] ∧ trim goodLine ≠ [] ∧
      (∃ r, decodeLine Config.decLowercaseOk (trim goodLine) = .ok r) ∧
      decodeLine Config.decLowercaseOk (trim (chars ":00000006FA")) = .formatError .reservedType 5 6 ∧
      decodeLine Config.decLowercaseOk (trim (chars ":00000001FE")) = .checksumError 0xFF 0xFE ∧
      longest.length ≤ 255 ∧ recordInstr .lin (mkRecord .sla 0xFFFF longest) = some (.sla .lin 0xFFFF longest) := by
  rw [List.length_replicate, longest_length]
  exact ⟨rfl, rfl, by decide, by decide, by decide, ⟨_, goodLine_decodes⟩, rfl, rfl, by decide, rfl⟩
theorem witness_ReservedCodesRaiseIllegalCommand : State.reset.gphase ≠ .fault ∧
    (openRun 3 State.reset).gphase = .fault := by decide
theorem witness_EmittedRecordsAppendTheirLine : (0xFFFF0000 : BitVec 32).toNat % 0x10000 = 0 ∧
    (0xF0000 : BitVec 32).toNat % 0x10000 = 0 ∧ (0xF0000 : BitVec 32).toNat ≤ 0xF0000 := by decide
theorem witness_RecordsOnLinAreReturnedWhole : State.reset.dphase = .ready ∧ State.reset.lineno ≠ 0xFFFFFFFF ∧
    longest.length ≤ 255 := by rw [longest_length]; decide
theorem witness_OverlongOperandsAreRefused : 255 < (List.replicate 256 (0 : Byte)).length ∧
    65535 < (List.replicate 65536 (0 : Byte)).length := by
  rw [List.length_replicate, List.length_replicate]; decide
theorem witness_DecodeFileReturnsAllOrFails :
    List.Forall₂ (fun (l : Line) (r : HexRecord) =>
      l.length ≤ 65535 ∧ decodeLine Config.decLowercaseOk (trim l) = .ok r) [goodLine]
        [{ recordType := .data, address := 0x30, data := [0x02, 0x33, 0x7A], checksum := 0x1E }] ∧
      trim (chars "\r\n") = [] ∧ trim (chars ":00000001FE") ≠ [] ∧
      (∀ r, decodeLine Config.decLowercaseOk (trim (chars ":00000001FE")) ≠ .ok r) ∧
      decodeLine Config.decLowercaseOk (trim (chars ":00000001FE")) = .checksumError 0xFF 0xFE ∧
      decodeLine Config.decLowercaseOk (trim (chars ":00000006FA")) = .formatError .reservedType 5 6 := by
  refine ⟨.cons ⟨by decide, goodLine_decodes⟩ .nil, by decide, by decide, fun r h => ?_, rfl, rfl⟩
  have e : decodeLine Config.decLowercaseOk (trim (chars ":00000001FE")) = .checksumError 0xFF 0xFE := rfl
  rw [e] at h
  exact absurd h (by simp)
theorem witness_UnitsLeaveEachOtherAlone :
    (∃ t, exec (.genEntry 0xFFFE [1, 2, 3, 4, 5]) (running 4) = .next t) ∧
      (∃ t, exec (.recEnc 0 0 []) (running 4) = .next t) ∧ (∃ t, exec (.decLine goodLine) (running 4) = .next t) ∧
      recordInstr CodecPort.lin.port (mkRecord .sla 0 []) = some (.sla .lin 0 []) ∧
      (∃ t, exec (.sla .lin 0 []) (running 4) = .next t) := ⟨⟨_, rfl⟩, ⟨_, rfl⟩, ⟨_, rfl⟩, rfl, ⟨_, rfl⟩⟩
-- two states that agree on one unit and differ in the other
theorem witness_UnitsDoNotReadEachOther :
    (SameGenerator State.reset endedStream ∧ State.reset.dphase ≠ endedStream.dphase) ∧
      (SameDecoder State.reset (running 4) ∧ (running 4).freeCount = State.reset.freeCount ∧
        State.reset.gphase ≠ (running 4).gphase) ∧
      recordInstr .res (mkRecord .ssa 0 []) = some (.ssa .res 0 []) := by decide
theorem witness_OutOnlyGrows : (∃ t, step (pending (commandWord 2) (running 4)) = .next t) ∧
    (∀ x rest, (pending (commandWord 2) (running 4)).port = x :: rest → x ≠ .rst ∧ opensRun x = false) := by
  refine ⟨⟨_, rfl⟩, fun x rest h => ?_⟩
  simp only [pending, List.cons.injEq] at h
  rw [← h.1]
  decide
theorem witness_GeneratorFaultIsSticky : (pending (commandWord 2) (openRun 3 State.reset)).gphase = .fault ∧
    (∃ t, step (pending (commandWord 2) (openRun 3 State.reset)) = .next t) := ⟨rfl, ⟨_, rfl⟩⟩
theorem witness_EndedDecodeIsSticky : (pending { commandWord 5 with raw := goodLine } endedStream).dphase ≠ .ready ∧
    (∃ t, step (pending { commandWord 5 with raw := goodLine } endedStream) = .next t) ∧
    opensStream (.command { commandWord 5 with raw := goodLine }) = false := ⟨by decide, ⟨_, rfl⟩, by decide⟩
theorem witness_StepKeepsTheInvariant : Inv (running 4) ∧ Inv ended ∧ (∃ t, step (running 4) = .next t) :=
  ⟨inv_running_4, inv_ended, ⟨_, rfl⟩⟩
theorem witness_InvariantStatesNeverStop : Inv (running 4) ∧ presentable (.command (commandWord 7)) = true ∧
    presentable .rst = true := ⟨inv_running_4, by decide, by decide⟩
theorem witness_LinesOfACompletedRun : Inv ended ∧ ended.gphase = .done := ⟨inv_ended, rfl⟩
theorem witness_RunningAddressNeverDecreases : LayoutInv (running 4) ∧ (running 4).gphase = .run ∧
    (∃ t, step (pending { commandWord 1 with la := 5, src := [1] } (running 4)) = .next t) :=
  ⟨layoutInv_running_4, rfl, ⟨_, rfl⟩⟩

end Sys2Proof.Tests
end

section
/-! Proofs about the state after reset (10_state.md). -/

namespace Sys2Proof.Proofs

open Sys2Proof.Machine

/-- Settles O1: `State.reset` is written out field by field, and each row of R22's table, with the numbers of the
enumerated elements, is its field's value by definition. The rows stand in the table's order: unit GEN, unit DEC, the
result buffers. -/
theorem resetStateIsAsTabled : Obligations.ResetStateIsAsTabled :=
  ⟨-- gphase and its number, mode, cur, segbase, out
    rfl, rfl, rfl, rfl, rfl, rfl,
    -- gerr and its number, gea, geb
    rfl, rfl, rfl, rfl,
    -- dphase and its number, lineno
    rfl, rfl, rfl,
    -- derr and dsub with their numbers, dline, dexp, dact
    rfl, rfl, rfl, rfl, rfl, rfl, rfl,
    -- dres, eres
    rfl, rfl⟩

end Sys2Proof.Proofs
end

section
/-! Proofs about the emitted text (20_memory.md R37): what one command can do to `out`. -/

namespace Sys2Proof.Proofs

open Sys2Proof.Machine Sys2Proof.Safety

/-- A record SEQ can emit: of no type the codec alone knows (40_record_encode.md R82), with a payload its length byte
can count and its computed checksum. -/
structure Emittable (r : HexRecord) : Prop where
  not_ssa : r.recordType ≠ .ssa
  not_sla : r.recordType ≠ .sla
  payload : r.data.length ≤ 255
  checked : r.checksum = checksum r.recordType.code r.address r.data

/-- The text `y` is `x` followed by the lines of records SEQ can emit. -/
def ExtendsText (x y : Line) : Prop := ∃ rs : List HexRecord, y = x ++ textOf rs ∧ ∀ r ∈ rs, Emittable r

theorem ExtendsText.refl (x : Line) : ExtendsText x x := ⟨[], (List.append_nil x).symm, by simp⟩

theorem ExtendsText.of_eq {x y : Line} (h : y = x) : ExtendsText x y := h ▸ .refl x

theorem ExtendsText.trans {x y z : Line} (hxy : ExtendsText x y) (hyz : ExtendsText y z) : ExtendsText x z := by
  obtain ⟨rs, rfl, hrs⟩ := hxy
  obtain ⟨rs', rfl, hrs'⟩ := hyz
  refine ⟨rs ++ rs', by rw [textOf_append, List.append_assoc], fun r hr => ?_⟩
  exact (List.mem_append.1 hr).elim (hrs r) (hrs' r)

/-- One emission: the line of a record of a type SEQ emits, and its NEWLINE (40_record_encode.md R77). -/
theorem ExtendsText.line (x : Line) {t : RecType} (a : BitVec 16) {bytes : List Byte} (hssa : t ≠ .ssa)
    (hsla : t ≠ .sla) (hlen : bytes.length ≤ 255) :
    ExtendsText x (x ++ (encodeLine t.code a bytes ++ [newline])) := by
  refine ⟨[mkRecord t a bytes], by rw [textOf_singleton]; rfl, fun r hr => ?_⟩
  obtain rfl := List.mem_singleton.1 hr
  exact ⟨hssa, hsla, hlen, rfl⟩

/-- Opening a window appends nothing, or the extension record of the mode. -/
theorem windowAdvance_extendsText {s s1 : State} (h : windowAdvance s = .ok s1) : ExtendsText s.out s1.out := by
  unfold windowAdvance at h
  split_ifs at h <;> cases h
  · exact .refl _
  · exact .line (t := .ela) s.out 0 nofun nofun (by simp [elaPayload])
  · exact .line (t := .esa) s.out 0 nofun nofun (by simp [esaPayload])

theorem placeChunk_extendsText {chunk : List Byte} (s : State) (h : chunk.length ≤ 255) :
    ExtendsText s.out (placeChunk chunk s).out := .line (t := .data) s.out _ nofun nofun h

/-- A chunk holds no more than RECLEN bytes, 32 at most. -/
theorem chunk_length_le {m : Byte} {len : Nat} (h : recLen m = some len) (cur : BitVec 32) (unread : List Byte) :
    (srcRead (chunkSize len cur unread) unread).1.length ≤ 255 := by
  have hlen : len ≤ 255 := by rcases recLen_cases m len h with ⟨-, rfl⟩ | ⟨-, rfl⟩ <;> decide
  have htake : (srcRead (chunkSize len cur unread) unread).1.length ≤ chunkSize len cur unread :=
    List.length_take_le _ _
  unfold chunkSize at *
  omega

theorem placeBytes_extendsText (p : Nat) (la : BitVec 32) (src : List Byte) {s t : State}
    (h : placeBytes p la src s = .next t) : ExtendsText s.out t.out := by
  induction p generalizing src s with
  | zero => cases h; exact .refl _
  | succ p ih =>
    unfold placeBytes at h
    split at h
    · split at h
      · cases h
      next len hlen =>
        split at h
        · cases h; exact .of_eq (raiseGen_out ..)
        next s1 hs1 =>
          exact (windowAdvance_extendsText hs1).trans
            ((placeChunk_extendsText s1 (chunk_length_le hlen s1.cur src)).trans (ih _ h))
    · cases h; exact .refl _

theorem enterSource_extendsText {la : BitVec 32} {src : List Byte} {s t : State}
    (h : enterSource la src s = .next t) : ExtendsText s.out t.out := by
  unfold enterSource at h
  split at h
  · cases h; exact .of_eq (raiseGen_out ..)
  · have hplaced := placeBytes_extendsText _ _ _ h
    exact hplaced

theorem execGenEntry_extendsText {la : BitVec 32} {src : List Byte} {s t : State}
    (h : execGenEntry la src s = .next t) : ExtendsText s.out t.out := by
  unfold execGenEntry at h
  split at h
  case h_1 => cases h; exact .refl _
  case h_2 => exact enterSource_extendsText h
  all_goals cases h; exact .of_eq (raiseGen_out ..)

theorem execGenEnd_extendsText {s t : State} (h : execGenEnd s = .next t) : ExtendsText s.out t.out := by
  unfold execGenEnd at h
  split at h <;> cases h
  case h_1 => exact .refl _
  case h_2 => exact .line (t := .eof) s.out 0 nofun nofun (Nat.zero_le _)
  all_goals exact .of_eq (raiseGen_out ..)

theorem execRecEnc_out {rtype : Byte} {raddr : BitVec 16} {bytes : List Byte} {s t : State}
    (h : execRecEnc rtype raddr bytes s = .next t) : t.out = s.out := by
  obtain rfl := withPayload_next h
  rfl

theorem execDecLine_out {raw : Line} {s t : State} (h : execDecLine raw s = .next t) : t.out = s.out := by
  unfold execDecLine at h
  split at h <;> cases h
  obtain ⟨⟨-, hout⟩, -, -⟩ := consumeLine_frame Config.decLowercaseOk raw s
  exact hout

/-- A command other than GEN_START only appends to `out`. -/
theorem exec_command_extendsText {w : CommandWord} {i : Instr} {s t : State} (hi : decodeCommand w = .ok i)
    (hop : w.op ≠ 0) (h : exec i s = .next t) : ExtendsText s.out t.out := by
  obtain ⟨h0, -⟩ | ⟨-, rfl⟩ | ⟨-, rfl⟩ | ⟨-, -, rfl⟩ | ⟨-, rfl⟩ | ⟨-, -, rfl⟩ | ⟨-, rfl⟩ | ⟨-, rfl⟩ :=
    decodeCommand_ok hi
  · exact absurd h0 hop
  · exact execGenEntry_extendsText h
  · exact execGenEnd_extendsText h
  · exact .of_eq (execRecEnc_out h)
  · cases h; exact .refl _
  · exact .of_eq (execDecLine_out h)
  · cases h; exact .of_eq (raiseGen_out ..)
  · cases h; exact .of_eq (raiseGen_out ..)

/-- A step that takes neither RST nor GEN_START only appends to `out`. -/
theorem step_extendsText {s t : State} (h : step s = .next t)
    (hx : ∀ x rest, s.port = x :: rest → x ≠ .rst ∧ opensRun x = false) : ExtendsText s.out t.out := by
  obtain ⟨-, rfl⟩ | ⟨rest, hp, -⟩ | ⟨x, rest, -, -, -, rfl⟩ | ⟨w, rest, i, hp, hi, hexec⟩ := step_next h
  · exact .refl _
  · exact absurd rfl (hx _ _ hp).1
  · exact .refl _
  · have hop : w.op ≠ 0 := by simpa [opensRun] using (hx _ _ hp).2
    have hgrown := exec_command_extendsText hi hop hexec
    exact hgrown

/-- Settles O53: only the emissions write to `out`, each the line of one record, and a step performs a sequence of
them; a spelled line holds only the 18 characters. -/
theorem outOnlyGrows : Obligations.OutOnlyGrows := by
  intro s t h hx
  obtain ⟨rs, hout, hrs⟩ := step_extendsText h hx
  refine ⟨rs, hout, fun r hr => ?_⟩
  obtain ⟨hssa, hsla, hlen, hsum⟩ := hrs r hr
  exact ⟨hssa, hsla, hlen, hsum, isOutChar_spell _⟩

end Sys2Proof.Proofs
end

section
/-! Proofs about the reserved command codes (30_encoding.md R60). -/

namespace Sys2Proof.Proofs

open Sys2Proof.Machine

/-- Outside `G_FAULT` a reserved code enters `G_FAULT`, and the code is all it records beside the error. -/
theorem illegalCommand_of_ne (op : BitVec 3) {s : State} (h : s.gphase ≠ .fault) :
    illegalCommand op s =
      { s with gphase := .fault, gerr := .illegalCommand, gea := op.setWidth 32, geb := 0 } :=
  raiseGen_of_ne s .illegalCommand (op.setWidth 32) 0 h

/-- In `G_FAULT` a reserved code changes nothing. -/
theorem illegalCommand_of_fault (op : BitVec 3) {s : State} (h : s.gphase = .fault) : illegalCommand op s = s :=
  raiseGen_of_fault s .illegalCommand (op.setWidth 32) 0 h

theorem exec_reservedOp6 (s : State) : exec .reservedOp6 s = .next (illegalCommand 6 s) := rfl

theorem exec_reservedOp7 (s : State) : exec .reservedOp7 s = .next (illegalCommand 7 s) := rfl

/-- Settles O45: both reserved codes are the one operation `illegalCommand`, and its two cases are the statement's. -/
theorem reservedCodesRaiseIllegalCommand : Obligations.ReservedCodesRaiseIllegalCommand := by
  intro s
  rw [exec_reservedOp6, exec_reservedOp7]
  constructor
  · intro hrun
    rw [illegalCommand_of_ne 6 hrun, illegalCommand_of_ne 7 hrun]
    exact ⟨rfl, rfl⟩
  · intro hfault
    rw [illegalCommand_of_fault 6 hfault, illegalCommand_of_fault 7 hfault]
    exact ⟨rfl, rfl⟩

end Sys2Proof.Proofs
end

section
/-! Proofs about building and encoding a record (40_record_encode.md R70, R73, R75). -/

namespace Sys2Proof.Proofs

open Sys2Proof.Machine

/-! ### The byte sum and the checksum (R70) -/

theorem hi8_toNat (a : BitVec 16) : (hi8 a).toNat = a.toNat / 0x100 := by
  have hlt : a.toNat / 0x100 < 0x100 := Nat.div_lt_of_lt_mul a.isLt
  rw [hi8, BitVec.extractLsb'_toNat, Nat.shiftRight_eq_div_pow]
  exact Nat.mod_eq_of_lt hlt

theorem lo8_toNat (a : BitVec 16) : (lo8 a).toNat = a.toNat % 0x100 := by
  rw [lo8, BitVec.extractLsb'_toNat, Nat.shiftRight_zero]

/-- Each data byte adds at most 255 to the sum. -/
theorem sum_toNat_le (bytes : List Byte) : (bytes.map BitVec.toNat).sum ≤ bytes.length * 255 := by
  have hle : ∀ n ∈ bytes.map BitVec.toNat, n ≤ 255 := by
    intro n hn
    obtain ⟨b, -, rfl⟩ := List.mem_map.1 hn
    exact Nat.le_of_lt_succ b.isLt
  simpa using List.sum_le_card_nsmul _ _ hle

theorem byteSum_eq (t : Byte) (a : BitVec 16) (bytes : List Byte) :
    byteSum t a bytes =
      bytes.length + a.toNat / 0x100 + a.toNat % 0x100 + t.toNat + (bytes.map BitVec.toNat).sum := by
  rw [byteSum, hi8_toNat, lo8_toNat]

/-- The five summands are at most 255, 255, 255, 255 and 255 * 255. -/
theorem byteSum_le (t : Byte) (a : BitVec 16) {bytes : List Byte} (hlen : bytes.length ≤ 255) :
    byteSum t a bytes ≤ 66045 := by
  have hhi : (hi8 a).toNat < 256 := (hi8 a).isLt
  have hlo : (lo8 a).toNat < 256 := (lo8 a).isLt
  have ht : t.toNat < 256 := t.isLt
  have hdata := sum_toNat_le bytes
  unfold byteSum
  omega

theorem checksum_toNat (t : Byte) (a : BitVec 16) (bytes : List Byte) :
    (checksum t a bytes).toNat = (0x100 - byteSum t a bytes % 0x100) % 0x100 := by
  rw [checksum, BitVec.toNat_ofNat]
  exact Nat.mod_mod _ _

/-- The bound of `byteSum_le` is reached. -/
theorem byteSum_largest : byteSum 0xFF 0xFFFF (List.replicate 255 0xFF) = 0x101FD := by
  rw [byteSum, List.length_replicate, List.map_replicate, List.sum_replicate]
  rfl

/-- Settles O14: the sum's summands and its bound are facts about its bytes; the corner cases (a sum of 0, the largest
sum) and the worked example are evaluated. -/
theorem checksumIsTheNegatedByteSum : Obligations.ChecksumIsTheNegatedByteSum := by
  refine ⟨fun t a bytes hlen => ⟨byteSum_eq t a bytes, byteSum_le t a hlen, checksum_toNat t a bytes⟩,
    rfl, rfl, rfl, byteSum_largest, ?_⟩
  rw [checksum, byteSum_largest]
  rfl

/-! ### MakeRecord (R73) -/

theorem makeRecord_none (t : Byte) (a : BitVec 16) (bytes : List Byte) :
    makeRecord t a bytes none =
      .ok { typeByte := t, address := a, data := bytes, checksum := checksum t a bytes } := rfl

theorem makeRecord_checksum (t : Byte) (a : BitVec 16) (bytes : List Byte) :
    makeRecord t a bytes (some (checksum t a bytes)) = makeRecord t a bytes none := if_pos rfl

theorem makeRecord_of_ne {t : Byte} {a : BitVec 16} {bytes : List Byte} {e : Byte} (h : e ≠ checksum t a bytes) :
    makeRecord t a bytes (some e) = .error (checksum t a bytes, e) := if_neg h

/-- Settles O16: one equation per outcome of MakeRecord; the worked examples are those of the empty End-Of-File
record, whose checksum is 0xFF. -/
theorem makeRecordChecksTheExpectedChecksum : Obligations.MakeRecordChecksTheExpectedChecksum := by
  have heof : checksum 1 0 [] = 0xFF := rfl
  refine ⟨fun t a bytes => ⟨makeRecord_none t a bytes, makeRecord_checksum t a bytes, fun e => makeRecord_of_ne⟩,
    ?_, ?_⟩
  · rw [makeRecord_none, heof]
  · rw [makeRecord_of_ne (by decide), heof]

/-! ### REC_ENC (R75) -/

theorem encodeResult_of_le {rtype : Byte} (h : rtype.toNat ≤ 5) (raddr : BitVec 16) (bytes : List Byte) :
    encodeResult rtype raddr bytes = .ok (encodeLine rtype raddr bytes) := if_neg (Nat.not_lt.2 h)

theorem encodeResult_of_gt {rtype : Byte} (h : 5 < rtype.toNat) (raddr : BitVec 16) (bytes : List Byte) :
    encodeResult rtype raddr bytes = .illegalOperand := if_pos h

theorem withPayload_of_le {bytes : List Byte} (h : bytes.length ≤ 255) (s : State) :
    withPayload bytes s = .next s := if_pos (decide_eq_true h)

/-- REC_ENC with a payload that can be presented writes `eres` and nothing else. -/
theorem exec_recEnc (rtype : Byte) (raddr : BitVec 16) {bytes : List Byte} (h : bytes.length ≤ 255) (s : State) :
    exec (.recEnc rtype raddr bytes) s = .next { s with eres := encodeResult rtype raddr bytes } :=
  withPayload_of_le h _

/-- Settles O40: the next state is the same but for `eres`, and the type byte alone decides what stands there. -/
theorem recEncLeavesTheLineInEres : Obligations.RecEncLeavesTheLineInEres := by
  intro s rtype raddr bytes hlen
  rw [exec_recEnc rtype raddr hlen]
  constructor
  · intro hle
    rw [encodeResult_of_le hle]
  · intro hgt
    rw [encodeResult_of_gt hgt]

end Sys2Proof.Proofs
end

section
/-! Proofs about the decoder's reading of characters and lines (41_record_decode.md R90, R91, R94). -/

namespace Sys2Proof.Proofs

/-! ### Digits (R90) -/

theorem some_ofNat_eq_some_iff {k : Nat} (hk : k < 16) (v : BitVec 4) :
    some (BitVec.ofNat 4 k) = some v ↔ v.toNat = k := by
  rw [Option.some_inj, ← BitVec.toNat_inj, BitVec.toNat_ofNat, Nat.mod_eq_of_lt hk, eq_comm]

/-- The three ranges of digit characters, each with the value at its place; a character is in one range at most. -/
theorem hexval_eq_some_iff (lc : Bool) (c : Byte) (v : BitVec 4) : hexval lc c = some v ↔
    (c.toNat = 0x30 + v.toNat ∧ v.toNat ≤ 9) ∨ (c.toNat + 10 = 0x41 + v.toNat ∧ 10 ≤ v.toNat) ∨
      (lc = true ∧ c.toNat + 10 = 0x61 + v.toNat ∧ 10 ≤ v.toNat) := by
  have hv := v.isLt
  unfold hexval
  split_ifs with hdecimal hupper hlower hlc
  · rw [some_ofNat_eq_some_iff (by omega)]; omega
  · rw [some_ofNat_eq_some_iff (by omega)]; omega
  · rw [some_ofNat_eq_some_iff (by omega), eq_true hlc, true_and]; omega
  · rw [eq_false hlc, false_and, or_false]; simp only [false_iff]; omega
  · simp only [false_iff]; rintro (h | h | ⟨-, h⟩) <;> omega

theorem nibble_append_toNat (h l : BitVec 4) : (h ++ l).toNat = 16 * h.toNat + l.toNat := by
  rw [BitVec.toNat_append, ← Nat.shiftLeft_add_eq_or_of_lt l.isLt, Nat.shiftLeft_eq, Nat.mul_comm]

/-- Two characters spell a byte when both are digits, the first the high nibble. -/
theorem byteval_eq_some_iff (lc : Bool) (c1 c2 b : Byte) : byteval lc c1 c2 = some b ↔
    ∃ h l, hexval lc c1 = some h ∧ hexval lc c2 = some l ∧ b.toNat = 16 * h.toNat + l.toNat := by
  unfold byteval
  split
  next h l hh hl =>
    simp only [hh, hl, Option.some_inj, ← nibble_append_toNat, BitVec.toNat_inj]
    exact ⟨fun hb => ⟨h, l, rfl, rfl, hb.symm⟩, by rintro ⟨_, _, rfl, rfl, rfl⟩; rfl⟩
  next hnone =>
    simp only [reduceCtorEq, false_iff]
    rintro ⟨h, l, hh, hl, -⟩
    exact hnone h l hh hl

/-- Settles O18: `hexval` and `byteval` are characterised once each, for both values of `DEC_LOWERCASE_OK`. -/
theorem hexvalAcceptsExactlyTheDigits : Obligations.HexvalAcceptsExactlyTheDigits :=
  ⟨hexval_eq_some_iff, byteval_eq_some_iff⟩

/-! ### Trimming (R91) -/

theorem inTrimSet_iff_mem (c : Byte) :
    inTrimSet c = true ↔ c ∈ ([0x20, 0x09, 0x0A, 0x0B, 0x0C, 0x0D] : Line) := by
  simp [inTrimSet, or_assoc]

/-- `Trim` is the library's removal of a run from the front, then from the back. -/
theorem trim_eq_rdropWhile (raw : Line) : trim raw = (raw.dropWhile inTrimSet).rdropWhile inTrimSet := rfl

/-- A character of `TRIM_SET` at the end is trimmed away, also when nothing else is left. -/
theorem trim_concat {c : Byte} (hc : inTrimSet c = true) (raw : Line) : trim (raw ++ [c]) = trim raw := by
  rw [trim_eq_rdropWhile, trim_eq_rdropWhile, List.dropWhile_append]
  split
  next hblank => rw [List.isEmpty_iff.1 hblank, List.dropWhile_cons_of_pos hc]; rfl
  next => exact List.rdropWhile_concat_pos _ _ _ hc

/-- The two runs that `Trim` removes stand around what it leaves. -/
theorem trim_decomposition (raw : Line) :
    raw = raw.takeWhile inTrimSet ++ trim raw ++ (raw.dropWhile inTrimSet).rtakeWhile inTrimSet := by
  rw [trim_eq_rdropWhile, List.append_assoc, List.rdropWhile_append_rtakeWhile, List.takeWhile_append_dropWhile]

theorem inTrimSet_of_head?_trim {raw : Line} {c : Byte} (h : (trim raw).head? = some c) : inTrimSet c = false := by
  obtain ⟨tail, htail⟩ := List.head?_eq_some_iff.1 h
  have hsplit := List.rdropWhile_append_rtakeWhile (p := inTrimSet) (l := raw.dropWhile inTrimSet)
  rw [← trim_eq_rdropWhile, htail] at hsplit
  have hnot := List.head?_dropWhile_not inTrimSet raw
  rw [← hsplit] at hnot
  exact hnot

theorem inTrimSet_of_getLast?_trim {raw : Line} {c : Byte} (h : (trim raw).getLast? = some c) :
    inTrimSet c = false := by
  obtain ⟨hne, rfl⟩ := List.mem_getLast?_eq_getLast h
  exact Bool.eq_false_iff.2 (List.rdropWhile_last_not inTrimSet _ hne)

/-- Settles O19: the removed runs hold characters of `TRIM_SET` only, and the ends of what is left hold none. -/
theorem trimStripsTheOuterRuns : Obligations.TrimStripsTheOuterRuns := by
  intro raw
  have hlf : trim (raw ++ [0x0A]) = trim raw := trim_concat (by decide) raw
  have hcrlf : trim (raw ++ [0x0D, 0x0A]) = trim raw := by
    rw [List.append_cons, trim_concat (by decide), trim_concat (by decide)]
  refine ⟨hcrlf, hlf, _, _, trim_decomposition raw, fun c hc => ?_, fun c hc => ?_⟩
  · rw [← inTrimSet_iff_mem]
    exact (List.mem_append.1 hc).elim List.mem_takeWhile_imp List.mem_rtakeWhile_imp
  · rw [← inTrimSet_iff_mem, Bool.not_eq_true]
    exact hc.elim inTrimSet_of_head?_trim inTrimSet_of_getLast?_trim

/-! ### The checks before the body (R92 to R94) -/

/-- A line with a start marker and eight digits after it is judged by its body. -/
theorem decodeLine_of_header {lc : Bool} {t : Line} (hmark : t.head? = some colon)
    (hhead : firstBadDigit lc t 1 8 = none) :
    decodeLine lc t =
      decodeBody lc t (byteAt lc t 1).toNat (byteAt lc t 3 ++ byteAt lc t 5) (byteAt lc t 7) := by
  unfold decodeLine
  simp [hmark, hhead]

/-- The length is the body's first check. -/
theorem decodeBody_of_length_ne {lc : Bool} {t : Line} {n : Nat} (h : t.length ≠ 11 + 2 * n) (a : BitVec 16)
    (tt : Byte) : decodeBody lc t n a tt = .formatError .wrongLineLength (11 + 2 * n) t.length := if_pos h

theorem byteAt_eq_of_byteval {lc : Bool} {t : Line} {j : Nat} {c1 c2 b : Byte} (h1 : t[j]? = some c1)
    (h2 : t[j + 1]? = some c2) (hb : byteval lc c1 c2 = some b) : byteAt lc t j = b := by
  simp [byteAt, h1, h2, hb]

/-- Settles O26: with a good header nothing of the line after it is read before its length is checked. -/
theorem wrongLengthIsReportedBeforeTheBody : Obligations.WrongLengthIsReportedBeforeTheBody := by
  intro lc t c1 c2 n hmark hlong hdigits h1 h2 hn hne
  have hhead : firstBadDigit lc t 1 8 = none := by
    rw [firstBadDigit_eq_none_iff]
    intro j hj hj'
    have hin : t[j]? = some t[j] := List.getElem?_eq_getElem (by omega)
    exact ⟨_, hin, hdigits j _ hj (by omega) hin⟩
  rw [decodeLine_of_header (List.head?_eq_getElem?.trans hmark) hhead, byteAt_eq_of_byteval h1 h2 hn,
    decodeBody_of_length_ne hne]

end Sys2Proof.Proofs
end

section
/-! Proofs about the decoder's line stream (41_record_decode.md R99 to R101): DEC_OPEN, DEC_LINE, DECODE_FILE. -/

namespace Sys2Proof.Proofs

open Sys2Proof.Machine Sys2Proof.Safety

/-! ### DEC_OPEN (R99) -/

theorem exec_decOpen (s : State) : exec .decOpen s = .next (openStream s) := rfl

/-! ### One line (R100): its five cases, before the counter's -/

theorem exec_decLine {raw : Line} (h : raw.length ≤ 65535) (s : State) :
    exec (.decLine raw) s = .next (consumeLine Config.decLowercaseOk raw s) := if_pos (decide_eq_true h)

theorem consumeLine_of_ended (lc : Bool) (raw : Line) {s : State} (h : s.dphase ≠ .ready) :
    consumeLine lc raw s = { s with dres := .sequenceFault } := if_neg h

theorem consumeLine_of_blank (lc : Bool) {raw : Line} {s : State} (h : s.dphase = .ready) (hraw : trim raw = []) :
    consumeLine lc raw s = { countLine s with dphase := .eos, dres := .eos } := by
  simp [consumeLine, h, hraw]

theorem consumeLine_of_ok {lc : Bool} {raw : Line} {s : State} {r : HexRecord} (h : s.dphase = .ready)
    (hraw : trim raw ≠ []) (hdec : decodeLine lc (trim raw) = .ok r) :
    consumeLine lc raw s = { countLine s with dres := .ok r } := by
  simp [consumeLine, h, hraw, hdec]

theorem consumeLine_of_formatError {lc : Bool} {raw : Line} {s : State} {sub : SubCause} {e a : Nat}
    (h : s.dphase = .ready) (hraw : trim raw ≠ []) (hdec : decodeLine lc (trim raw) = .formatError sub e a) :
    consumeLine lc raw s =
      raiseDec .formatError sub (BitVec.ofNat 16 e) (BitVec.ofNat 16 a) (.formatError sub) (countLine s) := by
  simp [consumeLine, h, hraw, hdec]

theorem consumeLine_of_checksumError {lc : Bool} {raw : Line} {s : State} {c d : Byte}
    (h : s.dphase = .ready) (hraw : trim raw ≠ []) (hdec : decodeLine lc (trim raw) = .checksumError c d) :
    consumeLine lc raw s =
      raiseDec .checksumError .none (c.setWidth 16) (d.setWidth 16) .checksumError (countLine s) := by
  simp [consumeLine, h, hraw, hdec]

/-- Settles O42: the cases of one line, each with the counter one up. -/
theorem decLineConsumesOneLine : Obligations.DecLineConsumesOneLine := by
  intro s raw hlen
  rw [exec_decLine hlen]
  refine ⟨fun hended => by rw [consumeLine_of_ended _ _ hended], fun hready hlast => ⟨?_, ?_, ?_, ?_⟩⟩
  · intro hblank
    rw [consumeLine_of_blank _ hready hblank, countLine_of_ne s hlast]
  · intro hraw r hdec
    rw [consumeLine_of_ok hready hraw hdec, countLine_of_ne s hlast]
  · intro hraw sub e a hdec
    rw [consumeLine_of_formatError hready hraw hdec, countLine_of_ne s hlast]
    rfl
  · intro hraw c d hdec
    rw [consumeLine_of_checksumError hready hraw hdec, countLine_of_ne s hlast]
    rfl

/-! ### What leaves the decoder's phase alone -/

theorem raiseGen_sameDecoder (e : ErrorKind) (a : BitVec 32) (b : BitVec 33) (s : State) :
    SameDecoder s (raiseGen e a b s) := by simp [SameDecoder]

theorem enterSource_sameDecoder {la : BitVec 32} {src : List Byte} {s t : State}
    (h : enterSource la src s = .next t) : SameDecoder s t := by
  unfold enterSource at h
  split at h
  · cases h; exact raiseGen_sameDecoder ..
  · exact (placeBytes_frame _ _ _ _ _ h).1

theorem execGenEntry_sameDecoder {la : BitVec 32} {src : List Byte} {s t : State}
    (h : execGenEntry la src s = .next t) : SameDecoder s t := by
  unfold execGenEntry at h
  split at h
  case h_1 => cases h; simp [SameDecoder]
  case h_2 => exact enterSource_sameDecoder h
  all_goals cases h; exact raiseGen_sameDecoder ..

theorem execGenEnd_sameDecoder {s t : State} (h : execGenEnd s = .next t) : SameDecoder s t := by
  unfold execGenEnd at h
  split at h <;> cases h
  case h_1 => simp [SameDecoder]
  case h_2 => simp [SameDecoder, emitEOF]
  all_goals exact raiseGen_sameDecoder ..

/-- After the stream has ended a line changes `dres` alone. -/
theorem consumeLine_dphase_of_ended (lc : Bool) (raw : Line) {s : State} (h : s.dphase ≠ .ready) :
    (consumeLine lc raw s).dphase = s.dphase := by rw [consumeLine_of_ended lc raw h]

theorem recordInCodec_dphase_of_ended (via : CodecPort) (t : RecType) (a : BitVec 16) (bytes : List Byte) {s : State}
    (h : s.dphase ≠ .ready) : (recordInCodec via t a bytes s).dphase = s.dphase := by
  cases via with
  | res => rfl
  | lin => exact consumeLine_dphase_of_ended _ _ h

theorem recordAt_dphase_of_ended (via : RecordPort) (t : RecType) (a : BitVec 16) (bytes : List Byte) {s : State}
    (h : s.dphase ≠ .ready) : (recordAt via t a bytes s).dphase = s.dphase := by
  cases via with
  | out => rfl
  | res => exact recordInCodec_dphase_of_ended .res t a bytes h
  | lin => exact recordInCodec_dphase_of_ended .lin t a bytes h

theorem execDecLine_dphase_of_ended {raw : Line} {s t : State} (h : s.dphase ≠ .ready)
    (hexec : execDecLine raw s = .next t) : t.dphase = s.dphase := by
  unfold execDecLine at hexec
  split at hexec <;> cases hexec
  exact consumeLine_dphase_of_ended _ _ h

/-- DEC_OPEN aside, an ended stream stays as it ended. -/
theorem exec_dphase_of_ended {i : Instr} {s t : State} (h : s.dphase ≠ .ready) (hi : i ≠ .decOpen)
    (hexec : exec i s = .next t) : t.dphase = s.dphase := by
  cases i with
  | genStart m => cases hexec; rfl
  | genEntry la src => exact (execGenEntry_sameDecoder hexec).1
  | genEnd => exact (execGenEnd_sameDecoder hexec).1
  | recEnc rtype raddr bytes => obtain rfl := withPayload_next hexec; rfl
  | decOpen => exact absurd rfl hi
  | decLine raw => exact execDecLine_dphase_of_ended h hexec
  | reservedOp6 => cases hexec; exact raiseGen_dphase ..
  | reservedOp7 => cases hexec; exact raiseGen_dphase ..
  | data via a bytes => obtain rfl := withPayload_next hexec; exact recordAt_dphase_of_ended via .data a bytes h
  | eof via a bytes => obtain rfl := withPayload_next hexec; exact recordAt_dphase_of_ended via .eof a bytes h
  | esa via a bytes => obtain rfl := withPayload_next hexec; exact recordAt_dphase_of_ended via .esa a bytes h
  | ela via a bytes => obtain rfl := withPayload_next hexec; exact recordAt_dphase_of_ended via .ela a bytes h
  | ssa via a bytes => obtain rfl := withPayload_next hexec; exact recordInCodec_dphase_of_ended via .ssa a bytes h
  | sla via a bytes => obtain rfl := withPayload_next hexec; exact recordInCodec_dphase_of_ended via .sla a bytes h

/-- Settles O41: the next state is `openStream`'s, and no other instruction changes the phase of an ended stream. -/
theorem decOpenStartsAStream : Obligations.DecOpenStartsAStream := by
  refine ⟨fun s => exec_decOpen s, fun s t i hended hexec hleaves => ?_⟩
  by_contra hi
  exact hleaves (exec_dphase_of_ended hended hi hexec)

/-! ### DECODE_FILE (R101) -/

/-- A line that can be presented and decodes to the record. -/
def DecodesTo (l : Line) (r : HexRecord) : Prop :=
  l.length ≤ 65535 ∧ decodeLine Config.decLowercaseOk (trim l) = .ok r

theorem trim_ne_nil_of_ok {lc : Bool} {l : Line} {r : HexRecord} (h : decodeLine lc (trim l) = .ok r) :
    trim l ≠ [] := by
  intro hblank
  rw [hblank] at h
  cases h

theorem decodeFile_eq (lines : List Line) (s : State) : decodeFile lines s = decodeLines lines [] (openStream s) := rfl

/-- A line that decodes hands the rest of the file on, with the counter one up. -/
theorem decodeLines_cons_of_ok {l : Line} {r : HexRecord} {s : State} (hl : DecodesTo l r) (h : s.dphase = .ready)
    (hlast : s.lineno ≠ 0xFFFFFFFF) (rest : List Line) (done : List HexRecord) :
    decodeLines (l :: rest) done s =
      decodeLines rest (done ++ [r]) { s with lineno := s.lineno + 1, dres := .ok r } := by
  obtain ⟨hlen, hdec⟩ := hl
  rw [decodeLines, exec_decLine hlen, consumeLine_of_ok h (trim_ne_nil_of_ok hdec) hdec, countLine_of_ne s hlast]
  exact if_pos h

/-- A line that ends the stream ends the decode, whatever follows. -/
theorem decodeLines_cons_of_ended {l : Line} {s t : State} (hexec : exec (.decLine l) s = .next t)
    (ht : t.dphase ≠ .ready) (rest : List Line) (done : List HexRecord) :
    decodeLines (l :: rest) done s = .next (t, done) := by
  rw [decodeLines, hexec]
  exact if_neg ht

theorem ne_last_of_toNat_lt {n : BitVec 32} (h : n.toNat + 1 < 0x100000000) : n ≠ 0xFFFFFFFF := by
  rintro rfl
  exact absurd h (by decide)

theorem toNat_add_one_of_lt {n : BitVec 32} (h : n.toNat + 1 < 0x100000000) : (n + 1).toNat = n.toNat + 1 := by
  rw [BitVec.toNat_add]
  exact Nat.mod_eq_of_lt h

/-- Lines that decode, before any rest of the file: their records are collected and their number is counted. -/
theorem decodeLines_append_of_decodes {good : List Line} {rs : List HexRecord}
    (hgood : List.Forall₂ DecodesTo good rs) (rest : List Line) (done : List HexRecord) {s : State}
    (h : s.dphase = .ready) (hcount : s.lineno.toNat + rs.length < 0x100000000) :
    ∃ u : State, u.dphase = .ready ∧ u.lineno.toNat = s.lineno.toNat + rs.length ∧
      decodeLines (good ++ rest) done s = decodeLines rest (done ++ rs) u := by
  induction hgood generalizing done s with
  | nil => exact ⟨s, h, rfl, by rw [List.append_nil]; rfl⟩
  | @cons l r good rs hl _ ih =>
    rw [List.length_cons] at hcount ⊢
    have hnext : (s.lineno + 1).toNat = s.lineno.toNat + 1 := toNat_add_one_of_lt (by omega)
    obtain ⟨u, hu, hlineno, hrest⟩ :=
      ih (done ++ [r]) (s := { s with lineno := s.lineno + 1, dres := .ok r }) h
        (by simp only [hnext]; omega)
    refine ⟨u, hu, by simp only [hnext] at hlineno; omega, ?_⟩
    rw [List.cons_append, decodeLines_cons_of_ok hl h (ne_last_of_toNat_lt (by omega)), hrest, List.append_assoc,
      List.singleton_append]

/-- The good lines of a file: what is left runs in `D_READY` with the good lines counted. -/
theorem decodeFile_append_of_decodes {good : List Line} {rs : List HexRecord}
    (hgood : List.Forall₂ DecodesTo good rs) (hcount : rs.length < 0x100000000) (rest : List Line) (s : State) :
    ∃ u : State, u.dphase = .ready ∧ u.lineno.toNat = rs.length ∧
      decodeFile (good ++ rest) s = decodeLines rest rs u := by
  have hstart : (openStream s).lineno.toNat = 0 := rfl
  obtain ⟨u, hu, hlineno, hrest⟩ :=
    decodeLines_append_of_decodes hgood rest [] (openStream_dphase s) (by omega)
  exact ⟨u, hu, by omega, (decodeFile_eq _ s).trans hrest⟩

/-- A file's result is its records unless it ended in `D_FAULT`. -/
theorem decodeFileResult_of_ne {t : State} (h : t.dphase ≠ .fault) (rs : List HexRecord) :
    decodeFileResult t rs = .ok rs := if_neg h

theorem decodeFileResult_of_fault {t : State} (h : t.dphase = .fault) (rs : List HexRecord) :
    decodeFileResult t rs = .error t.derr := if_pos h

/-- Settles O50: after the good lines the file runs out, is ended by a blank line, or fails, and one line's cases say
what stands in the decoder's registers. -/
theorem decodeFileReturnsAllOrFails : Obligations.DecodeFileReturnsAllOrFails := by
  intro s good rs rest hcount hgood
  have hrun := fun rest => decodeFile_append_of_decodes hgood (by omega) rest s
  refine ⟨?_, fun blank hlen hblank => ?_, fun bad hlen hbad hnone => ?_⟩
  · obtain ⟨u, hu, hlineno, hfile⟩ := hrun []
    rw [List.append_nil] at hfile
    exact ⟨u, hfile, decodeFileResult_of_ne (by rw [hu]; decide) rs, hu, hlineno⟩
  · obtain ⟨u, hu, hlineno, hfile⟩ := hrun (blank :: rest)
    obtain ⟨hends, -, -, -⟩ := (decLineConsumesOneLine u blank hlen).2 hu (ne_last_of_toNat_lt (by omega))
    refine ⟨_, hfile.trans (decodeLines_cons_of_ended (hends hblank) nofun rest rs),
      decodeFileResult_of_ne (by nofun) rs, rfl, ?_⟩
    exact (toNat_add_one_of_lt (by omega)).trans (by rw [hlineno])
  · obtain ⟨u, hu, hlineno, hfile⟩ := hrun (bad :: rest)
    obtain ⟨-, -, hformat, hchecksum⟩ := (decLineConsumesOneLine u bad hlen).2 hu (ne_last_of_toNat_lt (by omega))
    have hnumber : (u.lineno + 1).toNat = rs.length + 1 := (toNat_add_one_of_lt (by omega)).trans (by rw [hlineno])
    cases hdec : decodeLine Config.decLowercaseOk (trim bad) with
    | ok r => exact absurd hdec (hnone r)
    | formatError sub e a =>
      refine ⟨_, hfile.trans (decodeLines_cons_of_ended (hformat hbad sub e a hdec) nofun rest rs), rfl, hnumber,
        rfl, ?_, nofun⟩
      rintro _ _ _ ⟨⟩
      exact ⟨decodeFileResult_of_fault rfl rs, rfl, rfl, rfl, rfl⟩
    | checksumError c d =>
      refine ⟨_, hfile.trans (decodeLines_cons_of_ended (hchecksum hbad c d hdec) nofun rest rs), rfl, hnumber,
        rfl, nofun, ?_⟩
      rintro _ _ ⟨⟩
      exact ⟨decodeFileResult_of_fault rfl rs, rfl, rfl, rfl, rfl⟩

end Sys2Proof.Proofs
end

section
/-! Proofs about the sequencer's commands (42_layout_sequencer.md): a run's opening (R110), the order of its entries
(R113), its end (R121). -/

namespace Sys2Proof.Proofs

open Sys2Proof.Machine Sys2Proof.Safety

/-! ### The order of entries (R113) -/

theorem exec_genEntry_of_run {s : State} (h : s.gphase = .run) (la : BitVec 32) (src : List Byte) :
    exec (.genEntry la src) s = enterSource la src s := by
  simp only [exec, execGenEntry, h]

/-- The running address is the exact sum of the two registers. -/
theorem runAddr_eq_ofNat (s : State) : s.runAddr = BitVec.ofNat 33 s.addr := by
  rw [← runAddr_toNat, BitVec.ofNat_toNat, BitVec.setWidth_eq]

theorem enterSource_of_lt {la : BitVec 32} {s : State} (h : la.toNat < s.addr) (src : List Byte) :
    enterSource la src s = .next (raiseGen .orderingFault la s.runAddr s) :=
  if_pos ((runAddr_toNat s).symm ▸ h)

theorem windowAdvance_gerr {s s1 : State} (h : windowAdvance s = .ok s1) : s1.gerr = s.gerr := by
  unfold windowAdvance at h
  split_ifs at h <;> cases h <;> rfl

/-- The only error the bytes of a source can raise is the end of the mode's range. -/
theorem placeBytes_gerr (p : Nat) (la : BitVec 32) (src : List Byte) {s t : State}
    (h : placeBytes p la src s = .next t) : t.gerr = s.gerr ∨ t.gerr = .addressRangeFault := by
  induction p generalizing src s with
  | zero => cases h; exact .inl rfl
  | succ p ih =>
    unfold placeBytes at h
    split at h
    · split at h
      · cases h
      · split at h
        · cases h
          rw [raiseGen_gerr]
          exact ite_eq_or_eq ..
        next s1 hs1 => simpa [windowAdvance_gerr hs1] using ih _ h
    · cases h; exact .inl rfl

/-- Settles O31: the order check is `enterSource`'s first; past it only the bytes can raise an error, and theirs is
another. -/
theorem outOfOrderEntryRaisesOrderingFault : Obligations.OutOfOrderEntryRaisesOrderingFault := by
  intro s la src hrun
  have hfault : s.gphase ≠ .fault := by simp [hrun]
  rw [exec_genEntry_of_run hrun]
  refine ⟨fun hlt => ?_, fun hinv hle => ?_⟩
  · rw [enterSource_of_lt hlt, raiseGen_of_ne s _ _ _ hfault, runAddr_eq_ofNat]
  · obtain ⟨t, -, -, hnext, -⟩ := enterSource_spec s la src hinv hrun
    have hclear : s.gerr = .none := hinv.error_iff_fault.2 hfault
    refine ⟨t, hnext, ?_⟩
    rw [enterSource_ok la s src hle] at hnext
    obtain hkept | hrange := placeBytes_gerr _ _ _ hnext
    · rw [hkept.trans hclear]; nofun
    · rw [hrange]; nofun

/-! ### GEN_START (R110) -/

theorem exec_genStart (m : Byte) (s : State) : exec (.genStart m) s = .next (openRun m s) := rfl

theorem modeSupported_iff (m : Byte) : modeSupported m = true ↔ m = 2 ∨ m = 4 := by simp [modeSupported]

theorem openRun_of_supported {m : Byte} (h : modeSupported m = true) (s : State) :
    openRun m s =
      { s with out := [], cur := 0, segbase := 0, mode := m, gea := 0, geb := 0, gerr := .none, gphase := .run } := by
  simp [openRun, h]

theorem openRun_of_unsupported {m : Byte} (h : ¬ modeSupported m = true) (s : State) :
    openRun m s =
      { s with
        out := [], cur := 0, segbase := 0, mode := m, gea := 0, geb := 0, gerr := .unsupportedMode,
        gphase := .fault } := by
  simp [openRun, h]

/-- Settles O29: GEN_START is `openRun` in every phase, and whether the mode is supported is its one case split. -/
theorem genStartOpensARun : Obligations.GenStartOpensARun := by
  intro s m
  rw [exec_genStart, ← not_or, ← modeSupported_iff]
  exact ⟨fun h => by rw [openRun_of_supported h], fun h => by rw [openRun_of_unsupported h]⟩

/-! ### GEN_END (R121) -/

/-- The End-Of-File record's line: `:00000001FF` (40_record_encode.md R79). -/
theorem encodeLine_eof :
    encodeLine 1 0 [] = [0x3A, 0x30, 0x30, 0x30, 0x30, 0x30, 0x30, 0x30, 0x31, 0x46, 0x46] := by decide

theorem emitEOF_eq (s : State) :
    emitEOF s = { s with
      out := s.out ++ [0x3A, 0x30, 0x30, 0x30, 0x30, 0x30, 0x30, 0x30, 0x31, 0x46, 0x46, 0x0A] } := by
  rw [emitEOF, encodeLine_eof]
  rfl

theorem exec_genEnd_of_run {s : State} (h : s.gphase = .run) :
    exec .genEnd s = .next { emitEOF s with gphase := .done } := by
  simp only [exec, execGenEnd, h]

theorem exec_genEnd_of_fault {s : State} (h : s.gphase = .fault) : exec .genEnd s = .next s := by
  simp only [exec, execGenEnd, h]

/-- With no run open GEN_END is out of sequence (R124). -/
theorem exec_genEnd_of_closed {s : State} (h : s.gphase = .idle ∨ s.gphase = .done) :
    exec .genEnd s = .next (raiseGen .sequenceFault 2 0 s) := by
  obtain h | h := h <;> simp only [exec, execGenEnd, h]

/-- Settles O37: one case per kind of phase. -/
theorem genEndWritesEndOfFile : Obligations.GenEndWritesEndOfFile := by
  intro s
  refine ⟨fun hrun => ?_, fun hclosed => ?_, exec_genEnd_of_fault⟩
  · rw [exec_genEnd_of_run hrun, emitEOF_eq]
  · have hfault : s.gphase ≠ .fault := by obtain h | h := hclosed <;> simp [h]
    rw [exec_genEnd_of_closed hclosed, raiseGen_of_ne s _ _ _ hfault]

end Sys2Proof.Proofs
end

section
/-! Proofs about the encoding of instructions (30_encoding.md): what the decoder reads is what the encoder writes. -/

namespace Sys2Proof.Proofs

open Sys2Proof.Machine Sys2Proof.Safety

/-! ### Records as instructions (R54, R55) -/

/-- The instruction of a record has the record's line as its encoding, at the place where the record stands. -/
theorem encode_of_recordInstr {via : RecordPort} {r : HexRecord} {i : Instr} (h : recordInstr via r = some i) :
    encode i = .record via r.line := by
  obtain ⟨t, a, bytes, c⟩ := r
  cases t <;> cases via <;> cases h <;> rfl

theorem recordInstr_codec_ssa (via : CodecPort) (a : BitVec 16) (bytes : List Byte) :
    recordInstr via.port (mkRecord .ssa a bytes) = some (.ssa via a bytes) := by cases via <;> rfl

theorem recordInstr_codec_sla (via : CodecPort) (a : BitVec 16) (bytes : List Byte) :
    recordInstr via.port (mkRecord .sla a bytes) = some (.sla via a bytes) := by cases via <;> rfl

theorem payload_of_recordFits {via : RecordPort} {bytes : List Byte} {emitted : Bool}
    (h : recordFits via bytes emitted = true) : bytes.length ≤ 255 := by
  cases via with
  | out => exact of_decide_eq_true (Bool.and_eq_true_iff.1 h).2
  | res => exact of_decide_eq_true h
  | lin => exact of_decide_eq_true h

/-- At every place a well-formed record instruction has a payload its length byte can count (R59). -/
theorem payload_of_wellFormed {via : RecordPort} {r : HexRecord} {i : Instr} (h : recordInstr via r = some i)
    (hwf : i.wellFormed = true) : r.data.length ≤ 255 := by
  obtain ⟨t, a, bytes, c⟩ := r
  cases t with
  | data => cases h; exact payload_of_recordFits hwf
  | eof => cases h; exact payload_of_recordFits hwf
  | esa => cases h; exact payload_of_recordFits hwf
  | ela => cases h; exact payload_of_recordFits hwf
  | ssa => cases via <;> cases h <;> exact of_decide_eq_true hwf
  | sla => cases via <;> cases h <;> exact of_decide_eq_true hwf

/-- A line is an instruction exactly when it decodes to a record whose instruction is well-formed. -/
theorem decodeRecord_eq_ok_iff {lc : Bool} {via : RecordPort} {line : Line} {i : Instr} :
    decodeRecord lc via line = .ok i ↔
      ∃ r, decodeLine lc line = .ok r ∧ recordInstr via r = some i ∧ i.wellFormed = true := by
  unfold decodeRecord
  constructor
  · intro h
    split at h
    case h_1 r hr =>
      split at h
      case h_1 j hj =>
        split at h <;> cases h
        exact ⟨r, hr, hj, ‹_›⟩
      case h_2 => cases h
    all_goals cases h
  · rintro ⟨r, hr, hi, hwf⟩
    simp [hr, hi, hwf]

/-- A record with its computed checksum, where it is a well-formed instruction, is read back from its line. -/
theorem decode_encode_of_recordInstr {via : RecordPort} {t : RecType} {a : BitVec 16} {bytes : List Byte} {i : Instr}
    (hi : recordInstr via (mkRecord t a bytes) = some i) (hwf : i.wellFormed = true) : decode (encode i) = .ok i := by
  rw [encode_of_recordInstr hi]
  have hlen := payload_of_wellFormed hi hwf
  exact decodeRecord_eq_ok_iff.2 ⟨_, decodeLine_line _ _ hlen rfl, hi, hwf⟩

/-- Settles O9: a command's lanes hold its operands, and a record instruction is the instruction of a record that its
line decodes to. -/
theorem decodeEncodeRoundTrip : Obligations.DecodeEncodeRoundTrip := by
  intro i hwf
  cases i with
  | genStart m => rfl
  | genEntry la src => rfl
  | genEnd => rfl
  | recEnc rtype raddr bytes => exact if_pos hwf
  | decOpen => rfl
  | decLine raw => exact if_pos hwf
  | reservedOp6 => rfl
  | reservedOp7 => rfl
  | data via a bytes => exact decode_encode_of_recordInstr (t := .data) rfl hwf
  | eof via a bytes => exact decode_encode_of_recordInstr (t := .eof) rfl hwf
  | esa via a bytes => exact decode_encode_of_recordInstr (t := .esa) rfl hwf
  | ela via a bytes => exact decode_encode_of_recordInstr (t := .ela) rfl hwf
  | ssa via a bytes => exact decode_encode_of_recordInstr (recordInstr_codec_ssa via a bytes) hwf
  | sla via a bytes => exact decode_encode_of_recordInstr (recordInstr_codec_sla via a bytes) hwf

/-- Settles O10: the line is the encoding of the record it decodes to, letter for letter where no digit is lowercase,
and the record's instruction has that encoding. -/
theorem encodeDecodeRoundTripForRecords : Obligations.EncodeDecodeRoundTripForRecords := by
  intro via line i hupper hdec
  obtain ⟨r, hr, hi, -⟩ := decodeRecord_eq_ok_iff.1 hdec
  have hline : line = r.line :=
    line_eq_of_decodeLine _ line r hr fun c hc => hexval_of_not_lower _ c (hupper c hc)
  rw [encode_of_recordInstr hi, hline]

/-- Settles O11: the checks of `Instr.wellFormed` are the decoder's own, for a command the length of its operand, for
a record the last check of `decodeRecord`. -/
theorem decodedInstructionsAreWellFormed : Obligations.DecodedInstructionsAreWellFormed := by
  intro e i hdec
  cases e with
  | command w =>
    obtain ⟨-, rfl⟩ | ⟨-, rfl⟩ | ⟨-, rfl⟩ | ⟨-, hlen, rfl⟩ | ⟨-, rfl⟩ | ⟨-, hlen, rfl⟩ | ⟨-, rfl⟩ | ⟨-, rfl⟩ :=
      decodeCommand_ok hdec
    case inr.inr.inr.inl => exact decide_eq_true hlen
    case inr.inr.inr.inr.inr.inl => exact decide_eq_true hlen
    all_goals rfl
  | record via line =>
    obtain ⟨r, -, -, hwf⟩ := decodeRecord_eq_ok_iff.1 hdec
    exact hwf

end Sys2Proof.Proofs
end

section
/-! Proofs about one step on the command port (20_memory.md R39, R41, 70_reset_and_hazards.md R160) and about the status
registers (10_state.md, table after R20). -/

namespace Sys2Proof.Proofs

open Sys2Proof.Machine Sys2Proof.Safety

/-! ### One step, input by input -/

theorem step_of_idle {s : State} (h : s.port = []) : step s = .next s := by simp [step, fetch, h]

theorem step_of_rst {s : State} {rest : List HostInput} (h : s.port = .rst :: rest) :
    step s = .next (applyReset { s with port := rest }) := by simp [step, fetch, h]

theorem step_of_readStatus {s : State} {index : Fin 11} {rest : List HostInput}
    (h : s.port = .readStatus index :: rest) : step s = .next { s with port := rest } := by
  simp [step, fetch, h, afterStatusRead]

theorem step_of_writeStatus {s : State} {index : Fin 11} {value : BitVec 33} {rest : List HostInput}
    (h : s.port = .writeStatus index value :: rest) : step s = .next { s with port := rest } := by
  simp [step, fetch, h, afterStatusWrite]

theorem step_of_command {s : State} {w : CommandWord} {rest : List HostInput} {i : Instr}
    (h : s.port = .command w :: rest) (hi : decodeCommand w = .ok i) : step s = exec i { s with port := rest } := by
  simp [step, fetch, h, hi]

theorem step_of_rejected {s : State} {w : CommandWord} {rest : List HostInput} {e : DecodeReject}
    (h : s.port = .command w :: rest) (he : decodeCommand w = .error e) : step s = .refused (refusalOf e) := by
  simp [step, fetch, h, he]

/-- Settles O2: RST is `applyReset`, and both GEN_START and DEC_OPEN overwrite what reset would have cleared. -/
theorem resetInputAppliesResetValues : Obligations.ResetInputAppliesResetValues := by
  refine ⟨fun s rest hp => ?_, fun s m => ?_, fun s => ?_, fun s => step_of_idle⟩
  · rw [step_of_rst hp, applyReset]
  · exact ⟨_, _, exec_genStart m _, exec_genStart m s, by simp [SameGenerator, SameLayout]⟩
  · exact ⟨_, exec_decOpen s, by simp [SameDecoder, State.reset]⟩

/-- Settles O3: it is the step's equation for a command that decodes. -/
theorem stepRunsTheDecodedCommand : Obligations.StepRunsTheDecodedCommand :=
  fun _ _ _ _ hport hdec => step_of_command hport hdec

/-- Settles O5: they are the step's equations for the two status accesses. -/
theorem statusAccessChangesNothing : Obligations.StatusAccessChangesNothing :=
  ⟨fun _ _ _ hport => step_of_readStatus hport, fun _ _ _ _ hport => step_of_writeStatus hport⟩

/-! ### Command words (30_encoding.md R58 to R60) -/

theorem decodeCommand_of_dataTooLong {w : CommandWord} (hop : w.op = 3) (h : 255 < w.bytes.length) :
    decodeCommand w = .error .dataTooLong := by
  simp [decodeCommand, hop, payloadFits, Nat.not_le.2 h]

theorem decodeCommand_of_lineTooLong {w : CommandWord} (hop : w.op = 5) (h : 65535 < w.raw.length) :
    decodeCommand w = .error .lineTooLong := by
  simp [decodeCommand, hop, lineFits, Nat.not_le.2 h]

/-- A word is rejected only for the operand of REC_ENC or of DEC_LINE. -/
theorem decodeCommand_ok_of_fits {w : CommandWord} (hdata : w.op = 3 → w.bytes.length ≤ 255)
    (hline : w.op = 5 → w.raw.length ≤ 65535) : ∃ i, decodeCommand w = .ok i := by
  unfold decodeCommand
  split
  case h_4 hop => exact ⟨_, if_pos (decide_eq_true (hdata (BitVec.eq_of_toNat_eq hop)))⟩
  case h_6 hop => exact ⟨_, if_pos (decide_eq_true (hline (BitVec.eq_of_toNat_eq hop)))⟩
  all_goals exact ⟨_, rfl⟩

/-- Settles O4: `decodeCommand` looks at `op` and at the lanes of its row; the two lengths are all it can reject. -/
theorem onlyUnpresentableCommandsAreRejected : Obligations.OnlyUnpresentableCommandsAreRejected := by
  refine ⟨fun s w rest hport => ⟨fun hop hlong => ?_, fun hop hlong => ?_⟩, fun w => ?_,
    fun w => decodeCommand_ok_of_fits⟩
  · rw [step_of_rejected hport (decodeCommand_of_dataTooLong hop hlong), refusalOf]
  · rw [step_of_rejected hport (decodeCommand_of_lineTooLong hop hlong), refusalOf]
  · refine ⟨?_, ?_, ?_, ?_, ?_, ?_, ?_, ?_⟩ <;> intro hop <;> simp [decodeCommand, hop, payloadFits, lineFits]

/-- Settles O8: the words and the lines are literals, and the decoder is evaluated on each. -/
theorem writtenOutWordsDecode : Obligations.WrittenOutWordsDecode :=
  ⟨-- the eight command words
    ⟨rfl, rfl, rfl, rfl, rfl, rfl, rfl, rfl⟩,
    -- the three record lines
    ⟨rfl, rfl, rfl⟩⟩

/-! ### The status registers -/

/-- Above its low part a register put together from two reads its high part. -/
theorem extractLsb'_append_above {m n : Nat} (x : BitVec m) (y : BitVec n) (start len : Nat) :
    (x ++ y).extractLsb' (n + start) len = x.extractLsb' start len := by
  rw [BitVec.extractLsb'_append_eq_of_le (Nat.le_add_right n start), Nat.add_sub_cancel_left]

theorem gstat_fields (s : State) :
    s.gstat.extractLsb' 0 2 = s.gphase.code ∧ s.gstat.extractLsb' 2 4 = s.gerr.code ∧ s.gstat.extractLsb' 6 2 = 0 :=
  ⟨BitVec.extractLsb'_append_eq_right,
    (extractLsb'_append_above _ _ 0 4).trans BitVec.extractLsb'_append_eq_right,
    (extractLsb'_append_above _ _ 4 2).trans BitVec.extractLsb'_append_eq_left⟩

theorem dstat_fields (s : State) :
    s.dstat.extractLsb' 0 2 = s.dphase.code ∧ s.dstat.extractLsb' 2 4 = s.derr.code ∧
      s.dstat.extractLsb' 6 3 = subCode s.dsub ∧ s.dstat.extractLsb' 9 7 = 0 :=
  ⟨BitVec.extractLsb'_append_eq_right,
    (extractLsb'_append_above _ _ 0 4).trans BitVec.extractLsb'_append_eq_right,
    (extractLsb'_append_above _ _ 4 3).trans
      ((extractLsb'_append_above _ _ 0 3).trans BitVec.extractLsb'_append_eq_right),
    (extractLsb'_append_above _ _ 7 7).trans
      ((extractLsb'_append_above _ _ 3 7).trans BitVec.extractLsb'_append_eq_left)⟩

/-- What the status registers read, as numbers. -/
theorem status_toNat (s : State) :
    (s.status 0).toNat = s.gstat.toNat ∧ (s.status 1).toNat = s.mode.toNat ∧ (s.status 2).toNat = s.cur.toNat ∧
      (s.status 3).toNat = s.segbase.toNat ∧ (s.status 4).toNat = s.gea.toNat ∧
      (s.status 5).toNat = s.geb.toNat ∧ (s.status 6).toNat = s.dstat.toNat ∧
      (s.status 7).toNat = s.lineno.toNat ∧ (s.status 8).toNat = s.dline.toNat ∧
      (s.status 9).toNat = s.dexp.toNat ∧ (s.status 10).toNat = s.dact.toNat := by
  have hw : ∀ {w : Nat} (x : BitVec w), w ≤ 33 → (x.setWidth 33).toNat = x.toNat :=
    fun _ h => BitVec.toNat_setWidth_of_le h
  exact ⟨hw _ (by decide), hw _ (by decide), hw _ (by decide), hw _ (by decide), hw _ (by decide), rfl,
    hw _ (by decide), hw _ (by decide), hw _ (by decide), hw _ (by decide), hw _ (by decide)⟩

/-- No status register reads a value wider than its width. -/
theorem status_lt (s : State) (index : Fin 11) : (s.status index).toNat < 2 ^ statusWidth index := by
  obtain ⟨h0, h1, h2, h3, h4, h5, h6, h7, h8, h9, h10⟩ := status_toNat s
  match index with
  | 0 => exact h0 ▸ s.gstat.isLt
  | 1 => exact h1 ▸ s.mode.isLt
  | 2 => exact h2 ▸ s.cur.isLt
  | 3 => exact h3 ▸ s.segbase.isLt
  | 4 => exact h4 ▸ s.gea.isLt
  | 5 => exact h5 ▸ s.geb.isLt
  | 6 => exact h6 ▸ s.dstat.isLt
  | 7 => exact h7 ▸ s.lineno.isLt
  | 8 => exact h8 ▸ s.dline.isLt
  | 9 => exact h9 ▸ s.dexp.isLt
  | 10 => exact h10 ▸ s.dact.isLt

/-- Settles O6: GSTAT and DSTAT are their fields put side by side, and a read extends its register with zeros. -/
theorem statusRegisterFields : Obligations.StatusRegisterFields := by
  refine ⟨fun s => ?_, status_toNat, status_lt⟩
  obtain ⟨hgphase, hgerr, hgrest⟩ := gstat_fields s
  exact ⟨hgphase, hgerr, hgrest, dstat_fields s⟩

/-- Settles O7: each table is its function evaluated at the constructors in their order. -/
theorem codesOfTheEnumeratedElements : Obligations.CodesOfTheEnumeratedElements :=
  ⟨-- gphase, dphase, the error kinds, dsub
    rfl, rfl, rfl, rfl,
    -- dres, eres
    fun _ _ => rfl, fun _ => rfl⟩

end Sys2Proof.Proofs
end

section
/-! Proofs about records as instructions, at the three places where a record meets the machine (30_encoding.md R54, R55,
40_record_encode.md R77 to R82, 41_record_decode.md R100). -/

namespace Sys2Proof.Proofs

open Sys2Proof.Machine Sys2Proof.Safety

/-! ### One meaning for the six types -/

/-- Whatever its type, a record's instruction does `recordAt` at its place. -/
theorem exec_of_recordInstr {via : RecordPort} {r : HexRecord} {i : Instr} (h : recordInstr via r = some i)
    (s : State) : exec i s = withPayload r.data (recordAt via r.recordType r.address r.data s) := by
  obtain ⟨t, a, bytes, c⟩ := r
  cases t <;> cases via <;> cases h <;> rfl

theorem withPayload_of_gt {bytes : List Byte} (h : 255 < bytes.length) (s : State) :
    withPayload bytes s = .refused .dataTooLong := if_neg (by simpa [payloadFits] using h)

theorem exec_decLine_of_gt {raw : Line} (h : 65535 < raw.length) (s : State) :
    exec (.decLine raw) s = .refused .lineTooLong := if_neg (by simpa [lineFits] using h)

/-- A record with too long a payload is refused at every place. -/
theorem exec_recordInstr_of_gt {via : RecordPort} {t : RecType} {a : BitVec 16} {bytes : List Byte} {i : Instr}
    (hi : recordInstr via (mkRecord t a bytes) = some i) (h : 255 < bytes.length) (s : State) :
    exec i s = .refused .dataTooLong := by rw [exec_of_recordInstr hi]; exact withPayload_of_gt h _

/-- Settles O49: each meaning's length check comes first. -/
theorem overlongOperandsAreRefused : Obligations.OverlongOperandsAreRefused := by
  intro s
  refine ⟨fun rtype raddr bytes hlong => withPayload_of_gt hlong _, fun via a bytes hlong => ?_,
    fun via a bytes hlong => ?_, fun raw hlong => exec_decLine_of_gt hlong s⟩
  · have hrefused {t : RecType} {i : Instr} (hi : recordInstr via (mkRecord t a bytes) = some i) :=
      exec_recordInstr_of_gt hi hlong s
    exact ⟨hrefused (t := .data) rfl, hrefused (t := .eof) rfl, hrefused (t := .esa) rfl, hrefused (t := .ela) rfl⟩
  · exact ⟨exec_recordInstr_of_gt (recordInstr_codec_ssa via a bytes) hlong s,
      exec_recordInstr_of_gt (recordInstr_codec_sla via a bytes) hlong s⟩

/-! ### At OUT (R77) -/

theorem exec_recordInstr_out {t : RecType} {a : BitVec 16} {bytes : List Byte} {i : Instr}
    (hi : recordInstr .out (mkRecord t a bytes) = some i) (h : bytes.length ≤ 255) (s : State) :
    exec i s = .next { s with out := s.out ++ (encodeLine t.code a bytes ++ [0x0A]) } := by
  rw [exec_of_recordInstr hi]
  exact withPayload_of_le h _

/-- Settles O46: each is a record at OUT with a payload of 0 to 2 bytes, or of a length that is given; the End-Of-File
line is the one of GEN_END. -/
theorem emittedRecordsAppendTheirLine : Obligations.EmittedRecordsAppendTheirLine := by
  refine ⟨fun s a16 chunk hlen => exec_recordInstr_out (t := .data) rfl hlen s, fun s => ?_,
    fun s sb _ => exec_recordInstr_out (t := .ela) rfl (by simp) s,
    fun s sb _ _ => exec_recordInstr_out (t := .esa) rfl (by simp) s⟩
  have heof := exec_recordInstr_out (t := .eof) (a := 0) (bytes := []) rfl (Nat.zero_le _) s
  rw [RecType.code, encodeLine_eof] at heof
  exact heof

/-! ### In the encoder (R75) -/

theorem recType_code_le (t : RecType) : t.code.toNat ≤ 5 := by cases t <;> decide

theorem exec_recordInstr_res {t : RecType} {a : BitVec 16} {bytes : List Byte} {i : Instr}
    (hi : recordInstr .res (mkRecord t a bytes) = some i) (h : bytes.length ≤ 255) (s : State) :
    exec i s = .next { s with eres := .ok (encodeLine t.code a bytes) } := by
  rw [exec_of_recordInstr hi, ← encodeResult_of_le (recType_code_le t) a bytes]
  exact withPayload_of_le h _

/-- Settles O47: the six types are one meaning in the encoder, and each code is below the reserved ones. -/
theorem recordsInTheEncoderAreAlike : Obligations.RecordsInTheEncoderAreAlike := by
  intro s a bytes hlen
  have hres {t : RecType} {i : Instr} (hi : recordInstr .res (mkRecord t a bytes) = some i) :=
    exec_recordInstr_res hi hlen s
  exact ⟨hres (t := .data) rfl, hres (t := .eof) rfl, hres (t := .esa) rfl, hres (t := .ssa) rfl,
    hres (t := .ela) rfl, hres (t := .sla) rfl⟩

/-! ### On LIN (R100) -/

theorem decodeLine_trim_encodeLine (lc : Bool) (t : RecType) (a : BitVec 16) {bytes : List Byte}
    (h : bytes.length ≤ 255) : decodeLine lc (trim (encodeLine t.code a bytes)) = .ok (mkRecord t a bytes) := by
  rw [trim_encodeLine t a bytes h]
  exact decodeLine_encodeLine lc t a bytes h

/-- In `D_READY` a record on LIN is counted as one line and stands in `dres`, however the counter counts. -/
theorem exec_recordInstr_lin {t : RecType} {a : BitVec 16} {bytes : List Byte} {i : Instr}
    (hi : recordInstr .lin (mkRecord t a bytes) = some i) (h : bytes.length ≤ 255) {s : State}
    (hready : s.dphase = .ready) : exec i s = .next { countLine s with dres := .ok (mkRecord t a bytes) } := by
  have hdec := decodeLine_trim_encodeLine Config.decLowercaseOk t a h
  rw [exec_of_recordInstr hi, ← consumeLine_of_ok hready (trim_ne_nil_of_ok hdec) hdec]
  exact withPayload_of_le h _

/-- Settles O48: the six types are one meaning on LIN, and the counter is below its last value. -/
theorem recordsOnLinAreReturnedWhole : Obligations.RecordsOnLinAreReturnedWhole := by
  intro s a bytes hlen hready hlast
  have hlin {t : RecType} {i : Instr} (hi : recordInstr .lin (mkRecord t a bytes) = some i) :
      exec i s = .next { s with lineno := s.lineno + 1, dres := .ok (mkRecord t a bytes) } := by
    rw [exec_recordInstr_lin hi hlen hready, countLine_of_ne s hlast]
  exact ⟨hlin (t := .data) rfl, hlin (t := .eof) rfl, hlin (t := .esa) rfl, hlin (t := .ssa) rfl,
    hlin (t := .ela) rfl, hlin (t := .sla) rfl⟩

/-- Settles O44: a line's cases do not depend on how it is counted, and past its last value the counter takes a free
value. -/
theorem lineCounterPastItsWidthIsFree : Obligations.LineCounterPastItsWidthIsFree := by
  intro s hready hlast
  refine ⟨fun raw hlen => ?_, fun t a bytes i hlen hi => ?_⟩
  · rw [exec_decLine hlen]
    refine ⟨fun hblank => ?_, fun hraw r hdec => ?_, fun hraw sub e a hdec => ?_, fun hraw c d hdec => ?_⟩
    · rw [consumeLine_of_blank _ hready hblank, countLine_of_last s hlast]
    · rw [consumeLine_of_ok hready hraw hdec, countLine_of_last s hlast]
    · rw [consumeLine_of_formatError hready hraw hdec, countLine_of_last s hlast]
      rfl
    · rw [consumeLine_of_checksumError hready hraw hdec, countLine_of_last s hlast]
      rfl
  · rw [exec_recordInstr_lin hi hlen hready, countLine_of_last s hlast]

/-! ### DEC_LINE and the record it brings (R91, R100) -/

/-- Lines that decode to the same record do the same, in every phase. -/
theorem consumeLine_eq_of_decodes {lc : Bool} {raw raw' : Line} {r : HexRecord}
    (h : decodeLine lc (trim raw) = .ok r) (h' : decodeLine lc (trim raw') = .ok r) (s : State) :
    consumeLine lc raw s = consumeLine lc raw' s := by
  by_cases hready : s.dphase = .ready
  · rw [consumeLine_of_ok hready (trim_ne_nil_of_ok h) h, consumeLine_of_ok hready (trim_ne_nil_of_ok h') h']
  · rw [consumeLine_of_ended lc raw hready, consumeLine_of_ended lc raw' hready]

/-- Settles O13: the line brought and the record's own line decode to the same record. -/
theorem decLineRunsTheRecordItBrings : Obligations.DecLineRunsTheRecordItBrings := by
  intro s raw r i hlen hdec hi
  obtain ⟨-, -, hfits, hsum, -, -⟩ := decodeLine_eq_ok _ _ r hdec
  have hown : decodeLine Config.decLowercaseOk (trim r.line) = .ok r := by
    rw [HexRecord.line, trim_encodeLine _ _ _ hfits]
    exact decodeLine_line _ r hfits hsum
  rw [exec_decLine hlen, exec_of_recordInstr hi, withPayload_of_le hfits, consumeLine_eq_of_decodes hdec hown]
  rfl

theorem exec_decLine_congr {raw raw' : Line} (htrim : trim raw' = trim raw) (h : raw.length ≤ 65535)
    (h' : raw'.length ≤ 65535) (s : State) : exec (.decLine raw') s = exec (.decLine raw) s := by
  rw [exec_decLine h, exec_decLine h', consumeLine_congr _ raw raw' s htrim]

/-- Settles O20: a terminator is trimmed away, and DEC_LINE looks at the trimmed line only. -/
theorem lineTerminatorsDoNotMatter : Obligations.LineTerminatorsDoNotMatter := by
  intro s raw hlen
  obtain ⟨hcrlf, hlf, -⟩ := trimStripsTheOuterRuns raw
  exact ⟨exec_decLine_congr hcrlf (by omega) (by simpa using hlen) s,
    exec_decLine_congr hlf (by omega) (by simp; omega) s⟩

/-! ### Words of the opcode table -/

theorem decodeTableWord_eq_some_iff {nbits w : Nat} {i : Instr} :
    decodeTableWord nbits w = some i ↔ ∃ e, tableEncoded nbits w = some e ∧ decode e = .ok i := by
  unfold decodeTableWord
  cases tableEncoded nbits w with
  | none => simp
  | some e => cases hd : decode e <;> simp [hd]

/-- A word of the table is a command or a record line on LIN (log entry 2). -/
theorem tableEncoded_cases {nbits w : Nat} {e : Encoded} (h : tableEncoded nbits w = some e) :
    (∃ c, e = .command c) ∨ ∃ line, e = .record .lin line := by
  unfold tableEncoded at h
  split_ifs at h <;> cases h
  · exact .inl ⟨_, rfl⟩
  · exact .inr ⟨_, rfl⟩

theorem withFetchWord_port {s : State} {nbits w : Nat} {e : Encoded} {c : CommandWord}
    (he : tableEncoded nbits w = some e) (hc : presentingCommand e = some c) :
    s.withFetchWord nbits w = { s with port := .command c :: s.port } := by
  simp [State.withFetchWord, he, hc]

/-- A record line on LIN is run by the DEC_LINE that brings it: it decodes, so it is short and has nothing to trim. -/
theorem exec_decLine_of_decodeRecord {line : Line} {i : Instr} (h : decode (.record .lin line) = .ok i) (s : State) :
    line.length ≤ 65535 ∧ exec (.decLine line) s = exec i s := by
  obtain ⟨r, hr, hi, -⟩ := decodeRecord_eq_ok_iff.1 h
  obtain ⟨-, hlen, hfits, -, -, -⟩ := decodeLine_eq_ok _ _ r hr
  have hshort : line.length ≤ 65535 := by omega
  refine ⟨hshort, decLineRunsTheRecordItBrings s line r i hshort ?_ hi⟩
  rw [trim_of_decodes _ line r hr]
  exact hr

/-- Settles O12: the word's command is presented first; a record line comes with DEC_LINE, which runs the record. -/
theorem tableWordRunsAsTheNextStep : Obligations.TableWordRunsAsTheNextStep := by
  intro s nbits w i hword
  obtain ⟨e, he, hdec⟩ := decodeTableWord_eq_some_iff.1 hword
  obtain ⟨c, rfl⟩ | ⟨line, rfl⟩ := tableEncoded_cases he
  · rw [withFetchWord_port he rfl]
    exact step_of_command rfl hdec
  · obtain ⟨hshort, hexec⟩ := exec_decLine_of_decodeRecord hdec s
    rw [withFetchWord_port he rfl, ← hexec]
    exact step_of_command rfl (if_pos (decide_eq_true hshort))

end Sys2Proof.Proofs
end

section
/-! Proofs about the bytes of a record and their spelling (30_encoding.md R50 to R52, 40_record_encode.md R71, R74,
R76). -/

namespace Sys2Proof.Proofs

/-! ### The bytes sum to zero (R71) -/

/-- The bytes of a record sum to its byte sum and its checksum byte. -/
theorem recordBytes_sum (t : Byte) (a : BitVec 16) {bytes : List Byte} (c : Byte) (hlen : bytes.length ≤ 255) :
    ((recordBytes { typeByte := t, address := a, data := bytes, checksum := c }).map BitVec.toNat).sum =
      byteSum t a bytes + c.toNat := by
  have hlength : (BitVec.ofNat 8 bytes.length).toNat = bytes.length := by
    rw [BitVec.toNat_ofNat]
    exact Nat.mod_eq_of_lt (by omega)
  simp only [recordBytes, List.map_append, List.map_cons, List.map_nil, List.sum_append, List.sum_cons, List.sum_nil,
    hlength, byteSum]
  omega

/-- Settles O15: the checksum is the one byte that completes the byte sum to a multiple of 256. -/
theorem recordBytesSumToZero : Obligations.RecordBytesSumToZero := by
  intro t a bytes hlen c
  have hc := c.isLt
  rw [recordBytes_sum t a c hlen, ← BitVec.toNat_inj, checksum_toNat]
  generalize byteSum t a bytes = s
  omega

/-! ### The spelling (R50, R52) -/

theorem digit_toNat (v : BitVec 4) :
    (digit v).toNat = 0x30 + v.toNat ∧ v.toNat < 10 ∨ (digit v).toNat = 0x37 + v.toNat ∧ 10 ≤ v.toNat := by
  revert v; decide

theorem highNibble_toNat (b : Byte) : (b.extractLsb' 4 4).toNat = b.toNat / 16 := by
  rw [BitVec.extractLsb'_toNat, Nat.shiftRight_eq_div_pow]
  exact Nat.mod_eq_of_lt (Nat.div_lt_of_lt_mul b.isLt)

theorem lowNibble_toNat (b : Byte) : (b.extractLsb' 0 4).toNat = b.toNat % 16 := by
  rw [BitVec.extractLsb'_toNat, Nat.shiftRight_zero]

/-- Settles O17: the line is `spell` of the record's bytes, two digits each. -/
theorem encodeLineSpellsTheRecordBytes : Obligations.EncodeLineSpellsTheRecordBytes := by
  intro t a bytes _ B
  refine ⟨encodeLine_length t a bytes, rfl, fun k hk h l hh hl => ?_⟩
  have hspell : encodeLine t a bytes = spell B := rfl
  have hb : B[k]? = some B[k] := List.getElem?_eq_getElem hk
  have hhigh : digit (B[k].extractLsb' 4 4) = h := by simpa [hspell, spell_high, hb] using hh
  have hlow : digit (B[k].extractLsb' 0 4) = l := by
    rw [show 2 + 2 * k = 1 + 2 * k + 1 by omega] at hl
    simpa [hspell, spell_low, hb] using hl
  refine ⟨B[k], hb, ?_, ?_⟩
  · rw [← hhigh, ← highNibble_toNat]
    exact digit_toNat _
  · rw [← hlow, ← lowNibble_toNat]
    exact digit_toNat _

end Sys2Proof.Proofs
end

section
/-! Proofs about the decoder's checks in their order (41_record_decode.md R92 to R98, 60_exceptions.md R149). -/

namespace Sys2Proof.Proofs

/-! ### The start marker and the header (R92, R93) -/

theorem decodeLine_nil (lc : Bool) : decodeLine lc [] = .formatError .missingStartMarker 0x3A 0xFFFF := rfl

theorem decodeLine_of_not_marker (lc : Bool) {c : Byte} (h : c ≠ 0x3A) (rest : Line) :
    decodeLine lc (c :: rest) = .formatError .missingStartMarker 0x3A c.toNat := if_pos h

/-- Settles O24: the marker is looked for before anything else. -/
theorem missingStartMarkerIsReportedFirst : Obligations.MissingStartMarkerIsReportedFirst :=
  ⟨decodeLine_nil, fun lc _ rest hc => decodeLine_of_not_marker lc hc rest⟩

/-- Past the marker, every character the line has before index `i` is a digit. -/
def DigitsBefore (lc : Bool) (t : Line) (i : Nat) : Prop :=
  ∀ j c, 1 ≤ j → j < i → t[j]? = some c → (hexval lc c).isSome

theorem DigitsBefore.exists_digit {lc : Bool} {t : Line} {i j : Nat} (h : DigitsBefore lc t i) (hi : i ≤ t.length)
    (hj : 1 ≤ j) (hji : j < i) : ∃ c, t[j]? = some c ∧ (hexval lc c).isSome := by
  have hin : t[j]? = some t[j] := List.getElem?_eq_getElem (by omega)
  exact ⟨_, hin, h j _ hj hji hin⟩

/-- Indices before the first bad digit hold none. -/
theorem DigitsBefore.firstBadDigit_eq_none {lc : Bool} {t : Line} {i start count : Nat} (h : DigitsBefore lc t i)
    (hi : i ≤ t.length) (hstart : 1 ≤ start) (hend : start + count ≤ i) : firstBadDigit lc t start count = none := by
  rw [firstBadDigit_eq_none_iff]
  exact fun j hj hj' => h.exists_digit hi (by omega) (by omega)

/-- Among indices around it, the first bad digit is found. -/
theorem DigitsBefore.firstBadDigit_eq_some {lc : Bool} {t : Line} {i start count : Nat} (h : DigitsBefore lc t i)
    (hi : i ≤ t.length) (hbad : ∀ c, t[i]? = some c → hexval lc c = none) (hstart : 1 ≤ start) (hle : start ≤ i)
    (hlt : i < start + count) : firstBadDigit lc t start count = some i := by
  rw [firstBadDigit_eq_some_iff]
  exact ⟨hle, hlt, hbad, fun j hj hji => h.exists_digit hi (by omega) hji⟩

theorem decodeLine_of_badHeader {lc : Bool} {t : Line} {i : Nat} (hmark : t.head? = some colon)
    (hbad : firstBadDigit lc t 1 8 = some i) : decodeLine lc t = .formatError .badHexDigit 0 i := by
  simp [decodeLine, hmark, hbad]

/-- Settles O25: the search over indices 1 to 8 stops at the first bad one. -/
theorem headerDigitErrorsAreReportedLeftmost : Obligations.HeaderDigitErrorsAreReportedLeftmost := by
  intro lc t i hmark hi1 hi8 hdigits hi hbad
  have hbefore : DigitsBefore lc t i := hdigits
  exact decodeLine_of_badHeader (List.head?_eq_getElem?.trans hmark)
    (hbefore.firstBadDigit_eq_some hi hbad (le_refl 1) hi1 (by omega))

/-! ### The body (R95, R96) -/

theorem decodeBody_of_badData {lc : Bool} {t : Line} {n i : Nat} (hlen : t.length = 11 + 2 * n)
    (hbad : firstBadDigit lc t 9 (2 * n) = some i) (a : BitVec 16) (tt : Byte) :
    decodeBody lc t n a tt = .formatError .badHexDigit 0 i := by
  simp [decodeBody, hlen, hbad]

theorem decodeBody_of_badChecksum {lc : Bool} {t : Line} {n i : Nat} (hlen : t.length = 11 + 2 * n)
    (hdata : firstBadDigit lc t 9 (2 * n) = none) (hbad : firstBadDigit lc t (9 + 2 * n) 2 = some i) (a : BitVec 16)
    (tt : Byte) : decodeBody lc t n a tt = .formatError .badHexDigit 0 i := by
  simp [decodeBody, hlen, hdata, hbad]

/-- In a line of the length its `LL` asks for, the first bad digit after the header is found in the data or in the
checksum, before any value is computed. -/
theorem decodeLine_of_badBody {lc : Bool} {t : Line} {n i : Nat} (hmark : t.head? = some colon)
    (hn : (byteAt lc t 1).toNat = n) (hlen : t.length = 11 + 2 * n) (hi9 : 9 ≤ i) (hi : i < t.length)
    (hbefore : DigitsBefore lc t i) (hbad : ∀ c, t[i]? = some c → hexval lc c = none) :
    decodeLine lc t = .formatError .badHexDigit 0 i := by
  have hhead : firstBadDigit lc t 1 8 = none := hbefore.firstBadDigit_eq_none hi.le (le_refl 1) (by omega)
  rw [decodeLine_of_header hmark hhead, hn]
  by_cases hdata : i < 9 + 2 * n
  · exact decodeBody_of_badData hlen (hbefore.firstBadDigit_eq_some hi.le hbad (by omega) hi9 hdata) _ _
  · exact decodeBody_of_badChecksum hlen (hbefore.firstBadDigit_eq_none hi.le (by omega) (by omega))
      (hbefore.firstBadDigit_eq_some hi.le hbad (by omega) (by omega) (by omega)) _ _

/-- Settles O27: `LL` is the byte at index 1. -/
theorem bodyDigitErrorsAreReportedLeftmost : Obligations.BodyDigitErrorsAreReportedLeftmost := by
  intro lc t c1 c2 n i hmark h1 h2 hn hlen hi9 hi hdigits hbad
  have hLL : (byteAt lc t 1).toNat = n.toNat := congrArg BitVec.toNat (byteAt_eq_of_byteval h1 h2 hn)
  exact decodeLine_of_badBody (List.head?_eq_getElem?.trans hmark) hLL hlen hi9 hi hdigits hbad

/-! ### The checksum, then the type (R96, R97) -/

theorem decodeChecked_of_ne {tt : Byte} {a : BitVec 16} {bytes : List Byte} {declared : Byte}
    (h : declared ≠ checksum tt a bytes) :
    decodeChecked tt a bytes declared = .checksumError (checksum tt a bytes) declared := by
  rw [decodeChecked_eq, if_neg h]

/-- Settles O28: the decoder reads the spelled bytes back, and the checksum is compared before the type is looked up. -/
theorem checksumThenTypeDecideTheResult : Obligations.ChecksumThenTypeDecideTheResult := by
  intro lc tt a bytes declared hlen t
  have hread : decodeLine lc t = decodeChecked tt a bytes declared := decodeLine_spell lc tt a bytes declared hlen
  refine ⟨fun hne => hread.trans (decodeChecked_of_ne hne), fun heq hreserved => ?_, fun heq hle => ?_⟩
  · have hnone : RecType.ofCode tt = none := by
      rw [← Option.not_isSome_iff_eq_none, RecType.ofCode_isSome]
      omega
    simp [hread, decodeChecked_eq, heq, hnone]
  · obtain ⟨ty, hty⟩ := Option.isSome_iff_exists.1 ((RecType.ofCode_isSome tt).2 hle)
    exact ⟨ty, RecType.code_of_ofCode tt ty hty, by simp [hread, decodeChecked_eq, heq, hty]⟩

/-! ### What a FormatError reports (D23) -/

/-- The values of a FormatError, cause by cause. -/
theorem decodeLine_eq_formatError {lc : Bool} {t : Line} {sub : SubCause} {e a : Nat}
    (h : decodeLine lc t = .formatError sub e a) :
    (sub = .missingStartMarker ∧ e = 0x3A ∧ a ≤ 0xFFFF) ∨
      (sub = .badHexDigit ∧ e = 0 ∧ (a ≤ 8 ∨ a < t.length)) ∨
      (sub = .wrongLineLength ∧ e ≤ 521 ∧ a = t.length ∧ e ≠ a) ∨
      (sub = .reservedType ∧ e = 5 ∧ a ≤ 0xFF) := by
  unfold decodeLine at h
  split at h
  · cases h; simp
  next c hmark =>
    split at h
    · cases h
      have := c.isLt
      exact .inl ⟨rfl, rfl, by omega⟩
    split at h
    next i hi =>
      cases h
      obtain ⟨-, hlt, -, -⟩ := (firstBadDigit_eq_some_iff ..).1 hi
      exact .inr (.inl ⟨rfl, rfl, .inl (by omega)⟩)
    have hn := (byteAt lc t 1).isLt
    unfold decodeBody at h
    split at h
    next hlen =>
      cases h
      exact .inr (.inr (.inl ⟨rfl, by omega, rfl, hlen.symm⟩))
    next hlen =>
      split at h
      next i hi =>
        cases h
        obtain ⟨-, hlt, -, -⟩ := (firstBadDigit_eq_some_iff ..).1 hi
        exact .inr (.inl ⟨rfl, rfl, .inr (by omega)⟩)
      split at h
      next i hi =>
        cases h
        obtain ⟨-, hlt, -, -⟩ := (firstBadDigit_eq_some_iff ..).1 hi
        exact .inr (.inl ⟨rfl, rfl, .inr (by omega)⟩)
      rw [decodeChecked_eq] at h
      split at h
      · split at h
        · cases h
          have := (byteAt lc t 7).isLt
          exact .inr (.inr (.inr ⟨rfl, rfl, by omega⟩))
        · cases h
      · cases h

/-- Settles O43: each cause has a sub-cause of its own and small values, or the line's indices and its length. -/
theorem formatErrorContextFitsSixteenBits : Obligations.FormatErrorContextFitsSixteenBits := by
  intro lc t sub e a hlen h
  obtain ⟨rfl, rfl, ha⟩ | ⟨rfl, rfl, ha⟩ | ⟨rfl, he, rfl, hne⟩ | ⟨rfl, rfl, ha⟩ := decodeLine_eq_formatError h
  · exact ⟨by omega, by omega, nofun, nofun⟩
  · exact ⟨by omega, by omega, nofun, nofun⟩
  · exact ⟨by omega, by omega, nofun, fun _ => ⟨rfl, he, hne⟩⟩
  · exact ⟨by omega, by omega, nofun, nofun⟩

end Sys2Proof.Proofs
end

section
/-! Proofs about which lines the decoder accepts, and about the texts it reads back (41_record_decode.md R98, R102,
R104). -/

namespace Sys2Proof.Proofs

open Sys2Proof.Machine Sys2Proof.Safety

/-! ### Accepted lines (R98, R104) -/

/-- With lowercase digits refused, the accepted lines are the encodings of the checked records. -/
theorem decodeLine_false_eq_ok_iff (t : Line) (r : HexRecord) : decodeLine false t = .ok r ↔
    r.data.length ≤ 255 ∧ r.checksum = checksum r.recordType.code r.address r.data ∧
      t = encodeLine r.recordType.code r.address r.data := by
  constructor
  · intro h
    obtain ⟨-, -, hlen, hsum, -, -⟩ := decodeLine_eq_ok false t r h
    exact ⟨hlen, hsum, line_eq_of_decodeLine false t r h fun _ _ => rfl⟩
  · rintro ⟨hlen, hsum, rfl⟩
    exact decodeLine_line false r hlen hsum

theorem upperDigit_eq_colon {c : Byte} (h : upperDigit c = colon) : c = colon := by
  revert c; decide

/-- With lowercase digits accepted, a line after its start marker is read as its uppercase spelling. -/
theorem decodeLine_upperDigit {t : Line} (h : t.head? = some colon) :
    decodeLine true t = decodeLine false (t.map upperDigit) := by
  have hupper : (t.map upperDigit).head? = some colon := by
    rw [List.head?_map, h]
    rfl
  unfold decodeLine decodeBody
  simp only [h, hupper, firstBadDigit_upperDigit, byteAt_upperDigit, List.length_map]

/-- The marker of the uppercase spelling is the line's own. -/
theorem head?_of_map_upperDigit {t : Line} (h : (t.map upperDigit).head? = some colon) : t.head? = some colon := by
  rw [List.head?_map] at h
  obtain ⟨c, hc, hcolon⟩ := Option.map_eq_some_iff.1 h
  rw [hc, upperDigit_eq_colon hcolon]

/-- Settles O22: for lowercase digits the line is read as its uppercase spelling, whose case is the first. -/
theorem decoderAcceptsExactlyTheEncodedLines : Obligations.DecoderAcceptsExactlyTheEncodedLines := by
  refine ⟨decodeLine_false_eq_ok_iff, fun t r => ?_, fun t => decodeLine_upperDigit⟩
  rw [← decodeLine_false_eq_ok_iff]
  constructor
  · intro h
    obtain ⟨hmark, -⟩ := decodeLine_eq_ok true t r h
    rw [← decodeLine_upperDigit hmark]
    exact h
  · intro h
    obtain ⟨hmark, -⟩ := decodeLine_eq_ok false _ r h
    rw [decodeLine_upperDigit (head?_of_map_upperDigit hmark)]
    exact h

/-! ### Texts read back (R102) -/

/-- The line of a checked record can be presented and decodes to it. -/
theorem decodesTo_line {r : HexRecord} (hlen : r.data.length ≤ 255)
    (hsum : r.checksum = checksum r.recordType.code r.address r.data) : DecodesTo r.line r := by
  have hlength : r.line.length = 11 + 2 * r.data.length := encodeLine_length _ _ _
  refine ⟨by omega, ?_⟩
  rw [HexRecord.line, trim_encodeLine _ _ _ hlen]
  exact decodeLine_line _ r hlen hsum

theorem forall₂_decodesTo_lines {rs : List HexRecord}
    (h : ∀ r ∈ rs, r.data.length ≤ 255 ∧ r.checksum = checksum r.recordType.code r.address r.data) :
    List.Forall₂ DecodesTo (rs.map HexRecord.line) rs := by
  rw [List.forall₂_map_left_iff, List.forall₂_same]
  exact fun r hr => decodesTo_line (h r hr).1 (h r hr).2

/-- The lines of fewer than 2^32 checked records decode to them, from every state. -/
theorem decodeFile_lines {rs : List HexRecord}
    (h : ∀ r ∈ rs, r.data.length ≤ 255 ∧ r.checksum = checksum r.recordType.code r.address r.data)
    (hcount : rs.length < 0x100000000) (u : State) :
    ∃ t, decodeFile (rs.map HexRecord.line) u = .next (t, rs) ∧ t.dphase = .ready := by
  obtain ⟨t, hready, -, hfile⟩ := decodeFile_append_of_decodes (forall₂_decodesTo_lines h) hcount [] u
  rw [List.append_nil] at hfile
  exact ⟨t, hfile, hready⟩

theorem emittedShape_eofRecord (m : Byte) : emittedShape m eofRecord = true := by
  simp [emittedShape, eofRecord, mkRecord]

/-- The text of a completed run: records of the emitted shapes, the End-Of-File record the last of them. -/
theorem out_of_done {s : State} (hI : TextInv s) (hdone : s.gphase = .done) :
    ∃ body : List HexRecord, s.out = textOf (body ++ [eofRecord]) ∧
      ∀ r ∈ body, emittedShape s.mode r = true ∧ r.recordType ≠ .eof := by
  obtain ⟨body, hbody, ⟨-, hopen⟩ | ⟨hout, -⟩, -⟩ := hI
  · exact absurd hdone hopen
  · exact ⟨body, hout, hbody⟩

theorem fits_of_emitted {m : Byte} {body : List HexRecord}
    (h : ∀ r ∈ body, emittedShape m r = true ∧ r.recordType ≠ .eof) :
    ∀ r ∈ body ++ [eofRecord], r.data.length ≤ 255 ∧ r.checksum = checksum r.recordType.code r.address r.data := by
  intro r hr
  obtain hr | hr := List.mem_append.1 hr
  · exact emittedShape_fits m r (h r hr).1
  · rw [List.mem_singleton.1 hr]
    exact emittedShape_fits m _ (emittedShape_eofRecord m)

/-- Settles O21: a line is decoded by `decodeLine_encodeLine`, and the lines of `out` are those of checked records. -/
theorem roundTripLaw : Obligations.RoundTripLaw := by
  refine ⟨fun lc t a bytes hlen => decodeLine_encodeLine lc t a bytes hlen, fun s u hI hdone hcount => ?_⟩
  obtain ⟨body, hout, hbody⟩ := out_of_done hI.text hdone
  rw [hout, splitLines_textOf, List.length_map] at hcount
  obtain ⟨t, hfile, hready⟩ := decodeFile_lines (fits_of_emitted hbody) hcount u
  rw [hout, splitLines_textOf]
  exact ⟨t, _, hfile, hready, rfl⟩

/-! ### The lines of a completed run (40_record_encode.md R83) -/

theorem recLen_getD_le (m : Byte) : (recLen m).getD 0 ≤ if m = 2 then 16 else 32 := by
  unfold recLen
  split_ifs <;> simp

/-- The kinds of records in the body of a run, with their payload lengths. -/
theorem emittedShape_kinds {m : Byte} {r : HexRecord} (h : emittedShape m r = true) (hne : r.recordType ≠ .eof) :
    (r.recordType = .data ∧ 1 ≤ r.data.length ∧ r.data.length ≤ if m = 2 then 16 else 32) ∨
      (r.recordType = .ela ∧ m = 4 ∨ r.recordType = .esa ∧ m = 2) ∧ r.data.length = 2 := by
  have hlen := recLen_getD_le m
  unfold emittedShape at h
  cases ht : r.recordType <;> simp only [ht, Bool.and_eq_true, decide_eq_true_eq] at h
  case data => exact .inl ⟨rfl, by omega, by omega⟩
  case eof => exact absurd ht hne
  case esa => exact .inr ⟨.inr ⟨rfl, h.2.1.1⟩, h.2.2⟩
  case ela => exact .inr ⟨.inl ⟨rfl, h.2.1.1⟩, h.2.2⟩
  all_goals simp at h

theorem lineRecord_line {r : HexRecord} (hlen : r.data.length ≤ 255)
    (hsum : r.checksum = checksum r.recordType.code r.address r.data) : lineRecord r.line = some r := by
  rw [lineRecord, decodeLine_line false r hlen hsum]

/-- Settles O59: a line of `n` data bytes has `11 + 2n` characters, and the body holds Data records of 1 to RECLEN
bytes and extension records of 2. -/
theorem linesOfACompletedRun : Obligations.LinesOfACompletedRun := by
  intro s hI hdone
  obtain ⟨body, hout, hbody⟩ := out_of_done hI.text hdone
  refine ⟨body.map HexRecord.line, ?_, fun l hl => ?_⟩
  · rw [hout, splitLines_textOf, List.map_append]
    rfl
  · obtain ⟨r, hr, rfl⟩ := List.mem_map.1 hl
    obtain ⟨hshape, hne⟩ := hbody r hr
    obtain ⟨hlen, hsum⟩ := emittedShape_fits _ r hshape
    have hlength : r.line.length = 11 + 2 * r.data.length := encodeLine_length _ _ _
    refine ⟨r, lineRecord_line hlen hsum, rfl, ?_⟩
    obtain ⟨ht, h1, hmax⟩ | ⟨ht, h2⟩ := emittedShape_kinds hshape hne
    · refine .inl ⟨ht, by omega, ?_⟩
      split_ifs at hmax ⊢ <;> omega
    · exact .inr ⟨ht, by omega⟩

end Sys2Proof.Proofs
end

section
/-! Proofs about corrupted lines (41_record_decode.md R103): one character of a valid line replaced, or its end lost. -/

namespace Sys2Proof.Proofs

/-! ### The record a line of digits holds -/

/-- The fields that stand in a line of digits with `n` data bytes. -/
def readWire (lc : Bool) (t : Line) (n : Nat) : WireRecord :=
  { typeByte := byteAt lc t 7, address := byteAt lc t 3 ++ byteAt lc t 5,
    data := (List.range n).map fun k => byteAt lc t (9 + 2 * k), checksum := byteAt lc t (9 + 2 * n) }

/-- The bytes a line of digits with `n` data bytes spells. -/
def lineBytes (lc : Bool) (t : Line) (n : Nat) : List Byte :=
  (List.range (5 + n)).map fun k => byteAt lc t (1 + 2 * k)

theorem readWire_data_length (lc : Bool) (t : Line) (n : Nat) : (readWire lc t n).data.length = n := by
  simp [readWire]

/-- Where `LL` counts the data bytes, the bytes of the record are the bytes of the line. -/
theorem recordBytes_readWire {lc : Bool} {t : Line} {n : Nat} (hn : (byteAt lc t 1).toNat = n) :
    recordBytes (readWire lc t n) = lineBytes lc t n := by
  have hrange : List.range (5 + n) = [0, 1, 2, 3] ++ (List.range n).map (4 + ·) ++ [4 + n] := by
    rw [show 5 + n = 4 + n + 1 by omega, List.range_succ, List.range_add]
    rfl
  have hLL : BitVec.ofNat 8 n = byteAt lc t 1 := by rw [← hn, BitVec.ofNat_toNat, BitVec.setWidth_eq]
  have hindex : ∀ k, 1 + 2 * (4 + k) = 9 + 2 * k := by omega
  rw [recordBytes, readWire_data_length, hLL, lineBytes, hrange]
  simp only [readWire, hi8_append, lo8_append, List.map_append, List.map_cons, List.map_nil, List.map_map,
    Function.comp_def, hindex]

/-- A marker and digits only, as many as `LL` asks for. -/
structure DigitLine (lc : Bool) (t : Line) (n : Nat) : Prop where
  marker : t[0]? = some colon
  digits : DigitsBefore lc t t.length
  count : (byteAt lc t 1).toNat = n
  length : t.length = 11 + 2 * n

/-- Such a line is judged by its checksum and its type. -/
theorem DigitLine.decodeLine_eq {lc : Bool} {t : Line} {n : Nat} (h : DigitLine lc t n) :
    decodeLine lc t = decodeChecked (readWire lc t n).typeByte (readWire lc t n).address (readWire lc t n).data
      (readWire lc t n).checksum := by
  refine decodeLine_of_digits lc t n (List.head?_eq_getElem?.trans h.marker) (fun j hj hjt => ?_) h.count h.length
  exact h.digits.exists_digit (le_refl _) hj hjt

theorem DigitLine.payload_le {lc : Bool} {t : Line} {n : Nat} (h : DigitLine lc t n) :
    (readWire lc t n).data.length ≤ 255 := by
  rw [readWire_data_length, ← h.count]
  exact Nat.le_of_lt_succ (byteAt lc t 1).isLt

/-- Where its bytes do not sum to zero its checksum is not the computed one. -/
theorem DigitLine.decodeLine_of_sum_ne {lc : Bool} {t : Line} {n : Nat} (h : DigitLine lc t n)
    (hsum : ((lineBytes lc t n).map BitVec.toNat).sum % 0x100 ≠ 0) :
    decodeLine lc t = .checksumError
        (checksum (readWire lc t n).typeByte (readWire lc t n).address (readWire lc t n).data)
        (readWire lc t n).checksum ∧
      checksum (readWire lc t n).typeByte (readWire lc t n).address (readWire lc t n).data ≠
        (readWire lc t n).checksum := by
  have hne : (readWire lc t n).checksum ≠
      checksum (readWire lc t n).typeByte (readWire lc t n).address (readWire lc t n).data := by
    rw [← recordBytes_readWire h.count] at hsum
    exact fun heq => hsum ((recordBytesSumToZero _ _ _ h.payload_le _).2 heq)
  exact ⟨h.decodeLine_eq.trans (decodeChecked_of_ne hne), hne.symm⟩

/-! ### A valid line -/

theorem hexval_of_mem_encodeLine {lc : Bool} {t : Byte} {a : BitVec 16} {bytes : List Byte} {j : Nat} {c : Byte}
    (hj : 1 ≤ j) (h : (encodeLine t a bytes)[j]? = some c) : (hexval lc c).isSome := by
  obtain ⟨v, rfl⟩ := spell_isDigit _ j c hj h
  rw [hexval_digit]
  rfl

theorem digitLine_encodeLine (lc : Bool) (t : Byte) (a : BitVec 16) {bytes : List Byte} (h : bytes.length ≤ 255) :
    DigitLine lc (encodeLine t a bytes) bytes.length where
  marker := rfl
  digits := fun _ _ hj _ hc => hexval_of_mem_encodeLine hj hc
  count := by
    have hLL : byteAt lc (encodeLine t a bytes) 1 = BitVec.ofNat 8 bytes.length := byteAt_spell lc _ 0 _ rfl
    rw [hLL, BitVec.toNat_ofNat]
    exact Nat.mod_eq_of_lt (by omega)
  length := encodeLine_length t a bytes

/-- A valid line holds the record it encodes. -/
theorem readWire_encodeLine (lc : Bool) (t : Byte) (a : BitVec 16) (bytes : List Byte) :
    readWire lc (encodeLine t a bytes) bytes.length =
      { typeByte := t, address := a, data := bytes, checksum := checksum t a bytes } := by
  have hat : ∀ (k : Nat) (b : Byte),
      (recordBytes { typeByte := t, address := a, data := bytes, checksum := checksum t a bytes })[k]? = some b →
        byteAt lc (encodeLine t a bytes) (1 + 2 * k) = b := fun k b => byteAt_spell lc _ k b
  have hdata : ((List.range bytes.length).map fun k => byteAt lc (encodeLine t a bytes) (9 + 2 * k)) = bytes :=
    map_byteAt_spell lc [BitVec.ofNat 8 bytes.length, hi8 a, lo8 a, t] bytes [checksum t a bytes]
  have hsum : byteAt lc (encodeLine t a bytes) (9 + 2 * bytes.length) = checksum t a bytes := by
    rw [show 9 + 2 * bytes.length = 1 + 2 * (4 + bytes.length) by omega]
    refine hat _ _ ?_
    simp [recordBytes, Nat.add_comm 4]
  rw [readWire, hdata, hsum, hat 1 (hi8 a) rfl, hat 2 (lo8 a) rfl, hat 3 t rfl, hi8_append_lo8]

theorem lineBytes_encodeLine_sum (lc : Bool) (t : Byte) (a : BitVec 16) {bytes : List Byte} (h : bytes.length ≤ 255) :
    ((lineBytes lc (encodeLine t a bytes) bytes.length).map BitVec.toNat).sum % 0x100 = 0 := by
  rw [← recordBytes_readWire (digitLine_encodeLine lc t a h).count, readWire_encodeLine]
  exact (recordBytesSumToZero t a bytes h _).2 rfl

/-! ### One character replaced -/

theorem byteAt_congr {lc : Bool} {t u : Line} {i : Nat} (h0 : u[i]? = t[i]?) (h1 : u[i + 1]? = t[i + 1]?) :
    byteAt lc u i = byteAt lc t i := by
  unfold byteAt
  rw [h0, h1]

/-- A byte is what it was unless one of its two characters was replaced. -/
theorem byteAt_set_of_ne {lc : Bool} {t : Line} {i j : Nat} {c : Byte} (h0 : j ≠ i) (h1 : j ≠ i + 1) :
    byteAt lc (t.set j c) i = byteAt lc t i :=
  byteAt_congr (List.getElem?_set_ne h0) (List.getElem?_set_ne h1)

/-- Two digits and their byte. -/
theorem byteAt_of_digits {lc : Bool} {t : Line} {i : Nat} {c1 c2 : Byte} {h l : BitVec 4} (h1 : t[i]? = some c1)
    (h2 : t[i + 1]? = some c2) (hh : hexval lc c1 = some h) (hl : hexval lc c2 = some l) : byteAt lc t i = h ++ l :=
  byteAt_eq_of_byteval h1 h2 (by simp [byteval, hh, hl])

theorem nibble_append_inj {h h' l l' : BitVec 4} (heq : h ++ l = h' ++ l') : h = h' ∧ l = l' := by
  have hsum := congrArg BitVec.toNat heq
  rw [nibble_append_toNat, nibble_append_toNat] at hsum
  have hl := l.isLt
  have hl' := l'.isLt
  exact ⟨BitVec.eq_of_toNat_eq (by omega), BitVec.eq_of_toNat_eq (by omega)⟩

/-- The byte of a pair of digits changes with the value of either. -/
theorem byteAt_set_ne {lc : Bool} {t : Line} {i j : Nat} {c c' : Byte} (hij : j = i ∨ j = i + 1)
    (hlong : i + 1 < t.length) (hi : DigitsBefore lc t t.length) (hpos : 1 ≤ i) (hc : t[j]? = some c)
    (hc' : (hexval lc c').isSome) (hne : hexval lc c' ≠ hexval lc c) :
    byteAt lc (t.set j c') i ≠ byteAt lc t i := by
  obtain ⟨c1, h1, hd1⟩ := hi.exists_digit (le_refl _) hpos (by omega : i < t.length)
  obtain ⟨c2, h2, hd2⟩ := hi.exists_digit (le_refl _) (by omega : 1 ≤ i + 1) hlong
  obtain ⟨v1, hv1⟩ := Option.isSome_iff_exists.1 hd1
  obtain ⟨v2, hv2⟩ := Option.isSome_iff_exists.1 hd2
  obtain ⟨v', hv'⟩ := Option.isSome_iff_exists.1 hc'
  rw [byteAt_of_digits h1 h2 hv1 hv2]
  obtain rfl | rfl := hij
  · have hset : (t.set j c')[j]? = some c' := List.getElem?_set_self (by omega)
    rw [byteAt_of_digits hset ((List.getElem?_set_ne (by omega)).trans h2) hv' hv2]
    intro heq
    obtain rfl : c1 = c := Option.some.inj (h1.symm.trans hc)
    exact hne (by rw [hv', hv1, (nibble_append_inj heq).1])
  · have hset : (t.set (i + 1) c')[i + 1]? = some c' := List.getElem?_set_self hlong
    rw [byteAt_of_digits ((List.getElem?_set_ne (by omega)).trans h1) hset hv1 hv']
    intro heq
    obtain rfl : c2 = c := Option.some.inj (h2.symm.trans hc)
    exact hne (by rw [hv', hv2, (nibble_append_inj heq).2])

/-- Before the replaced character, and where a digit replaces it, the line holds digits as before. -/
theorem DigitsBefore.set {lc : Bool} {t : Line} {i : Nat} (h : DigitsBefore lc t i) (j : Nat) {c' : Byte}
    (hc' : j < i → (hexval lc c').isSome) : DigitsBefore lc (t.set j c') i := by
  intro k c hk hki hkc
  by_cases hjk : j = k
  · subst hjk
    rw [List.getElem?_set, if_pos rfl] at hkc
    split at hkc <;> cases hkc
    exact hc' hki
  · rw [List.getElem?_set_ne hjk] at hkc
    exact h k c hk hki hkc

theorem DigitsBefore.mono {lc : Bool} {t : Line} {i k : Nat} (h : DigitsBefore lc t i) (hk : k ≤ i) :
    DigitsBefore lc t k := fun j c hj hjk hc => h j c hj (by omega) hc

/-- Replacing one summand by another moves the sum by their difference. -/
theorem sum_set_add (l : List Byte) (k : Nat) (hk : k < l.length) (b : Byte) :
    ((l.set k b).map BitVec.toNat).sum + l[k].toNat = (l.map BitVec.toNat).sum + b.toNat := by
  induction l generalizing k with
  | nil => exact absurd hk (Nat.not_lt_zero k)
  | cons x l ih =>
    cases k with
    | zero => simp only [List.set_cons_zero, List.map_cons, List.sum_cons, List.getElem_cons_zero]; omega
    | succ k =>
      have hrest := ih k (by simpa using hk)
      simp only [List.set_cons_succ, List.map_cons, List.sum_cons, List.getElem_cons_succ]
      omega

/-- Replacing a character of one byte replaces that byte in the line's bytes. -/
theorem lineBytes_set {lc : Bool} {t : Line} {n j k : Nat} (c' : Byte) (hjk : j = 1 + 2 * k ∨ j = 1 + 2 * k + 1) :
    lineBytes lc (t.set j c') n = (lineBytes lc t n).set k (byteAt lc (t.set j c') (1 + 2 * k)) := by
  refine List.ext_getElem (by simp [lineBytes]) fun i _ _ => ?_
  by_cases hik : k = i
  · simp [lineBytes, hik]
  · simpa [lineBytes, List.getElem_set, hik] using byteAt_set_of_ne (by omega) (by omega)

/-- Past `LL` a digit in the place of another leaves a line of digits. -/
theorem DigitLine.set {lc : Bool} {t : Line} {n j : Nat} {c' : Byte} (h : DigitLine lc t n) (hj : 3 ≤ j)
    (hc' : (hexval lc c').isSome) : DigitLine lc (t.set j c') n where
  marker := (List.getElem?_set_ne (by omega)).trans h.marker
  digits := by
    rw [List.length_set]
    exact h.digits.set j fun _ => hc'
  count := by rw [byteAt_set_of_ne (by omega) (by omega), h.count]
  length := by rw [List.length_set, h.length]

/-- A byte of another value takes the sum off zero: no two bytes differ by a multiple of 256. -/
theorem DigitLine.sum_set_ne {lc : Bool} {t : Line} {n j : Nat} {c c' : Byte} (h : DigitLine lc t n)
    (hsum : ((lineBytes lc t n).map BitVec.toNat).sum % 0x100 = 0) (hj : 1 ≤ j) (hc : t[j]? = some c)
    (hc' : (hexval lc c').isSome) (hne : hexval lc c' ≠ hexval lc c) :
    ((lineBytes lc (t.set j c') n).map BitVec.toNat).sum % 0x100 ≠ 0 := by
  obtain ⟨hjt, -⟩ := List.getElem?_eq_some_iff.1 hc
  have hlong := h.length
  obtain ⟨k, hjk⟩ : ∃ k, j = 1 + 2 * k ∨ j = 1 + 2 * k + 1 := ⟨(j - 1) / 2, by omega⟩
  have hk : k < (lineBytes lc t n).length := by simp only [lineBytes, List.length_map, List.length_range]; omega
  have hbyte : byteAt lc (t.set j c') (1 + 2 * k) ≠ byteAt lc t (1 + 2 * k) :=
    byteAt_set_ne hjk (by omega) h.digits (by omega) hc hc' hne
  have hmoved := sum_set_add (lineBytes lc t n) k hk (byteAt lc (t.set j c') (1 + 2 * k))
  have hold : (lineBytes lc t n)[k] = byteAt lc t (1 + 2 * k) := by simp [lineBytes]
  rw [← lineBytes_set c' hjk, hold] at hmoved
  have hlt := (byteAt lc (t.set j c') (1 + 2 * k)).isLt
  have hlt' := (byteAt lc t (1 + 2 * k)).isLt
  rw [← BitVec.toNat_ne_iff_ne] at hbyte
  omega

/-- A digit of the checksum replaced leaves the other fields. -/
theorem readWire_set_of_checksum {lc : Bool} {t : Line} {n j : Nat} (c' : Byte) (hj : 9 + 2 * n ≤ j) :
    readWire lc (t.set j c') n =
      { readWire lc t n with checksum := byteAt lc (t.set j c') (9 + 2 * n) } := by
  have hkept : ∀ i, i + 1 < 9 + 2 * n → byteAt lc (t.set j c') i = byteAt lc t i :=
    fun i hi => byteAt_set_of_ne (by omega) (by omega)
  have hdata : ((List.range n).map fun k => byteAt lc (t.set j c') (9 + 2 * k)) =
      (List.range n).map fun k => byteAt lc t (9 + 2 * k) :=
    List.map_congr_left fun k hk => hkept _ (by have := List.mem_range.1 hk; omega)
  simp only [readWire, hdata, hkept 3 (by omega), hkept 5 (by omega), hkept 7 (by omega)]

/-! ### The length -/

/-- A good header whose `LL` does not fit the line's length. -/
theorem decodeLine_of_length_ne {lc : Bool} {t : Line} (hmark : t[0]? = some colon) (hlong : 9 ≤ t.length)
    (hdigits : DigitsBefore lc t 9) (hne : t.length ≠ 11 + 2 * (byteAt lc t 1).toNat) :
    decodeLine lc t = .formatError .wrongLineLength (11 + 2 * (byteAt lc t 1).toNat) t.length := by
  rw [decodeLine_of_header (List.head?_eq_getElem?.trans hmark)
    (hdigits.firstBadDigit_eq_none hlong (le_refl 1) (by omega)), decodeBody_of_length_ne hne]

/-- Another value of `LL` asks for another length. -/
theorem DigitLine.decodeLine_set_LL {lc : Bool} {t : Line} {n j : Nat} {c c' : Byte} (h : DigitLine lc t n)
    (hj : j = 1 ∨ j = 2) (hc : t[j]? = some c) (hc' : (hexval lc c').isSome) (hne : hexval lc c' ≠ hexval lc c) :
    ∃ e, decodeLine lc (t.set j c') = .formatError .wrongLineLength e (11 + 2 * n) ∧ e ≠ 11 + 2 * n := by
  have hlen := h.length
  have hlen' : (t.set j c').length = 11 + 2 * n := by rw [List.length_set, h.length]
  have hLL : byteAt lc (t.set j c') 1 ≠ byteAt lc t 1 :=
    byteAt_set_ne hj (by omega) h.digits (le_refl 1) hc hc' hne
  rw [← BitVec.toNat_ne_iff_ne, h.count] at hLL
  have hmark : (t.set j c')[0]? = some colon := (List.getElem?_set_ne (by omega)).trans h.marker
  refine ⟨11 + 2 * (byteAt lc (t.set j c') 1).toNat, ?_, by omega⟩
  rw [← hlen']
  exact decodeLine_of_length_ne hmark (by omega) ((h.digits.mono (by omega)).set j fun _ => hc') (by omega)

/-- The header alone, with another rest, is a line of another length. -/
theorem DigitLine.decodeLine_take_append {lc : Bool} {t : Line} {n : Nat} (h : DigitLine lc t n) {rest : Line}
    (hrest : rest.length < 2 * n + 2) :
    decodeLine lc (t.take 9 ++ rest) = .formatError .wrongLineLength (11 + 2 * n) (9 + rest.length) := by
  have hlen := h.length
  have hlen' : (t.take 9 ++ rest).length = 9 + rest.length := by
    rw [List.length_append, List.length_take]
    omega
  have hhead : ∀ i, i < 9 → (t.take 9 ++ rest)[i]? = t[i]? := by
    intro i hi
    rw [List.getElem?_append_left (by rw [List.length_take]; omega), List.getElem?_take_of_lt hi]
  have hLL : (byteAt lc (t.take 9 ++ rest) 1).toNat = n := by
    rw [byteAt_congr (hhead 1 (by omega)) (hhead 2 (by omega)), h.count]
  have hdigits : DigitsBefore lc (t.take 9 ++ rest) 9 :=
    fun i c hi hi9 hc => h.digits i c hi (by omega) ((hhead i hi9).symm.trans hc)
  have hmark : (t.take 9 ++ rest)[0]? = some colon := (hhead 0 (by omega)).trans h.marker
  rw [decodeLine_of_length_ne hmark (by omega) hdigits (by omega), hLL, hlen']

/-! ### A character that is no digit -/

theorem DigitLine.decodeLine_set_bad {lc : Bool} {t : Line} {n j : Nat} {c' : Byte} (h : DigitLine lc t n)
    (hj : 1 ≤ j) (hjt : j < t.length) (hbad : hexval lc c' = none) :
    decodeLine lc (t.set j c') = .formatError .badHexDigit 0 j := by
  have hlen := h.length
  have hmark : (t.set j c')[0]? = some colon := (List.getElem?_set_ne (by omega)).trans h.marker
  have hbefore : DigitsBefore lc (t.set j c') j := (h.digits.mono hjt.le).set j fun hlt => absurd hlt (lt_irrefl j)
  have hnone : ∀ c, (t.set j c')[j]? = some c → hexval lc c = none := by
    intro c hc
    rw [List.getElem?_set_self hjt] at hc
    cases hc
    exact hbad
  by_cases h8 : j ≤ 8
  · exact headerDigitErrorsAreReportedLeftmost lc _ j hmark hj h8 hbefore (by rw [List.length_set]; omega) hnone
  · have hLL : (byteAt lc (t.set j c') 1).toNat = n := by rw [byteAt_set_of_ne (by omega) (by omega), h.count]
    exact decodeLine_of_badBody (List.head?_eq_getElem?.trans hmark) hLL (by rw [List.length_set, hlen]) (by omega)
      (by rw [List.length_set]; omega) hbefore hnone

/-- Settles O23: a valid line is a line of digits whose bytes sum to zero, and a corruption spoils a digit, the
length, or the sum. -/
theorem corruptedLinesAreRejected : Obligations.CorruptedLinesAreRejected := by
  intro lc t a bytes hlen text
  have hline : DigitLine lc text bytes.length := digitLine_encodeLine lc t.code a hlen
  have hsum := lineBytes_encodeLine_sum lc t.code a hlen
  refine ⟨fun j c c' hj hc hc' hne => ?_, fun j c c' hj hj2 hc hc' hne => ?_, fun rest hrest => ?_,
    fun j c' hj hjt hbad => ?_⟩
  · obtain ⟨hdec, hdiff⟩ := (hline.set hj hc').decodeLine_of_sum_ne (hline.sum_set_ne hsum (by omega) hc hc' hne)
    refine ⟨_, _, hdec, hdiff, fun hlast => ?_⟩
    rw [readWire_set_of_checksum c' (by omega), readWire_encodeLine]
  · exact hline.decodeLine_set_LL (by omega) hc hc' hne
  · exact hline.decodeLine_take_append hrest
  · exact hline.decodeLine_set_bad hj hjt hbad

end Sys2Proof.Proofs
end

section
/-! Proofs about what the units do to each other (10_state.md R17, decision D17): nothing. -/

namespace Sys2Proof.Proofs

open Sys2Proof.Machine Sys2Proof.Safety

/-! ### The generator's commands leave the codec alone -/

/-- The commands of unit SEQ: its three and the reserved codes, whose error it takes. -/
def GeneratorCommand (i : Instr) : Prop :=
  (∃ m, i = .genStart m) ∨ (∃ la src, i = .genEntry la src) ∨ i = .genEnd ∨ i = .reservedOp6 ∨ i = .reservedOp7

/-- Everything but unit SEQ. -/
def SameCodec (s t : State) : Prop := SameDecoder s t ∧ t.eres = s.eres ∧ SameHost s t

theorem sameCodec_refl (s : State) : SameCodec s s := by simp [SameCodec, SameDecoder, SameHost]

theorem raiseGen_sameCodec (e : ErrorKind) (a : BitVec 32) (b : BitVec 33) (s : State) :
    SameCodec s (raiseGen e a b s) := by simp [SameCodec, SameDecoder, SameHost]

theorem enterSource_sameCodec {la : BitVec 32} {src : List Byte} {s t : State}
    (h : enterSource la src s = .next t) : SameCodec s t := by
  unfold enterSource at h
  split at h
  · cases h; exact raiseGen_sameCodec ..
  · obtain ⟨hdecoder, hhost, heres⟩ := placeBytes_frame _ _ _ _ _ h
    exact ⟨hdecoder, heres, hhost⟩

theorem execGenEntry_sameCodec {la : BitVec 32} {src : List Byte} {s t : State}
    (h : execGenEntry la src s = .next t) : SameCodec s t := by
  unfold execGenEntry at h
  split at h
  case h_1 => cases h; exact sameCodec_refl s
  case h_2 => exact enterSource_sameCodec h
  all_goals cases h; exact raiseGen_sameCodec ..

theorem execGenEnd_sameCodec {s t : State} (h : execGenEnd s = .next t) : SameCodec s t := by
  unfold execGenEnd at h
  split at h <;> cases h
  case h_1 => exact sameCodec_refl s
  case h_2 => simp [SameCodec, SameDecoder, SameHost, emitEOF]
  all_goals exact raiseGen_sameCodec ..

theorem GeneratorCommand.sameCodec {i : Instr} (hi : GeneratorCommand i) {s t : State} (h : exec i s = .next t) :
    SameCodec s t := by
  obtain ⟨m, rfl⟩ | ⟨la, src, rfl⟩ | rfl | rfl | rfl := hi
  · cases h; simp [SameCodec, SameDecoder, SameHost]
  · exact execGenEntry_sameCodec h
  · exact execGenEnd_sameCodec h
  · cases h; exact raiseGen_sameCodec ..
  · cases h; exact raiseGen_sameCodec ..

theorem openRun_congr (m : Byte) (s s' : State) : SameGenerator (openRun m s) (openRun m s') := by
  simp [SameGenerator, SameLayout]

theorem enterSource_congr (la : BitVec 32) (src : List Byte) {s s' : State} (h : SameGenerator s s') :
    SameOutcome SameGenerator (enterSource la src s) (enterSource la src s') := by
  obtain ⟨⟨hgphase, hmode, hcur, hbase, hgerr, hgea, hgeb⟩, hout⟩ := id h
  have haddr : s'.runAddr = s.runAddr := by simp only [State.runAddr, hcur, hbase]
  unfold enterSource
  rw [haddr, hbase]
  split
  · exact SameOutcome_next (raiseGen_congr _ _ _ h)
  · exact placeBytes_congr _ _ _ ⟨⟨hgphase, hmode, rfl, rfl, hgerr, hgea, hgeb⟩, hout⟩

theorem execGenEntry_congr (la : BitVec 32) (src : List Byte) {s s' : State} (h : SameGenerator s s') :
    SameOutcome SameGenerator (execGenEntry la src s) (execGenEntry la src s') := by
  have hgphase : s'.gphase = s.gphase := h.1.1
  unfold execGenEntry
  rw [hgphase]
  cases s.gphase with
  | idle => exact SameOutcome_next (raiseGen_congr _ _ _ h)
  | run => exact enterSource_congr la src h
  | done => exact SameOutcome_next (raiseGen_congr _ _ _ h)
  | fault => exact SameOutcome_next h

theorem execGenEnd_congr {s s' : State} (h : SameGenerator s s') :
    SameOutcome SameGenerator (execGenEnd s) (execGenEnd s') := by
  obtain ⟨⟨hgphase, hmode, hcur, hbase, hgerr, hgea, hgeb⟩, hout⟩ := id h
  unfold execGenEnd
  rw [hgphase]
  cases s.gphase with
  | idle => exact SameOutcome_next (raiseGen_congr _ _ _ h)
  | run =>
    refine SameOutcome_next ⟨⟨rfl, hmode, hcur, hbase, hgerr, hgea, hgeb⟩, ?_⟩
    simp only [emitEOF, writeLine_out, hout]
  | done => exact SameOutcome_next (raiseGen_congr _ _ _ h)
  | fault => exact SameOutcome_next h

/-- Settles O51: the generator's operations write unit SEQ only, and each reads what it writes or less. -/
theorem generatorCommandsLeaveTheCodecAlone : Obligations.GeneratorCommandsLeaveTheCodecAlone := by
  intro i hi
  refine ⟨fun s t h => GeneratorCommand.sameCodec hi h, fun s s' h => ?_⟩
  obtain ⟨m, rfl⟩ | ⟨la, src, rfl⟩ | rfl | rfl | rfl := hi
  · exact SameOutcome_next (openRun_congr m s s')
  · exact execGenEntry_congr la src h
  · exact execGenEnd_congr h
  · exact SameOutcome_next (raiseGen_congr _ _ _ h)
  · exact SameOutcome_next (raiseGen_congr _ _ _ h)

/-! ### The codec's commands leave the generator alone -/

theorem withPayload_congr {same : State → State → Prop} (bytes : List Byte) {s s' : State} (h : same s s') :
    SameOutcome same (withPayload bytes s) (withPayload bytes s') := by
  unfold withPayload
  split
  · exact SameOutcome_next h
  · rfl

theorem execDecLine_congr (raw : Line) {s s' : State} (h : SameDecoder s s') (hfree : s'.freeCount = s.freeCount) :
    SameOutcome (fun t t' => SameDecoder t t' ∧ t'.freeCount = t.freeCount) (execDecLine raw s)
      (execDecLine raw s') := by
  unfold execDecLine
  split
  · exact consumeLine_reads _ raw h hfree
  · rfl

theorem exec_recEnc_frame {rtype : Byte} {raddr : BitVec 16} {bytes : List Byte} {s t : State}
    (h : exec (.recEnc rtype raddr bytes) s = .next t) : SameGenerator s t ∧ SameDecoder s t ∧ SameHost s t := by
  obtain rfl := withPayload_next h
  simp [SameGenerator, SameLayout, SameDecoder, SameHost]

theorem exec_decOpen_frame {s t : State} (h : exec .decOpen s = .next t) :
    SameGenerator s t ∧ t.eres = s.eres ∧ SameHost s t := by
  cases h
  simp [SameGenerator, SameLayout, SameHost]

theorem exec_decLine_frame {raw : Line} {s t : State} (h : exec (.decLine raw) s = .next t) :
    SameGenerator s t ∧ t.eres = s.eres ∧ t.port = s.port := by
  change execDecLine raw s = _ at h
  unfold execDecLine at h
  split at h <;> cases h
  exact consumeLine_frame _ raw s

/-- A record in the codec is encoded into `eres`, or consumed as a line. -/
theorem exec_recordInstr_frame {via : CodecPort} {r : HexRecord} {i : Instr} {s t : State}
    (hi : recordInstr via.port r = some i) (h : exec i s = .next t) :
    SameGenerator s t ∧ t.port = s.port ∧ (via = .res → SameDecoder s t) ∧ (via = .lin → t.eres = s.eres) := by
  rw [exec_of_recordInstr hi] at h
  obtain rfl := withPayload_next h
  cases via with
  | res => simp [CodecPort.port, recordAt, recordInCodec, SameGenerator, SameLayout, SameDecoder]
  | lin =>
    obtain ⟨hgenerator, heres, hport⟩ :=
      consumeLine_frame Config.decLowercaseOk (encodeLine r.recordType.code r.address r.data) s
    exact ⟨hgenerator, hport, nofun, fun _ => heres⟩

/-- Settles O52: what REC writes depends on its operands alone, and DEC is `openStream` and `consumeLine`. -/
theorem codecCommandsLeaveTheGeneratorAlone : Obligations.CodecCommandsLeaveTheGeneratorAlone := by
  refine ⟨fun s s' i hi => ?_, fun s s' i h hfree hi => ?_, fun s t => ⟨fun _ _ _ => exec_recEnc_frame,
    exec_decOpen_frame, fun _ => exec_decLine_frame, fun _ _ _ => exec_recordInstr_frame⟩⟩
  · obtain ⟨rtype, raddr, bytes, rfl⟩ | ⟨r, hr⟩ := hi
    · exact withPayload_congr bytes rfl
    · rw [exec_of_recordInstr hr, exec_of_recordInstr hr]
      exact withPayload_congr r.data rfl
  · obtain rfl | ⟨raw, rfl⟩ | ⟨r, hr⟩ := hi
    · exact SameOutcome_next ⟨by simp [SameDecoder], hfree⟩
    · exact execDecLine_congr raw h hfree
    · rw [exec_of_recordInstr hr, exec_of_recordInstr hr]
      exact withPayload_congr r.data (consumeLine_reads _ _ h hfree)

end Sys2Proof.Proofs
end

section
/-! Proofs about the sticky errors (60_exceptions.md R149, R151): a generator fault and an ended line stream stay until
the command that opens anew. -/

namespace Sys2Proof.Proofs

open Sys2Proof.Machine Sys2Proof.Safety

/-! ### Two kinds of commands -/

/-- The commands of units REC and DEC. -/
def CodecCommand (i : Instr) : Prop :=
  (∃ rtype raddr bytes, i = .recEnc rtype raddr bytes) ∨ i = .decOpen ∨ ∃ raw, i = .decLine raw

/-- Every command is one unit's; GEN_START and DEC_OPEN are those of `op` 0 and 4. -/
theorem decodeCommand_kinds {w : CommandWord} {i : Instr} (h : decodeCommand w = .ok i) :
    GeneratorCommand i ∧ ((∃ m, i = .genStart m) → w.op = 0) ∨ CodecCommand i ∧ (i = .decOpen → w.op = 4) := by
  obtain ⟨hop, rfl⟩ | ⟨-, rfl⟩ | ⟨-, rfl⟩ | ⟨-, -, rfl⟩ | ⟨hop, rfl⟩ | ⟨-, -, rfl⟩ | ⟨-, rfl⟩ | ⟨-, rfl⟩ :=
    decodeCommand_ok h
  · exact .inl ⟨.inl ⟨_, rfl⟩, fun _ => hop⟩
  · exact .inl ⟨.inr (.inl ⟨_, _, rfl⟩), nofun⟩
  · exact .inl ⟨.inr (.inr (.inl rfl)), nofun⟩
  · exact .inr ⟨.inl ⟨_, _, _, rfl⟩, nofun⟩
  · exact .inr ⟨.inr (.inl rfl), fun _ => hop⟩
  · exact .inr ⟨.inr (.inr ⟨_, rfl⟩), nofun⟩
  · exact .inl ⟨.inr (.inr (.inr (.inl rfl))), nofun⟩
  · exact .inl ⟨.inr (.inr (.inr (.inr rfl))), nofun⟩

theorem CodecCommand.sameGenerator {i : Instr} (hi : CodecCommand i) {s t : State} (h : exec i s = .next t) :
    SameGenerator s t := by
  obtain ⟨rtype, raddr, bytes, rfl⟩ | rfl | ⟨raw, rfl⟩ := hi
  · exact (exec_recEnc_frame h).1
  · exact (exec_decOpen_frame h).1
  · exact (exec_decLine_frame h).1

/-- What taking an input off the port keeps and each command keeps, every step but RST keeps. -/
theorem step_keeps {P : State → State → Prop} {s t : State} (h : step s = .next t)
    (hnorst : ∀ rest, s.port ≠ .rst :: rest) (hport : ∀ rest, P s { s with port := rest })
    (hcommand : ∀ w rest i, s.port = .command w :: rest → decodeCommand w = .ok i →
      exec i { s with port := rest } = .next t → P s t) : P s t := by
  obtain ⟨-, rfl⟩ | ⟨rest, hp, -⟩ | ⟨x, rest, -, -, -, rfl⟩ | ⟨w, rest, i, hp, hi, hexec⟩ := step_next h
  · exact hport t.port
  · exact absurd hp (hnorst rest)
  · exact hport rest
  · exact hcommand w rest i hp hi hexec

/-! ### Sticky errors (60_exceptions.md R151) -/

theorem raiseGen_sameGenerator_of_fault {s : State} (e : ErrorKind) (a : BitVec 32) (b : BitVec 33)
    (h : s.gphase = .fault) : SameGenerator s (raiseGen e a b s) := by
  rw [raiseGen_of_fault s e a b h]
  simp [SameGenerator, SameLayout]

theorem exec_genEntry_of_fault {s : State} (h : s.gphase = .fault) (la : BitVec 32) (src : List Byte) :
    exec (.genEntry la src) s = .next s := by
  simp only [exec, execGenEntry, h]

/-- In `G_FAULT` no command of unit SEQ but GEN_START changes it. -/
theorem GeneratorCommand.sameGenerator_of_fault {i : Instr} (hi : GeneratorCommand i) (hstart : ∀ m, i ≠ .genStart m)
    {s t : State} (hfault : s.gphase = .fault) (h : exec i s = .next t) : SameGenerator s t := by
  obtain ⟨m, rfl⟩ | ⟨la, src, rfl⟩ | rfl | rfl | rfl := hi
  · exact absurd rfl (hstart m)
  · rw [exec_genEntry_of_fault hfault] at h; cases h; simp [SameGenerator, SameLayout]
  · rw [exec_genEnd_of_fault hfault] at h; cases h; simp [SameGenerator, SameLayout]
  · cases h; exact raiseGen_sameGenerator_of_fault _ _ _ hfault
  · cases h; exact raiseGen_sameGenerator_of_fault _ _ _ hfault

/-- Settles O54: a codec command leaves unit SEQ as it is, and in `G_FAULT` so does one of its own. -/
theorem generatorFaultIsSticky : Obligations.GeneratorFaultIsSticky := by
  intro s t hfault h hx
  refine step_keeps h (fun rest hp => (hx _ _ hp).1 rfl) (fun rest => by simp [SameGenerator, SameLayout])
    fun w rest i hp hi hexec => ?_
  obtain ⟨hkind, hstart⟩ | ⟨hkind, -⟩ := decodeCommand_kinds hi
  · have hop : w.op ≠ 0 := by simpa [opensRun] using (hx _ _ hp).2
    exact hkind.sameGenerator_of_fault (fun m hm => hop (hstart ⟨m, hm⟩)) (s := { s with port := rest }) hfault hexec
  · exact hkind.sameGenerator (s := { s with port := rest }) hexec

/-- After its stream has ended unit DEC is as it was, but that `dres` may report the SequenceFault. -/
def EndedAlike (s t : State) : Prop :=
  t.dphase = s.dphase ∧ t.lineno = s.lineno ∧ t.derr = s.derr ∧ t.dsub = s.dsub ∧ t.dline = s.dline ∧
    t.dexp = s.dexp ∧ t.dact = s.dact ∧ (t.dres = s.dres ∨ t.dres = .sequenceFault)

theorem endedAlike_of_sameDecoder {s t : State} (h : SameDecoder s t) : EndedAlike s t := by
  obtain ⟨h1, h2, h3, h4, h5, h6, h7, hres⟩ := h
  exact ⟨h1, h2, h3, h4, h5, h6, h7, .inl hres⟩

/-- Outside `D_READY` no command of the codec but DEC_OPEN does more. -/
theorem CodecCommand.endedAlike {i : Instr} (hi : CodecCommand i) (hopen : i ≠ .decOpen) {s t : State}
    (hended : s.dphase ≠ .ready) (h : exec i s = .next t) : EndedAlike s t := by
  obtain ⟨rtype, raddr, bytes, rfl⟩ | rfl | ⟨raw, rfl⟩ := hi
  · exact endedAlike_of_sameDecoder (exec_recEnc_frame h).2.1
  · exact absurd rfl hopen
  · change execDecLine raw s = _ at h
    unfold execDecLine at h
    split at h <;> cases h
    rw [consumeLine_of_ended _ _ hended]
    exact ⟨rfl, rfl, rfl, rfl, rfl, rfl, rfl, .inr rfl⟩

/-- Settles O55: a generator command leaves unit DEC as it is, and of the codec's only a line touches it, in `dres`. -/
theorem endedDecodeIsSticky : Obligations.EndedDecodeIsSticky := by
  intro s t hended h hx
  refine step_keeps (P := EndedAlike) h (fun rest hp => (hx _ _ hp).1 rfl)
    (fun rest => endedAlike_of_sameDecoder (by simp [SameDecoder])) fun w rest i hp hi hexec => ?_
  obtain ⟨hkind, -⟩ | ⟨hkind, hopen⟩ := decodeCommand_kinds hi
  · exact endedAlike_of_sameDecoder (hkind.sameCodec (s := { s with port := rest }) hexec).1
  · have hop : w.op ≠ 4 := by simpa [opensStream] using (hx _ _ hp).2
    exact hkind.endedAlike (fun hd => hop (hopen hd)) (s := { s with port := rest }) hended hexec

end Sys2Proof.Proofs
end

section
/-! Proofs about the invariant of the machine (42_layout_sequencer.md R112, 10_state.md R15 to R20, 20_memory.md R31,
R37): it holds after reset, every step keeps it, and no presentable input stops the machine in its states. -/

namespace Sys2Proof.Proofs

open Sys2Proof.Machine Sys2Proof.Safety

/-! ### The generator's half -/

/-- The half of the invariant that speaks of unit SEQ. -/
structure GeneratorInv (s : State) : Prop where
  layout : LayoutInv s
  text : TextInv s

theorem layoutInv_congr {s t : State} (h : SameLayout s t) (hI : LayoutInv s) : LayoutInv t := by
  obtain ⟨hgphase, hmode, hcur, hbase, hgerr, hgea, hgeb⟩ := h
  exact
    { base_aligned := by rw [hbase]; exact hI.base_aligned
      run_bound := by rw [hcur, hbase]; exact hI.run_bound
      segmented_base := by rw [hmode, hbase]; exact hI.segmented_base
      mode_supported := by rw [hgphase, hmode]; exact hI.mode_supported
      error_iff_fault := by rw [hgerr, hgphase]; exact hI.error_iff_fault
      error_kind := by rw [hgerr]; exact hI.error_kind
      context_clear := by rw [hgphase, hgea, hgeb]; exact hI.context_clear }

theorem GeneratorInv.congr {s t : State} (h : SameGenerator s t) (hI : GeneratorInv s) : GeneratorInv t := by
  refine ⟨layoutInv_congr h.1 hI.layout, ?_⟩
  obtain ⟨⟨hgphase, hmode, hcur, hbase, -⟩, hout⟩ := h
  have htext := hI.text
  unfold TextInv at htext ⊢
  rw [hmode, hout, hgphase, hbase, hcur]
  exact htext

/-- A run just opened, or one that failed to open, has emitted nothing and stands at address 0. -/
theorem generatorInv_openRun (m : Byte) (s : State) : GeneratorInv (openRun m s) where
  layout := by
    by_cases hm : modeSupported m = true
    · rw [openRun_of_supported hm]
      constructor <;> simp [hm]
    · rw [openRun_of_unsupported hm]
      constructor <;> simp
  text := by
    have hopen : (openRun m s).gphase ≠ .done := by
      rw [openRun_gphase]
      split <;> nofun
    exact ⟨[], nofun, .inl ⟨rfl, hopen⟩, rfl, .nil, nofun⟩

/-- The errors of unit SEQ (60_exceptions.md R140). -/
def GeneratorError (e : ErrorKind) : Prop :=
  e ∈ [ErrorKind.unsupportedMode, .orderingFault, .addressRangeFault, .sequenceFault, .illegalCommand]

theorem layoutInv_raiseGen {e : ErrorKind} (he : GeneratorError e) (a : BitVec 32) (b : BitVec 33) {s : State}
    (hI : LayoutInv s) : LayoutInv (raiseGen e a b s) := by
  by_cases hfault : s.gphase = .fault
  · rwa [raiseGen_of_fault s e a b hfault]
  rw [raiseGen_of_ne s e a b hfault]
  have hne : e ≠ .none := by rintro rfl; exact absurd he (by simp [GeneratorError])
  exact
    { base_aligned := hI.base_aligned
      run_bound := hI.run_bound
      segmented_base := hI.segmented_base
      mode_supported := nofun
      error_iff_fault := by simp [hne]
      error_kind := List.mem_cons_of_mem _ he
      context_clear := fun h => absurd rfl h }

/-- An error leaves the text as it is, whether or not the run had ended. -/
theorem textInv_raiseGen (e : ErrorKind) (a : BitVec 32) (b : BitVec 33) {s : State} (hI : TextInv s) :
    TextInv (raiseGen e a b s) := by
  obtain ⟨body, hbody, hout, hbase, hasc, hbelow⟩ := hI
  refine ⟨body, ?_, ?_, ?_, hasc, ?_⟩
  · simpa using hbody
  · rw [raiseGen_out, raiseGen_gphase]
    exact hout.imp (fun h => ⟨h.1, nofun⟩) (fun h => ⟨h.1, .inr rfl⟩)
  · simpa using hbase
  · simpa using hbelow

theorem GeneratorInv.raiseGen {e : ErrorKind} (he : GeneratorError e) (a : BitVec 32) (b : BitVec 33) {s : State}
    (hI : GeneratorInv s) : GeneratorInv (raiseGen e a b s) :=
  ⟨layoutInv_raiseGen he a b hI.layout, textInv_raiseGen e a b hI.text⟩

/-- In a run the text is the body's alone. -/
theorem out_of_run {s : State} (hI : TextInv s) (hrun : s.gphase = .run) :
    ∃ body : List HexRecord, (∀ r ∈ body, emittedShape s.mode r = true ∧ r.recordType ≠ .eof) ∧
      s.out = textOf body ∧ finalBase 0 body = s.segbase.toNat ∧
      (image 0 body).Pairwise (fun c d => c.1 < d.1) ∧ ∀ c ∈ image 0 body, c.1 < s.addr := by
  obtain ⟨body, hbody, ⟨hout, -⟩ | ⟨-, hended⟩, hrest⟩ := hI
  · exact ⟨body, hbody, hout, hrest⟩
  · rw [hrun] at hended
    exact absurd hended (by simp)

theorem gerr_of_run {s : State} (hI : LayoutInv s) (hrun : s.gphase = .run) : s.gerr = .none :=
  hI.error_iff_fault.2 (by simp [hrun])

theorem textOf_concat_eof (body : List HexRecord) :
    textOf (body ++ [eofRecord]) = textOf body ++ (encodeLine 1 0 [] ++ [newline]) := by
  rw [textOf_append, textOf_singleton]
  rfl

/-- GEN_END in a run closes the text with the End-Of-File record. -/
theorem GeneratorInv.endRun {s : State} (hI : GeneratorInv s) (hrun : s.gphase = .run) :
    GeneratorInv { emitEOF s with gphase := .done } where
  layout :=
    { base_aligned := hI.layout.base_aligned
      run_bound := hI.layout.run_bound
      segmented_base := hI.layout.segmented_base
      mode_supported := fun _ => hI.layout.mode_supported (.inl hrun)
      error_iff_fault := iff_of_true (show s.gerr = .none from gerr_of_run hI.layout hrun) nofun
      error_kind := hI.layout.error_kind
      context_clear := fun _ => hI.layout.context_clear (by simp [hrun]) }
  text := by
    obtain ⟨body, hbody, hout, hrest⟩ := out_of_run hI.text hrun
    refine ⟨body, hbody, .inr ⟨?_, .inl rfl⟩, hrest⟩
    rw [textOf_concat_eof, ← hout]
    rfl

/-- GEN_ENTRY in a run leaves a run with its registers clear, or one of its two errors. -/
theorem layoutInv_enterSource {s t : State} {la : BitVec 32} {src : List Byte} (hI : LayoutInv s)
    (hrun : s.gphase = .run) (h : enterSource la src s = .next t) : LayoutInv t := by
  obtain ⟨t', rs, bytes, hnext, -, -, -, hmode, -, -, -, haligned, hlast, -, hbound, -, -, hend⟩ :=
    enterSource_spec s la src hI hrun
  obtain rfl : t' = t := by simpa [h] using hnext.symm
  have hsegmented : t'.mode = 2 → t'.segbase.toNat ≤ 0xF0000 := by
    intro hm
    rw [hmode] at hm
    simpa [lastWindow, hm] using hlast
  have hsupported : modeSupported t'.mode = true := hmode ▸ hI.mode_supported (.inl hrun)
  obtain ⟨hphase, hgerr, hgea, hgeb, -⟩ | ⟨hphase, herror⟩ := hend
  · have hnone : t'.gerr = .none := hgerr.trans (gerr_of_run hI hrun)
    refine ⟨haligned, hbound, hsegmented, fun _ => hsupported, by simp [hnone, hphase], by simp [hnone], fun _ => ?_⟩
    rw [hgea, hgeb]
    exact hI.context_clear (by simp [hrun])
  · refine ⟨haligned, hbound, hsegmented, fun _ => hsupported, ?_, ?_, fun hne => absurd hphase hne⟩
    · obtain herror | herror := herror <;> simp [herror, hphase]
    · obtain herror | herror := herror <;> simp [herror]

/-- GEN_ENTRY in a run appends records whose bytes stand at or above the running address, and moves it past them. -/
theorem textInv_enterSource {s t : State} {la : BitVec 32} {src : List Byte} (hI : GeneratorInv s)
    (hrun : s.gphase = .run) (h : enterSource la src s = .next t) : TextInv t := by
  obtain ⟨t', rs, bytes, hnext, -, -, -, hmode, hout, hrs, hbase, -, -, hgrown, -, himage, hplaced, hend⟩ :=
    enterSource_spec s la src hI.layout hrun
  obtain rfl : t' = t := by simpa [h] using hnext.symm
  obtain ⟨body, hbody, hout0, hbase0, hasc, hbelow⟩ := out_of_run hI.text hrun
  have himages : image 0 (body ++ rs) = image 0 body ++ cells la.toNat bytes := by
    rw [image_append, hbase0, himage]
  have hcells : ∀ c ∈ cells la.toNat bytes, s.addr ≤ c.1 ∧ c.1 < t'.addr := by
    intro c hc
    have hne : bytes ≠ [] := by rintro rfl; exact absurd hc (by simp [cells])
    have hin := cells_bounds _ _ c hc
    have hroom := hplaced hne
    omega
  have hopen : t'.gphase ≠ .done := by obtain ⟨hphase, -⟩ | ⟨hphase, -⟩ := hend <;> simp [hphase]
  refine ⟨body ++ rs, ?_, .inl ⟨?_, hopen⟩, ?_, ?_, ?_⟩
  · rw [hmode]
    exact fun r hr => (List.mem_append.1 hr).elim (hbody r) (hrs r)
  · rw [hout, hout0, textOf_append]
  · rw [finalBase_append, hbase0, hbase]
  · rw [himages, List.pairwise_append]
    exact ⟨hasc, cells_ascending _ _, fun c hc d hd => lt_of_lt_of_le (hbelow c hc) (hcells d hd).1⟩
  · rw [himages]
    exact fun c hc => (List.mem_append.1 hc).elim (fun hc => lt_of_lt_of_le (hbelow c hc) hgrown)
      fun hc => (hcells c hc).2

theorem GeneratorInv.enterSource {s t : State} {la : BitVec 32} {src : List Byte} (hI : GeneratorInv s)
    (hrun : s.gphase = .run) (h : enterSource la src s = .next t) : GeneratorInv t :=
  ⟨layoutInv_enterSource hI.layout hrun h, textInv_enterSource hI hrun h⟩

theorem GeneratorInv.genEntry {s t : State} {la : BitVec 32} {src : List Byte} (hI : GeneratorInv s)
    (h : execGenEntry la src s = .next t) : GeneratorInv t := by
  unfold execGenEntry at h
  split at h
  case h_1 => cases h; exact hI
  case h_2 hrun => exact hI.enterSource hrun h
  all_goals cases h; exact hI.raiseGen (by simp [GeneratorError]) _ _

theorem GeneratorInv.genEnd {s t : State} (hI : GeneratorInv s) (h : execGenEnd s = .next t) : GeneratorInv t := by
  unfold execGenEnd at h
  split at h <;> cases h
  case h_1 => exact hI
  case h_2 hrun => exact hI.endRun hrun
  all_goals exact hI.raiseGen (by simp [GeneratorError]) _ _

theorem GeneratorCommand.generatorInv {i : Instr} (hi : GeneratorCommand i) {s t : State} (hI : GeneratorInv s)
    (h : exec i s = .next t) : GeneratorInv t := by
  obtain ⟨m, rfl⟩ | ⟨la, src, rfl⟩ | rfl | rfl | rfl := hi
  · cases h; exact generatorInv_openRun m s
  · exact hI.genEntry h
  · exact hI.genEnd h
  · cases h; exact hI.raiseGen (by simp [GeneratorError]) _ _
  · cases h; exact hI.raiseGen (by simp [GeneratorError]) _ _

/-! ### The codec's half -/

/-- The half of the invariant that speaks of units DEC and REC. -/
structure CodecInv (s : State) : Prop where
  decoder : DecoderInv s
  buffers : BufferInv s

theorem decoderInv_congr {s t : State} (h : SameDecoder s t) (hI : DecoderInv s) : DecoderInv t := by
  obtain ⟨hdphase, hlineno, hderr, hdsub, hdline, hdexp, hdact, hdres⟩ := h
  exact
    { error_iff_fault := by rw [hderr, hdphase]; exact hI.error_iff_fault
      error_kind := by rw [hderr]; exact hI.error_kind
      sub_iff_format := by rw [hdsub, hderr]; exact hI.sub_iff_format
      context_clear := by rw [hdphase, hdline, hdexp, hdact]; exact hI.context_clear
      failing_line := by rw [hdphase, hdline, hlineno]; exact hI.failing_line
      result_error := by rw [hdres, hderr, hdphase]; exact hI.result_error
      result_sub := by rw [hdres, hdsub]; exact hI.result_sub }

theorem bufferInv_congr {s t : State} (hdres : t.dres = s.dres) (heres : t.eres = s.eres) (hI : BufferInv s) :
    BufferInv t :=
  { record_checked := by rw [hdres]; exact hI.record_checked
    line_encoded := by rw [heres]; exact hI.line_encoded }

theorem CodecInv.congr {s t : State} (h : SameDecoder s t) (heres : t.eres = s.eres) (hI : CodecInv s) :
    CodecInv t := by
  have hdres : t.dres = s.dres := by obtain ⟨-, -, -, -, -, -, -, hdres⟩ := h; exact hdres
  exact ⟨decoderInv_congr h hI.decoder, bufferInv_congr hdres heres hI.buffers⟩

/-- A decoder without an error: its error registers are clear. -/
structure DecoderClear (s : State) : Prop where
  derr : s.derr = .none
  dsub : s.dsub = .none
  context : s.dline = 0 ∧ s.dexp = 0 ∧ s.dact = 0

theorem decoderClear_of_ready {s : State} (hI : DecoderInv s) (hready : s.dphase = .ready) : DecoderClear s := by
  have hderr : s.derr = .none := hI.error_iff_fault.2 (by simp [hready])
  refine ⟨hderr, ?_, hI.context_clear (by simp [hready])⟩
  by_contra hsub
  exact absurd (hI.sub_iff_format.1 hsub) (by simp [hderr])

theorem DecoderClear.countLine {s : State} (h : DecoderClear s) : DecoderClear (countLine s) :=
  ⟨by simpa using h.derr, by simpa using h.dsub, by simpa using h.context⟩

theorem DecoderClear.withResult {s : State} (h : DecoderClear s) (p : DPhase) (b : DecodeBuffer) :
    DecoderClear { s with dphase := p, dres := b } := ⟨h.derr, h.dsub, h.context⟩

theorem DecoderClear.decoderInv {s : State} (h : DecoderClear s) (hphase : s.dphase ≠ .fault)
    (hres : s.dres.error = .none) : DecoderInv s where
  error_iff_fault := iff_of_true h.derr hphase
  error_kind := by simp [h.derr]
  sub_iff_format := by simp [h.dsub, h.derr]
  context_clear := fun _ => h.context
  failing_line := fun hfault => absurd hfault hphase
  result_error := .inl (hres.trans h.derr.symm)
  result_sub := fun sub hsub => by simp [hsub] at hres

/-- A failing line enters its error, its sub-cause and its number together, and `dres` reports them. -/
theorem decoderInv_raiseDec_formatError {sub : SubCause} (hsub : sub ≠ .none) (exp act : BitVec 16) (s : State) :
    DecoderInv (raiseDec .formatError sub exp act (.formatError sub) s) where
  error_iff_fault := by simp
  error_kind := by simp
  sub_iff_format := by simp [hsub]
  context_clear := fun h => absurd rfl h
  failing_line := fun _ => rfl
  result_error := .inl rfl
  result_sub := by rintro _ ⟨⟩; rfl

theorem decoderInv_raiseDec_checksumError (exp act : BitVec 16) (s : State) :
    DecoderInv (raiseDec .checksumError .none exp act .checksumError s) where
  error_iff_fault := by simp
  error_kind := by simp
  sub_iff_format := by simp
  context_clear := fun h => absurd rfl h
  failing_line := fun _ => rfl
  result_error := .inl rfl
  result_sub := nofun

/-- After the stream has ended the error registers keep the first error while `dres` reports the SequenceFault. -/
theorem decoderInv_ended {s : State} (hI : DecoderInv s) (hended : s.dphase ≠ .ready) :
    DecoderInv { s with dres := .sequenceFault } where
  error_iff_fault := hI.error_iff_fault
  error_kind := hI.error_kind
  sub_iff_format := hI.sub_iff_format
  context_clear := hI.context_clear
  failing_line := hI.failing_line
  result_error := .inr ⟨hended, rfl⟩
  result_sub := nofun

theorem decoderInv_consumeLine (lc : Bool) (raw : Line) {s : State} (hI : DecoderInv s) :
    DecoderInv (consumeLine lc raw s) := by
  by_cases hready : s.dphase = .ready
  case neg => rw [consumeLine_of_ended lc raw hready]; exact decoderInv_ended hI hready
  have hclear : DecoderClear (countLine s) := (decoderClear_of_ready hI hready).countLine
  by_cases hraw : trim raw = []
  · rw [consumeLine_of_blank lc hready hraw]
    exact (hclear.withResult .eos .eos).decoderInv nofun rfl
  cases hdec : decodeLine lc (trim raw) with
  | ok r =>
    rw [consumeLine_of_ok hready hraw hdec]
    exact (hclear.withResult (countLine s).dphase (.ok r)).decoderInv (by simp [hready]) rfl
  | formatError sub e a =>
    rw [consumeLine_of_formatError hready hraw hdec]
    exact decoderInv_raiseDec_formatError (decodeLine_sub_ne_none lc _ sub e a hdec) _ _ _
  | checksumError c d =>
    rw [consumeLine_of_checksumError hready hraw hdec]
    exact decoderInv_raiseDec_checksumError _ _ _

/-- A record that a line leaves in `dres` is one the line decodes to. -/
theorem consumeLine_dres_ok {lc : Bool} {raw : Line} {s : State} {r : HexRecord}
    (h : (consumeLine lc raw s).dres = .ok r) : decodeLine lc (trim raw) = .ok r := by
  by_cases hready : s.dphase = .ready
  case neg => rw [consumeLine_of_ended lc raw hready] at h; cases h
  by_cases hraw : trim raw = []
  · rw [consumeLine_of_blank lc hready hraw] at h; cases h
  cases hdec : decodeLine lc (trim raw) with
  | ok r' => rw [consumeLine_of_ok hready hraw hdec] at h; cases h; rfl
  | formatError sub e a => rw [consumeLine_of_formatError hready hraw hdec] at h; cases h
  | checksumError c d => rw [consumeLine_of_checksumError hready hraw hdec] at h; cases h

theorem CodecInv.consumeLine (lc : Bool) (raw : Line) {s : State} (hI : CodecInv s) :
    CodecInv (consumeLine lc raw s) := by
  refine ⟨decoderInv_consumeLine lc raw hI.decoder, fun r hr => ?_, ?_⟩
  · obtain ⟨-, -, hlen, hsum, -, -⟩ := decodeLine_eq_ok lc _ r (consumeLine_dres_ok hr)
    exact ⟨hlen, hsum⟩
  · rw [(consumeLine_frame lc raw s).2.1]
    exact hI.buffers.line_encoded

/-- A new stream has no error and no result. -/
theorem CodecInv.openStream {s : State} (hI : CodecInv s) : CodecInv (openStream s) where
  decoder := DecoderClear.decoderInv ⟨rfl, rfl, rfl, rfl, rfl⟩ nofun rfl
  buffers := ⟨nofun, hI.buffers.line_encoded⟩

/-- A line that REC_ENC leaves is the encoding of a record of one of the six types. -/
theorem encodeResult_eq_ok {rtype : Byte} {raddr : BitVec 16} {bytes : List Byte} {line : Line}
    (h : encodeResult rtype raddr bytes = .ok line) : ∃ t : RecType, line = encodeLine t.code raddr bytes := by
  by_cases hle : rtype.toNat ≤ 5
  · obtain ⟨t, ht⟩ := Option.isSome_iff_exists.1 ((RecType.ofCode_isSome rtype).2 hle)
    rw [encodeResult_of_le hle] at h
    cases h
    exact ⟨t, by rw [RecType.code_of_ofCode rtype t ht]⟩
  · rw [encodeResult_of_gt (by omega)] at h
    cases h

theorem CodecInv.recEnc {s t : State} {rtype : Byte} {raddr : BitVec 16} {bytes : List Byte} (hI : CodecInv s)
    (hlen : bytes.length ≤ 255) (h : exec (.recEnc rtype raddr bytes) s = .next t) : CodecInv t := by
  rw [exec_recEnc rtype raddr hlen] at h
  cases h
  refine ⟨decoderInv_congr (by simp [SameDecoder]) hI.decoder, hI.buffers.record_checked, fun line hline => ?_⟩
  obtain ⟨ty, hty⟩ := encodeResult_eq_ok hline
  exact ⟨ty, raddr, bytes, hlen, hty⟩

/-! ### The whole -/

theorem inv_iff (s : State) : Inv s ↔ GeneratorInv s ∧ CodecInv s :=
  ⟨fun ⟨hL, hT, hD, hB⟩ => ⟨⟨hL, hT⟩, ⟨hD, hB⟩⟩, fun ⟨⟨hL, hT⟩, ⟨hD, hB⟩⟩ => ⟨hL, hT, hD, hB⟩⟩

theorem codecInv_reset : CodecInv State.reset where
  decoder := DecoderClear.decoderInv ⟨rfl, rfl, rfl, rfl, rfl⟩ nofun rfl
  buffers := ⟨nofun, nofun⟩

theorem generatorInv_reset : GeneratorInv State.reset where
  layout := by constructor <;> decide
  text := ⟨[], nofun, .inl ⟨rfl, nofun⟩, rfl, .nil, nofun⟩

/-- Settles O56: after reset nothing is emitted, no error is recorded and the buffers are empty. -/
theorem resetMeetsTheInvariant : Obligations.ResetMeetsTheInvariant :=
  (inv_iff _).2 ⟨generatorInv_reset, codecInv_reset⟩

/-- The invariant speaks of neither of the model's own fields. -/
theorem inv_of_sameElements {s t : State} (hgenerator : SameGenerator s t) (hdecoder : SameDecoder s t)
    (heres : t.eres = s.eres) (hI : Inv s) : Inv t := by
  rw [inv_iff] at hI ⊢
  exact ⟨hI.1.congr hgenerator, hI.2.congr hdecoder heres⟩

theorem inv_of_port {s : State} (rest : List HostInput) (hI : Inv s) : Inv { s with port := rest } :=
  inv_of_sameElements (s := s) (by simp [SameGenerator, SameLayout]) (by simp [SameDecoder]) rfl hI

theorem inv_applyReset (s : State) : Inv (applyReset s) :=
  inv_of_sameElements (s := State.reset) (by simp [SameGenerator, SameLayout]) (by simp [SameDecoder]) rfl
    resetMeetsTheInvariant

/-- Each half of the invariant is kept by the commands of its own unit and not touched by the others. -/
theorem inv_of_command {w : CommandWord} {i : Instr} {s t : State} (hI : Inv s) (hi : decodeCommand w = .ok i)
    (h : exec i s = .next t) : Inv t := by
  rw [inv_iff] at hI ⊢
  obtain ⟨hgenerator, hcodec⟩ := hI
  obtain ⟨hkind, -⟩ | ⟨hkind, -⟩ := decodeCommand_kinds hi
  · obtain ⟨hdecoder, heres, -⟩ := hkind.sameCodec h
    exact ⟨hkind.generatorInv hgenerator h, hcodec.congr hdecoder heres⟩
  · refine ⟨hgenerator.congr (hkind.sameGenerator h), ?_⟩
    obtain ⟨rtype, raddr, bytes, rfl⟩ | rfl | ⟨raw, rfl⟩ := hkind
    · have hfits : bytes.length ≤ 255 := of_decide_eq_true (decodedInstructionsAreWellFormed (.command w) _ hi)
      exact hcodec.recEnc hfits h
    · cases h; exact hcodec.openStream
    · have hfits : raw.length ≤ 65535 := of_decide_eq_true (decodedInstructionsAreWellFormed (.command w) _ hi)
      rw [exec_decLine hfits] at h
      cases h
      exact hcodec.consumeLine _ raw

/-- Settles O57: RST starts the invariant anew, a status access touches no element, and a command keeps each half. -/
theorem stepKeepsTheInvariant : Obligations.StepKeepsTheInvariant := by
  intro s t hI h
  obtain ⟨-, rfl⟩ | ⟨rest, -, rfl⟩ | ⟨x, rest, -, -, -, rfl⟩ | ⟨w, rest, i, -, hi, hexec⟩ := step_next h
  · exact hI
  · exact inv_applyReset _
  · exact inv_of_port rest hI
  · exact inv_of_command (inv_of_port rest hI) hi hexec

/-! ### No presentable input stops the machine (70_reset_and_hazards.md R171) -/

theorem execGenEntry_next {s : State} (hI : LayoutInv s) (la : BitVec 32) (src : List Byte) :
    ∃ t, execGenEntry la src s = .next t := by
  unfold execGenEntry
  split
  case h_2 hrun =>
    obtain ⟨t, -, -, hnext, -⟩ := enterSource_spec s la src hI hrun
    exact ⟨t, hnext⟩
  all_goals exact ⟨_, rfl⟩

theorem execGenEnd_next (s : State) : ∃ t, execGenEnd s = .next t := by
  unfold execGenEnd
  split <;> exact ⟨_, rfl⟩

/-- A command that decodes has a next state: only an unsupported mode in a run, which the invariant excludes, faults. -/
theorem exec_command_next {w : CommandWord} {i : Instr} {s : State} (hI : LayoutInv s)
    (hi : decodeCommand w = .ok i) : ∃ t, exec i s = .next t := by
  obtain ⟨-, rfl⟩ | ⟨-, rfl⟩ | ⟨-, rfl⟩ | ⟨-, hlen, rfl⟩ | ⟨-, rfl⟩ | ⟨-, hlen, rfl⟩ | ⟨-, rfl⟩ | ⟨-, rfl⟩ :=
    decodeCommand_ok hi
  · exact ⟨_, rfl⟩
  · exact execGenEntry_next hI _ _
  · exact execGenEnd_next s
  · exact ⟨_, exec_recEnc _ _ hlen s⟩
  · exact ⟨_, rfl⟩
  · exact ⟨_, exec_decLine hlen s⟩
  · exact ⟨_, rfl⟩
  · exact ⟨_, rfl⟩

/-- Settles O58: a presentable command decodes, and every other input has a next state anyway. -/
theorem invariantStatesNeverStop : Obligations.InvariantStatesNeverStop := by
  intro s hI hx
  cases hp : s.port with
  | nil => exact ⟨s, step_of_idle hp⟩
  | cons x rest =>
    cases x with
    | rst => exact ⟨_, step_of_rst hp⟩
    | readStatus index => exact ⟨_, step_of_readStatus hp⟩
    | writeStatus index value => exact ⟨_, step_of_writeStatus hp⟩
    | command w =>
      have hpresentable := hx _ _ hp
      cases hi : decodeCommand w with
      | error e => simp [presentable, hi] at hpresentable
      | ok i =>
        rw [step_of_command hp hi]
        exact exec_command_next (inv_of_port rest hI).layout hi

/-! ### The running address (42_layout_sequencer.md R112 (c)) -/

/-- The running address has not gone back and the mode is the same. -/
def NotBefore (s t : State) : Prop := s.addr ≤ t.addr ∧ t.mode = s.mode

theorem notBefore_of_sameRegisters {s t : State} (hcur : t.cur = s.cur) (hbase : t.segbase = s.segbase)
    (hmode : t.mode = s.mode) : NotBefore s t := ⟨by rw [State.addr, State.addr, hcur, hbase], hmode⟩

/-- In a run no command of unit SEQ but GEN_START moves the running address back. -/
theorem GeneratorCommand.notBefore {i : Instr} (hi : GeneratorCommand i) (hstart : ∀ m, i ≠ .genStart m) {s t : State}
    (hI : LayoutInv s) (hrun : s.gphase = .run) (h : exec i s = .next t) : NotBefore s t := by
  obtain ⟨m, rfl⟩ | ⟨la, src, rfl⟩ | rfl | rfl | rfl := hi
  · exact absurd rfl (hstart m)
  · obtain ⟨t', rs, bytes, hnext, -, -, -, hmode, -, -, -, -, -, hgrown, -⟩ := enterSource_spec s la src hI hrun
    rw [exec_genEntry_of_run hrun, hnext] at h
    cases h
    exact ⟨hgrown, hmode⟩
  · rw [exec_genEnd_of_run hrun] at h
    cases h
    exact notBefore_of_sameRegisters rfl rfl rfl
  · cases h; exact notBefore_of_sameRegisters (raiseGen_cur ..) (raiseGen_segbase ..) (raiseGen_mode ..)
  · cases h; exact notBefore_of_sameRegisters (raiseGen_cur ..) (raiseGen_segbase ..) (raiseGen_mode ..)

/-- Settles O60: GEN_ENTRY moves the running address up, and nothing else in a run moves it. -/
theorem runningAddressNeverDecreases : Obligations.RunningAddressNeverDecreases := by
  intro s t hI hrun h hx
  refine step_keeps (P := NotBefore) h (fun rest hp => (hx _ _ hp).1 rfl)
    (fun rest => notBefore_of_sameRegisters rfl rfl rfl) fun w rest i hp hi hexec => ?_
  have hI' : LayoutInv { s with port := rest } := layoutInv_congr (by simp [SameLayout]) hI
  obtain ⟨hkind, hstart⟩ | ⟨hkind, -⟩ := decodeCommand_kinds hi
  · have hop : w.op ≠ 0 := by simpa [opensRun] using (hx _ _ hp).2
    exact hkind.notBefore (fun m hm => hop (hstart ⟨m, hm⟩)) (s := { s with port := rest }) hI' hrun hexec
  · obtain ⟨⟨-, hmode, hcur, hbase, -⟩, -⟩ := hkind.sameGenerator (s := { s with port := rest }) hexec
    exact notBefore_of_sameRegisters hcur hbase hmode

end Sys2Proof.Proofs
end

section
/-! Proofs about GEN_ENTRY (42_layout_sequencer.md R111 to R120, R122, R124, R127): where it puts a source, record by
record. -/

namespace Sys2Proof.Proofs

open Sys2Proof.Machine Sys2Proof.Safety

/-! ### Outside a run (R124) -/

/-- With no run open GEN_ENTRY is out of sequence. -/
theorem exec_genEntry_of_closed {s : State} (h : s.gphase = .idle ∨ s.gphase = .done) (la : BitVec 32)
    (src : List Byte) : exec (.genEntry la src) s = .next (raiseGen .sequenceFault 1 0 s) := by
  obtain h | h := h <;> simp only [exec, execGenEntry, h]

/-- Settles O30: one case per kind of phase. -/
theorem genEntryOutsideARun : Obligations.GenEntryOutsideARun := by
  intro s la src
  refine ⟨fun hclosed => ?_, fun hfault => exec_genEntry_of_fault hfault la src⟩
  have hfault : s.gphase ≠ .fault := by obtain h | h := hclosed <;> simp [h]
  rw [exec_genEntry_of_closed hclosed, raiseGen_of_ne s _ _ _ hfault]

/-! ### The address of the entry (R114) -/

/-- An accepted entry first makes its address the running address. -/
theorem exec_genEntry_of_le {s : State} {la : BitVec 32} (hrun : s.gphase = .run) (hle : s.addr ≤ la.toNat)
    (src : List Byte) :
    exec (.genEntry la src) s = placeBytes src.length la src { s with cur := la - s.segbase } := by
  rw [exec_genEntry_of_run hrun, enterSource_ok la s src hle]

theorem addr_of_assigned {s : State} {la : BitVec 32} (hle : s.addr ≤ la.toNat) :
    ({ s with cur := la - s.segbase } : State).addr = la.toNat := by
  have hcur := addr_assigned la s hle
  simp only [State.addr] at hle ⊢
  omega

theorem exec_genEntry_nil {s : State} {la : BitVec 32} (hrun : s.gphase = .run) (hle : s.addr ≤ la.toNat) :
    exec (.genEntry la []) s = .next { s with cur := la - s.segbase } := by
  rw [exec_genEntry_of_le hrun hle, placeBytes_nil]

/-- Settles O32: the address is assigned and there is no byte to place. -/
theorem emptySourceOnlyMovesTheAddress : Obligations.EmptySourceOnlyMovesTheAddress :=
  fun s la hrun hle => ⟨exec_genEntry_nil hrun hle, addr_assigned la s hle⟩

/-! ### Sources that fit (R116 to R120, R122) -/

theorem exec_genEntry_layout {s : State} {la : BitVec 32} {src : List Byte} {len top : Nat} (hI : LayoutInv s)
    (hrun : s.gphase = .run) (hlen : recLen s.mode = some len) (htop : maxAddr s.mode = some top)
    (hle : s.addr ≤ la.toNat) (hsrc : src ≠ []) (hfit : la.toNat + src.length ≤ top + 1) :
    exec (.genEntry la src) s = .next
      { s with
        cur := BitVec.ofNat 32 (la.toNat + src.length - windowOf (la.toNat + src.length - 1))
        segbase := BitVec.ofNat 32 (windowOf (la.toNat + src.length - 1))
        out := s.out ++ textOf (layoutOf s.mode len s.segbase.toNat la.toNat src) } := by
  have haddr := addr_of_assigned hle
  have hplaced := placeBytes_layout src.length la src { s with cur := la - s.segbase } len (le_refl _) hsrc
    hI.base_aligned hlen (by rw [haddr, ← (maxAddr_eq _ _ htop).1]; exact hfit)
  rw [haddr] at hplaced
  rw [exec_genEntry_of_le hrun hle, hplaced, layoutOf]

/-- Settles O34: the loop over the registers emits the layout of the addresses they stand for. -/
theorem genEntryEmitsTheLayout : Obligations.GenEntryEmitsTheLayout :=
  fun _ _ _ _ _ hI hrun hlen htop hle hsrc hfit => exec_genEntry_layout hI hrun hlen htop hle hsrc hfit

/-- An accepted source that ends at or below MAXADDR completes. -/
theorem exec_genEntry_run {s t : State} {la : BitVec 32} {src : List Byte} {top : Nat} (hI : LayoutInv s)
    (hrun : s.gphase = .run) (htop : maxAddr s.mode = some top) (hle : s.addr ≤ la.toNat)
    (hfit : la.toNat + src.length ≤ top + 1) (h : exec (.genEntry la src) s = .next t) : t.gphase = .run := by
  by_cases hsrc : src = []
  · subst hsrc
    rw [exec_genEntry_nil hrun hle] at h
    cases h
    exact hrun
  · obtain ⟨len, hlen⟩ := modeSupported_recLen _ (hI.mode_supported (.inl hrun))
    rw [exec_genEntry_layout hI hrun hlen htop hle hsrc hfit] at h
    cases h
    exact hrun

/-- Settles O35: what a completed GEN_ENTRY emits, with a reader's view of it, is `enterSource_spec`'s first case. -/
theorem genEntryPlacesEveryByteAtItsAddress : Obligations.GenEntryPlacesEveryByteAtItsAddress := by
  intro s la src top hI hrun htop hle hfit
  obtain ⟨t, rs, bytes, hnext, -, -, -, -, hout, hrs, hbase, -, -, -, -, himage, -, hend⟩ :=
    enterSource_spec s la src hI hrun
  have hexec : exec (.genEntry la src) s = .next t := (exec_genEntry_of_run hrun la src).trans hnext
  have hrun' := exec_genEntry_run hI hrun htop hle hfit hexec
  obtain ⟨-, -, -, -, rfl, -, haddr⟩ | ⟨hfault, -⟩ := hend
  · exact ⟨t, rs, hexec, hrun', hout, himage, hbase, haddr, hrs⟩
  · rw [hrun'] at hfault
    cases hfault

/-! ### A source inside one window (R127) -/

/-- The Data records of a source cut every `len` bytes, the first at offset `off` of the window. -/
def cutRecords (len off : Nat) (src : List Byte) : List HexRecord :=
  (List.range ((src.length + len - 1) / len)).map fun k =>
    mkRecord .data (BitVec.ofNat 16 (off + k * len)) ((src.drop (k * len)).take len)

theorem cutRecords_nil {len : Nat} (hlen : 1 ≤ len) (off : Nat) : cutRecords len off [] = [] := by
  have hcount : (0 + len - 1) / len = 0 := Nat.div_eq_of_lt (by omega)
  rw [cutRecords, List.length_nil, hcount]
  rfl

/-- The first record of a cut holds the first `len` bytes, and the rest is cut from there. -/
theorem cutRecords_of_ne_nil {len : Nat} (hlen : 1 ≤ len) (off : Nat) {src : List Byte} (hsrc : src ≠ []) :
    cutRecords len off src =
      mkRecord .data (BitVec.ofNat 16 off) (src.take len) :: cutRecords len (off + len) (src.drop len) := by
  have hpos := List.length_pos_iff.2 hsrc
  have hcount : (src.length + len - 1) / len = ((src.drop len).length + len - 1) / len + 1 := by
    rw [List.length_drop, ← Nat.add_div_right _ (by omega)]
    by_cases hle : len ≤ src.length
    · congr 1
      omega
    · rw [Nat.div_eq_of_lt_le (k := 1) (by omega) (by omega), Nat.div_eq_of_lt_le (k := 1) (by omega) (by omega)]
  rw [cutRecords, hcount, List.range_succ_eq_map, List.map_cons, List.map_map]
  congr 1
  · simp
  · refine List.map_congr_left fun k _ => ?_
    have hoff : off + (k + 1) * len = off + len + k * len := by ring
    have hdrop : (k + 1) * len = len + k * len := by ring
    rw [Function.comp, List.drop_drop, Nat.succ_eq_add_one, hoff, hdrop]

/-- Within the window the reader stands in, a layout is a cut. -/
theorem layout_in_window (p : Nat) (m : Byte) {len w : Nat} (hlen : 1 ≤ len) (hw : w % 0x10000 = 0) (a : Nat)
    (src : List Byte) (hp : src.length ≤ p) (hwa : w ≤ a) (hfit : a + src.length ≤ w + 0x10000) :
    layout p m len w a src = cutRecords len (a - w) src := by
  induction p generalizing a src with
  | zero =>
    obtain rfl := List.length_eq_zero_iff.1 (Nat.le_zero.1 hp)
    rw [layout_nil, cutRecords_nil hlen]
  | succ p ih =>
    by_cases hsrc : src = []
    · rw [hsrc, layout_nil, cutRecords_nil hlen]
    have hpos := List.length_pos_iff.2 hsrc
    have hwin : windowOf a = w := windowOf_eq_of a w hw hwa (by omega)
    have hsize : passSize len src a = min len src.length := by
      unfold passSize
      omega
    have htake : src.take (min len src.length) = src.take len := by rw [← List.take_take, List.take_length]
    rw [layout_cons _ _ _ _ _ _ hsrc, passRecords, if_pos hwin, hwin, hsize, htake, List.nil_append,
      List.singleton_append, cutRecords_of_ne_nil hlen _ hsrc]
    congr 1
    by_cases hle : len ≤ src.length
    · rw [min_eq_left hle, ih (a + len) (src.drop len) (by rw [List.length_drop]; omega) (by omega)
        (by rw [List.length_drop]; omega)]
      congr 1
      omega
    · have hdrop : ∀ n, src.length ≤ n → src.drop n = [] := fun n hn => List.drop_eq_nil_of_le hn
      rw [min_eq_right (by omega), hdrop _ (le_refl _), hdrop len (by omega), layout_nil, cutRecords_nil hlen]

/-- The window is opened by the first pass alone. -/
theorem layout_open (p : Nat) (m : Byte) (len base a : Nat) {src : List Byte} (hsrc : src ≠ []) :
    layout (p + 1) m len base a src =
      (if windowOf a = base then [] else [extRecord m (windowOf a)]) ++ layout (p + 1) m len (windowOf a) a src := by
  rw [layout_cons _ _ _ _ _ _ hsrc, layout_cons _ _ _ _ _ _ hsrc, passRecords, passRecords, if_pos rfl,
    List.nil_append, List.append_assoc]

/-- The layout of a source inside one window. -/
theorem layoutOf_in_window (m : Byte) {len : Nat} (hlen : 1 ≤ len) (base a : Nat) {src : List Byte} (hsrc : src ≠ [])
    (hfit : a % 0x10000 + src.length ≤ 0x10000) :
    layoutOf m len base a src =
      (if windowOf a = base then [] else [extRecord m (windowOf a)]) ++ cutRecords len (a % 0x10000) src := by
  have hpos := List.length_pos_iff.2 hsrc
  have hoff := sub_windowOf a
  have hwle := windowOf_le a
  obtain ⟨p, hp⟩ : ∃ p, src.length = p + 1 := ⟨src.length - 1, by omega⟩
  rw [layoutOf, hp, layout_open _ _ _ _ _ hsrc, ← hp, layout_in_window _ m hlen (windowOf_aligned a) a src (le_refl _)
    hwle (by omega), hoff]

/-- In a run the mode is a supported one, and has a range. -/
theorem exists_maxAddr {s : State} (hI : LayoutInv s) (hrun : s.gphase = .run) : ∃ top, maxAddr s.mode = some top := by
  have hmode : s.mode = 2 ∨ s.mode = 4 := (modeSupported_iff _).1 (hI.mode_supported (.inl hrun))
  obtain h | h := hmode <;> rw [h] <;> exact ⟨_, rfl⟩

/-- Settles O33: the layout of a source inside one window is the extension record, if any, and a cut. -/
theorem sourceInsideOneWindowIsCutIntoFullRecords : Obligations.SourceInsideOneWindowIsCutIntoFullRecords := by
  intro s la src len hI hrun hlen hle hsrc hfit hrange
  obtain ⟨top, htop⟩ := exists_maxAddr hI hrun
  have hpos := List.length_pos_iff.2 hsrc
  have hoff := sub_windowOf la.toNat
  have hwle := windowOf_le la.toNat
  have hend : windowOf (la.toNat + src.length - 1) = windowOf la.toNat :=
    windowOf_eq_of _ _ (windowOf_aligned _) (by omega) (by omega)
  have htopfit : la.toNat + src.length ≤ top + 1 := by
    obtain ⟨hlast, hmode⟩ := maxAddr_eq _ _ htop
    have hlt := la.isLt
    obtain hmode | hmode := hmode
    · have := hrange hmode
      simp only [lastWindow, hmode, if_true] at hlast
      omega
    · have hlast4 : lastWindow s.mode = 0xFFFF0000 := by rw [hmode]; rfl
      omega
  have hcur : la.toNat + src.length - windowOf la.toNat = la.toNat % 0x10000 + src.length := by omega
  rw [exec_genEntry_layout hI hrun hlen htop hle hsrc htopfit, hend, hcur,
    layoutOf_in_window _ (recLen_pos _ _ hlen) _ _ hsrc hfit]
  rfl

/-! ### Sources that do not fit (R117, R146) -/

/-- What a source that does not fit leaves in the registers: their sum is the end of the range or the entry's address,
and the base tells which. -/
theorem rangeFault_registers {s : State} {la c b : BitVec 32} {src : List Byte} {top : Nat}
    (hlast : top + 1 = lastWindow s.mode + 0x10000) (hle : s.addr ≤ la.toNat) (hsrc : src ≠ [])
    (hsum : c.toNat + b.toNat = max (top + 1) la.toNat)
    (hb : b.toNat = if src.take (top + 1 - la.toNat) = [] then s.segbase.toNat else lastWindow s.mode) :
    c = (if la.toNat ≤ top then 0x10000 else la - s.segbase) ∧
      b = if la.toNat ≤ top then BitVec.ofNat 32 (windowOf top) else s.segbase := by
  by_cases hbelow : la.toNat ≤ top
  · have htake : src.take (top + 1 - la.toNat) ≠ [] := by
      rw [Ne, List.take_eq_nil_iff, not_or]
      exact ⟨by omega, hsrc⟩
    have hwin : windowOf top = lastWindow s.mode := windowOf_eq_of _ _ (lastWindow_aligned _) (by omega) (by omega)
    rw [if_neg htake] at hb
    rw [max_eq_left (by omega)] at hsum
    rw [if_pos hbelow, if_pos hbelow, hwin, ← hb, BitVec.ofNat_toNat, BitVec.setWidth_eq]
    have hc : c.toNat = 0x10000 := by omega
    exact ⟨BitVec.eq_of_toNat_eq hc, rfl⟩
  · have htake : src.take (top + 1 - la.toNat) = [] := by
      rw [show top + 1 - la.toNat = 0 by omega, List.take_zero]
    have hcur := addr_assigned la s hle
    rw [if_pos htake] at hb
    rw [max_eq_right (by omega)] at hsum
    rw [if_neg hbelow, if_neg hbelow]
    exact ⟨BitVec.eq_of_toNat_eq (by omega), BitVec.eq_of_toNat_eq hb⟩

/-- Settles O36: the bytes below the range's end are placed; the two registers are then known by their sum. -/
theorem sourcePastTheLastWindowRaisesAddressRangeFault :
    Obligations.SourcePastTheLastWindowRaisesAddressRangeFault := by
  intro s la src len top hI hrun hlen htop hle hsrc hover
  have haddr := addr_of_assigned hle
  have hlast := (maxAddr_eq _ _ htop).1
  have hpos := List.length_pos_iff.2 hsrc
  obtain ⟨c, b, hplaced, hsum, -, hb⟩ := placeBytes_rangeFault src.length la src { s with cur := la - s.segbase } len
    (le_refl _) hsrc hI.base_aligned (layoutInv_base_le s hI) hlen (by simp [hrun])
    (by rw [haddr, ← hlast]; exact hover)
  rw [haddr, ← hlast] at hplaced hsum hb
  have hlayout : layout src.length s.mode len s.segbase.toNat la.toNat (src.take (top + 1 - la.toNat)) =
      layoutOf s.mode len s.segbase.toNat la.toNat (src.take (top + 1 - la.toNat)) :=
    layout_passes _ _ _ _ _ _ _ (recLen_pos _ _ hlen) (List.length_take_le' _ _) (le_refl _)
  obtain ⟨rfl, rfl⟩ := rangeFault_registers hlast hle hsrc hsum hb
  rw [exec_genEntry_of_le hrun hle, hplaced, hlayout]

end Sys2Proof.Proofs
end

section
/-! Proofs about GENERATE (42_layout_sequencer.md R123, R126): its entries one after the other, and the run's end. -/

namespace Sys2Proof.Proofs

open Sys2Proof.Machine Sys2Proof.Safety

/-! ### Commands in sequence -/

theorem runCommands_cons_of_next {i : Instr} {s t : State} (h : exec i s = .next t) (rest : List Instr) :
    runCommands (i :: rest) s = runCommands rest t := by
  rw [runCommands, h]

/-- The commands of a list of entries. -/
def entryCommands (entries : List (BitVec 32 × List Byte)) : List Instr := entries.map fun e => .genEntry e.1 e.2

theorem generate_eq (m : Byte) (entries : List (BitVec 32 × List Byte)) (s : State) :
    generate m entries s = runCommands (entryCommands entries ++ [.genEnd]) (openRun m s) := rfl

/-- The address just past an entry. -/
def entryEnd (e : BitVec 32 × List Byte) : Nat := e.1.toNat + e.2.length

/-! ### What a run's entries leave -/

/-- From `s` to `t`, both in one run, the records `rs` were emitted, and a reader of them places `cs`. -/
structure Placed (s t : State) (rs : List HexRecord) (cs : List Host.Cell) : Prop where
  inv : GeneratorInv t
  run : t.gphase = .run
  mode : t.mode = s.mode
  out : t.out = s.out ++ textOf rs
  base : finalBase s.segbase.toNat rs = t.segbase.toNat
  image : image s.segbase.toNat rs = cs
  shapes : ∀ r ∈ rs, emittedShape s.mode r = true ∧ r.recordType ≠ .eof

theorem placed_refl {s : State} (hI : GeneratorInv s) (hrun : s.gphase = .run) : Placed s s [] [] :=
  ⟨hI, hrun, rfl, (List.append_nil _).symm, rfl, rfl, nofun⟩

theorem Placed.trans {s t u : State} {rs rs' : List HexRecord} {cs cs' : List Host.Cell} (h : Placed s t rs cs)
    (h' : Placed t u rs' cs') : Placed s u (rs ++ rs') (cs ++ cs') where
  inv := h'.inv
  run := h'.run
  mode := h'.mode.trans h.mode
  out := by rw [h'.out, h.out, textOf_append, List.append_assoc]
  base := by rw [finalBase_append, h.base, h'.base]
  image := by rw [image_append, h.image, h.base, h'.image]
  shapes := fun r hr => (List.mem_append.1 hr).elim (h.shapes r) (h.mode ▸ h'.shapes r)

/-- One accepted entry in range. -/
theorem exec_genEntry_placed {s : State} {e : BitVec 32 × List Byte} {top : Nat} (hI : GeneratorInv s)
    (hrun : s.gphase = .run) (htop : maxAddr s.mode = some top) (hle : s.addr ≤ e.1.toNat)
    (hfit : entryEnd e ≤ top + 1) :
    ∃ t rs, exec (.genEntry e.1 e.2) s = .next t ∧ Placed s t rs (cells e.1.toNat e.2) ∧ t.addr = entryEnd e := by
  obtain ⟨t, rs, hexec, hrun', hout, himage, hbase, haddr, hshapes⟩ :=
    genEntryPlacesEveryByteAtItsAddress s e.1 e.2 top hI.layout hrun htop hle hfit
  have hcommand : GeneratorCommand (.genEntry e.1 e.2) := .inr (.inl ⟨_, _, rfl⟩)
  obtain ⟨-, hmode⟩ := hcommand.notBefore nofun hI.layout hrun hexec
  exact ⟨t, rs, hexec, ⟨hcommand.generatorInv hI hexec, hrun', hmode, hout, hbase, himage, hshapes⟩, haddr⟩

/-- Entries in order and in range: all are accepted, and the running address stays below every bound of their ends. -/
theorem runCommands_entries {s : State} {top : Nat} (entries : List (BitVec 32 × List Byte)) (hI : GeneratorInv s)
    (hrun : s.gphase = .run) (htop : maxAddr s.mode = some top)
    (hsorted : entries.Pairwise fun e f => entryEnd e ≤ f.1.toNat) (hstart : ∀ e ∈ entries, s.addr ≤ e.1.toNat)
    (hfit : ∀ e ∈ entries, entryEnd e ≤ top + 1) :
    ∃ t rs, (∀ rest, runCommands (entryCommands entries ++ rest) s = runCommands rest t) ∧
      Placed s t rs (entries.flatMap fun e => cells e.1.toNat e.2) ∧
      ∀ y, s.addr ≤ y → (∀ e ∈ entries, entryEnd e ≤ y) → t.addr ≤ y := by
  induction entries generalizing s with
  | nil => exact ⟨s, [], fun _ => rfl, placed_refl hI hrun, fun _ hy _ => hy⟩
  | cons e entries ih =>
    obtain ⟨hafter, hsorted⟩ := List.pairwise_cons.1 hsorted
    obtain ⟨hle, -⟩ := List.forall_mem_cons.1 hstart
    obtain ⟨hfite, hfit⟩ := List.forall_mem_cons.1 hfit
    obtain ⟨t, rs, hexec, hplaced, haddr⟩ := exec_genEntry_placed hI hrun htop hle hfite
    obtain ⟨u, rs', hrest, hplaced', hbound⟩ := ih hplaced.inv hplaced.run (hplaced.mode ▸ htop) hsorted
      (fun f hf => haddr ▸ hafter f hf) hfit
    refine ⟨u, rs ++ rs', fun rest => ?_, hplaced.trans hplaced', fun y _ hends => ?_⟩
    · rw [← hrest]
      exact runCommands_cons_of_next hexec _
    · obtain ⟨hende, hends⟩ := List.forall_mem_cons.1 hends
      exact hbound y (haddr ▸ hende) hends

/-! ### The whole call (R123) -/

/-- GEN_START of a mode with a range opens a run at address 0, with nothing emitted. -/
theorem openRun_gphase_of_maxAddr {m : Byte} {top : Nat} (htop : maxAddr m = some top) (s : State) :
    (openRun m s).gphase = .run := by
  rw [openRun_gphase, if_pos ((modeSupported_iff m).2 (maxAddr_eq m top htop).2)]

/-- Settles O38: the entries are accepted one by one, and GEN_END writes the last line. -/
theorem generateWritesTheWholeImage : Obligations.GenerateWritesTheWholeImage := by
  intro s m top entries htop hsorted hfit
  obtain ⟨t, body, hentries, hplaced, -⟩ := runCommands_entries (s := openRun m s) entries (generatorInv_openRun m s)
    (openRun_gphase_of_maxAddr htop s) htop hsorted (fun _ _ => Nat.zero_le _) hfit
  have hend : generate m entries s = .next { emitEOF t with gphase := .done } := by
    rw [generate_eq, hentries, runCommands_cons_of_next (exec_genEnd_of_run hplaced.run), runCommands]
  have hout : (emitEOF t).out = textOf (body ++ [eofRecord]) := by
    rw [textOf_concat_eof, emitEOF, writeLine_out, hplaced.out]
    rfl
  refine ⟨_, body, hend, if_pos rfl, ?_, fun r hr => (hplaced.shapes r hr).2, hplaced.image⟩
  rw [← readText_textOf _ (fits_of_emitted hplaced.shapes), ← hout]

/-- After an error the rest of a call does nothing (R151). -/
theorem runCommands_of_fault {u : State} (hfault : u.gphase = .fault) (entries : List (BitVec 32 × List Byte)) :
    runCommands (entryCommands entries ++ [.genEnd]) u = .next u := by
  induction entries with
  | nil => exact runCommands_cons_of_next (exec_genEnd_of_fault hfault) []
  | cons e entries ih => exact (runCommands_cons_of_next (exec_genEntry_of_fault hfault e.1 e.2) _).trans ih

/-- An entry below the running address ends the call with OrderingFault, whatever follows (R113, R126). -/
theorem runCommands_of_lt {t : State} (hrun : t.gphase = .run) {f : BitVec 32 × List Byte} (hlt : f.1.toNat < t.addr)
    (rest : List (BitVec 32 × List Byte)) :
    ∃ u, runCommands (entryCommands (f :: rest) ++ [.genEnd]) t = .next u ∧
      generateResult u = .error .orderingFault ∧ u.gea = f.1 ∧ u.geb.toNat = t.addr := by
  have hexec : exec (.genEntry f.1 f.2) t =
      .next { t with gerr := .orderingFault, gea := f.1, geb := t.runAddr, gphase := .fault } := by
    rw [exec_genEntry_of_run hrun, enterSource_of_lt hlt, raiseGen_of_ne t _ _ _ (by simp [hrun])]
  exact ⟨_, (runCommands_cons_of_next hexec _).trans (runCommands_of_fault rfl rest), rfl, rfl, runAddr_toNat t⟩

/-- Settles O39: the entries before the overlap are accepted, and the running address is then the end of the last. -/
theorem generateRejectsOverlappingEntries : Obligations.GenerateRejectsOverlappingEntries := by
  intro s m top good e f rest htop hsorted hfit hlt
  obtain ⟨hgood, -, hbefore⟩ := List.pairwise_append.1 hsorted
  obtain ⟨hfitgood, hfite⟩ := List.forall_mem_append.1 hfit
  obtain ⟨t, rs, hentries, hplaced, hbound⟩ := runCommands_entries (s := openRun m s) good (generatorInv_openRun m s)
    (openRun_gphase_of_maxAddr htop s) htop hgood (fun _ _ => Nat.zero_le _) hfitgood
  have hle : t.addr ≤ e.1.toNat := hbound _ (Nat.zero_le _) fun x hx => hbefore x hx e (List.mem_singleton_self e)
  obtain ⟨t', rs', hexec, hplaced', haddr⟩ := exec_genEntry_placed hplaced.inv hplaced.run
    (hplaced.mode ▸ htop) hle (hfite e (List.mem_singleton_self e))
  obtain ⟨u, hrest, herror, hgea, hgeb⟩ := runCommands_of_lt hplaced'.run (lt_of_lt_of_eq hlt haddr.symm) rest
  refine ⟨u, ?_, herror, hgea, hgeb.trans haddr⟩
  rw [← hrest, ← runCommands_cons_of_next hexec, ← hentries, generate_eq]
  simp [entryCommands]

end Sys2Proof.Proofs
end
